-- ==== Sys2Proof/Word.lean ====
section
/-! DEFINITION. The word types of the Hilbert SSB core and the shapes of its numbers (spec/00_scope.md R7, R8).

Host words, samples, gains and the binary64 values of the pipeline are held as the bits the spec gives them, because
software can read most of them as words. Arithmetic on them is in `Machine/Float.lean`, through the exact views below. -/

namespace Sys2Proof

/-- A 32-bit host word: a register, a command word or a buffer word (spec/20_memory.md R60). -/
abbrev Word := BitVec 32

/-- The bits of an IEEE 754 binary32 value (R8). -/
abbrev F32 := BitVec 32

/-- The bits of an IEEE 754 binary64 value (R8). -/
abbrev F64 := BitVec 64

/-- A complex64 value: a pair of binary64 values (R8). -/
structure C64 where
  re : F64
  im : F64
  deriving DecidableEq, Repr, Inhabited

/-- `(+0.0, +0.0)`. -/
abbrev C64.zero : C64 := ⟨0, 0⟩

/-- A binary interchange format, by the number of its fraction bits and of its exponent bits. -/
structure Fmt where
  frac : Nat
  expo : Nat
  deriving DecidableEq, Repr

/-- binary32. -/
abbrev Fmt.b32 : Fmt := ⟨23, 8⟩

/-- binary64. -/
abbrev Fmt.b64 : Fmt := ⟨52, 11⟩

/-- What an encoding denotes. A finite value is `±mag` in units of the format's smallest subnormal, so every finite
value of a format is a sign and a natural number, and signed zeros are kept apart. -/
inductive Fp where
  | nan
  | inf (neg : Bool)
  | fin (neg : Bool) (mag : Nat)
  deriving DecidableEq, Repr

/-- The exact result of an operation before its one rounding: `±num/den` in units of the format's smallest
subnormal, an infinity, or an invalid operation. -/
inductive Exact where
  | nan
  | inf (neg : Bool)
  | rat (neg : Bool) (num den : Nat)
  deriving DecidableEq, Repr

end Sys2Proof
end

