-- ==== Sys2Proof/Syntax.lean ====
section
/-! DEFINITION. The commands of the Hilbert SSB core: one constructor for each row of spec/opcode_table.json
(spec/30_encoding.md R91, R92, R93). -/

namespace Sys2Proof

/-- The DIR sub-field of SET_SHIFT (R93). `reserved` is the encoding 3, which decodes and is refused when executed. -/
inductive Dir where
  | off
  | up
  | down
  | reserved
  deriving DecidableEq, Repr

/-- A command. Sub-fields are unsigned integers (R91); their encodable ranges are in `WellFormed`, their legal ranges
are checked when the command executes. -/
inductive Instr where
  /-- NOP (R211). -/
  | nop
  /-- RESET with the channel count NCH (R212). -/
  | reset (nch : Nat)
  /-- SET_SHIFT with the direction DIR (R213). -/
  | setShift (dir : Dir)
  /-- SET_GAIN with the channel index CH (R214). -/
  | setGain (ch : Nat)
  /-- PROCESS with the block length N (R215). -/
  | process (n : Nat)
  deriving DecidableEq, Repr

end Sys2Proof
end

