-- ==== Sys2Proof/WellFormed.lean ====
section
/-! DEFINITION. Which commands the command word can spell: each sub-field within its width (spec/30_encoding.md R91).
The range checks on a value are not decoding errors (R91) and belong to the commands. -/

namespace Sys2Proof

/-- NCH and CH are 5-bit fields, N is a 16-bit field, and every DIR is encodable. -/
def Instr.wellFormed : Instr → Bool
  | .nop => true
  | .reset nch => decide (nch < 32)
  | .setShift _ => true
  | .setGain ch => decide (ch < 32)
  | .process n => decide (n < 65536)

/-- The proposition that a command is encodable. -/
abbrev Instr.WellFormed (i : Instr) : Prop := i.wellFormed = true

end Sys2Proof
end

