-- ==== Sys2Proof/Decode.lean ====
section
/-! DEFINITION. Decoding a command word, total on all 2^32 words and refusing by name (spec/30_encoding.md R90 to R95),
and the encoder written from the same table. -/

namespace Sys2Proof

/-- What the decoder answers: a command, or which of the two refusals of R94 applies. -/
inductive Decoded where
  | cmd (i : Instr)
  /-- OPC is 0x5..0xF: ERR_ILLEGAL_OPCODE. -/
  | illegalOpcode
  /-- The opcode is legal and a reserved bit is 1: ERR_RESERVED_BITS. -/
  | reservedBits
  deriving DecidableEq, Repr

/-- The opcode field OPC, bits 31:28 (R90). -/
def opcField (w : Word) : Nat := (w.extractLsb' 28 4).toNat

/-- The 5-bit operand OPD[4:0]: NCH of RESET and CH of SET_GAIN (R91). -/
def opd5 (w : Word) : Nat := (w.extractLsb' 0 5).toNat

/-- The operand OPD[1:0]: DIR of SET_SHIFT (R91). -/
def opd2 (w : Word) : Nat := (w.extractLsb' 0 2).toNat

/-- The operand OPD[15:0]: N of PROCESS (R91). -/
def opd16 (w : Word) : Nat := (w.extractLsb' 0 16).toNat

/-- DIR by its number (R93). -/
def dirOf (n : Nat) : Dir :=
  if n = 0 then .off else if n = 1 then .up else if n = 2 then .down else .reserved

/-- The number of a DIR (R93). -/
def dirCode : Dir → Nat
  | .off => 0
  | .up => 1
  | .down => 2
  | .reserved => 3

/-- `match` of the opcode map (R92). -/
def opcMatch (opc : Nat) : Word := BitVec.ofNat 32 (opc * 0x10000000)

/-- `mask` of the opcode map, for the legal opcodes (R92). -/
def opcMask (opc : Nat) : Word :=
  if opc = 0 then 0xFFFFFFFF#32
  else if opc = 1 then 0xFFFFFFE0#32
  else if opc = 2 then 0xFFFFFFFC#32
  else if opc = 3 then 0xFFFFFFE0#32
  else 0xFFFF0000#32

/-- The command a word of a legal opcode with no reserved bit spells (R91, R92). -/
def decodeFields (w : Word) : Instr :=
  if opcField w = 0 then .nop
  else if opcField w = 1 then .reset (opd5 w)
  else if opcField w = 2 then .setShift (dirOf (opd2 w))
  else if opcField w = 3 then .setGain (opd5 w)
  else .process (opd16 w)

/-- Decoding, in the order of R94: the opcode first, then the reserved bits. -/
def decode (w : Word) : Decoded :=
  if 5 ≤ opcField w then .illegalOpcode
  else if w &&& opcMask (opcField w) ≠ opcMatch (opcField w) then .reservedBits
  else .cmd (decodeFields w)

/-- Little-endian bytes of a word: bits 7:0 at the lowest address (spec/20_memory.md R64). -/
def wordOfBytes (b0 b1 b2 b3 : BitVec 8) : Word := b3 ++ b2 ++ b1 ++ b0

/-- Decoding from the bytes of a command word as the register space holds them; a command is exactly four bytes (R90). -/
def decodeBytes : List (BitVec 8) → Option Decoded
  | [b0, b1, b2, b3] => some (decode (wordOfBytes b0 b1 b2 b3))
  | _ => none

/-- The command word of a command (R92, R97). -/
def encode : Instr → Word
  | .nop => 0x00000000#32
  | .reset nch => 0x10000000#32 ||| BitVec.ofNat 32 nch
  | .setShift dir => 0x20000000#32 ||| BitVec.ofNat 32 (dirCode dir)
  | .setGain ch => 0x30000000#32 ||| BitVec.ofNat 32 ch
  | .process n => 0x40000000#32 ||| BitVec.ofNat 32 n

/-- Byte `k` of a number, little-endian. -/
def byteOf (w k : Nat) : BitVec 8 := BitVec.ofNat 8 (w / 256 ^ k)

/-- The host's question to the decoder: the command in an instruction whose bits are `w`, as spec/opcode_table.json
numbers them. A command is one 32-bit word, stored as four little-endian bytes; bits above `nbits` are 0. -/
def decodeTableWord (nbits w : Nat) : Option Instr :=
  let v := w % 2 ^ nbits
  if 2 ^ 32 ≤ v then none
  else
    match decodeBytes [byteOf v 0, byteOf v 1, byteOf v 2, byteOf v 3] with
    | some (.cmd i) => some i
    | _ => none

end Sys2Proof
end

