-- ==== Sys2Proof/Config.lean ====
section
/-! DEFINITION. What an implementation of the Hilbert SSB core fixes (spec/00_scope.md R6) and the values the spec
leaves open (`draw`, R9). The free TRIG_IMPL, `Config.trigPair`, stands in Machine/Trig.lean, beside what R183 requires of it.

The constants of R5 are HIL_SIZE = 1024, OVERSAMP = 4, HOP = 256, LATENCY = 768, XFADE_LEN = 512 and OLA_SCALE = 0.5;
NCH_MAX = 16 (R6). The definitions write these numbers out, as the spec's own pseudocode does. -/

namespace Sys2Proof.Config

open Sys2Proof

/-- How one of the three numeric parameters of R6 is chosen: the spec's default, or some other implementation,
of which the model knows only what the spec requires of every one. -/
inductive Impl where
  | reference
  | other (id : Nat)
  deriving DecidableEq, Repr

/-- The implementation parameters of R6. NCH_MAX is 16 always; NINST is the number of instances of the state.
EPS_H, a non-negative real the spec leaves open, is held as the rational `epsNum / (epsDenPred + 1)`. -/
structure Params where
  nmax : Nat
  base : Nat
  initMayFail : Bool
  window : Impl
  hilbert : Impl
  trig : Impl
  epsNum : Nat
  epsDenPred : Nat
  deriving DecidableEq, Repr

/-- The spec's defaults (R6). BASE and EPS_H have none: 0 and 2^-53 are DESIGN CHOICE (log 3). -/
def Params.default : Params :=
  { nmax := 1024, base := 0, initMayFail := false, window := .reference, hilbert := .reference,
    trig := .reference, epsNum := 1, epsDenPred := 2 ^ 53 - 1 }

/-- The ranges of R6: NMAX is in 1..2048 and BASE is a multiple of 0x40000. -/
abbrev Params.Ok (p : Params) : Prop :=
  1 ≤ p.nmax ∧ p.nmax ≤ 2048 ∧ p.base % 0x40000 = 0

/-- Where in a step a value is drawn. One constructor for each place, so that no two draws of a run are the same one. -/
inductive Site where
  | busRead | initFail
  | windowWiden | windowMul
  | hilbertRe | hilbertIm
  | accScale | accReMul | accReAdd | accImMul | accImAdd
  | wrap | phase | cosine | sine | modRe | modSign | modIm | modAdd | modNarrow | advance
  | mixDelta | mixRamp | mixGain | mixMul | mixAdd
  | rom
  deriving DecidableEq, Repr

/-- One drawn value: the step it belongs to (the counter `draws` of the state), the place, and up to two indices. -/
structure Draw where
  step : Nat
  site : Site
  i : Nat := 0
  j : Nat := 0
  deriving DecidableEq, Repr

/-- FREE VALUE (R9 `draw`): the bits of one draw. Nothing constrains them (log 7). -/
opaque freeBits : Draw → BitVec 64

/-- FREE VALUE (spec/44_host_commands.md R210 "at a time the model chooses", R220): how many host transactions may
still come before the engine step of the command accepted at this draw (log 6). -/
opaque freeDelay : Nat → Nat

/-- FREE VALUE: the words an implementation other than the default may hold in its Window ROM, before the checks of
spec/40_window_table.md R121 (log 14). -/
opaque rawWindow : Nat → Nat → F64

/-- FREE VALUE: what an implementation other than the default answers for a block, before the checks of
spec/42_hilbert.md R164 (log 14). -/
opaque rawHilbert : Nat → List F64 → List C64

end Sys2Proof.Config
end

