-- ==== Sys2Proof/Machine/State.lean ====
section
/-! DEFINITION. The state of the Hilbert SSB core (spec/10_state.md), of the host that drives it, and the reasons a step
can stop. -/

namespace Sys2Proof.Machine

open Sys2Proof Sys2Proof.Config

/-- The model faults of spec/60_exceptions.md R256, and one for an address outside the block. A fault ends the run
(spec/70_reset_and_hazards.md R292), so it carries no state. -/
inductive Fault where
  /-- A host write to IN_BUF or OUT_BUF while STATUS.BUSY = 1, raised by the host transaction
  (R256; spec/20_memory.md R70). Safe: the model stops where the spec gives no behaviour. -/
  | hostRace
  /-- A host read, or a PROCESS, that needs an IN_BUF or OUT_BUF word never written since power-on, raised by the host
  transaction or by PROCESS (R256; spec/10_state.md R42). Safe: the contents are unspecified. -/
  | unwrittenBuffer
  /-- A host transaction answered with a bus error: reserved offset, index at or above NMAX, other size, misaligned
  (R256, R258; spec/20_memory.md R67). Safe: the hardware goes on with no state changed; the model stops. -/
  | busError
  /-- A host transaction whose bus address lies in no instance's register space (spec/20_memory.md R60): it does not
  reach the block. Safe: the model stops (log 17). -/
  | noInstance
  deriving DecidableEq, Repr

/-- Reasons to give no meaning. Every command of the opcode table has a meaning, so none is raised. -/
inductive Refusal where
  /-- The command has no meaning yet, raised by `exec`'s arm. Safe: the model stops. -/
  | notModelled (mnemonic : String)
  deriving DecidableEq, Repr

/-- The error codes of STATUS.ERRCODE by name (spec/60_exceptions.md R251). -/
inductive ErrorName where
  | illegalOpcode | reservedBits | notInit | badNch | badDir | badFreq | badChannel | badGain | badLength
  | busy | fatal | initFailed
  deriving DecidableEq, Repr

/-- STATUS, by its fields (spec/10_state.md R31). The reserved bits read as 0 and have no storage. -/
structure Status where
  init : Bool
  busy : Bool
  err : Bool
  errMulti : Bool
  fatal : Bool
  errCode : BitVec 4
  deriving DecidableEq, Repr

/-- The host-visible sample memory: bytes by offset in the register space, in strictly rising order. An offset that is
not listed was never written, and reads as nothing (spec/10_state.md R42; log 10). -/
abbrev Memory := List Host.Cell

/-- One instance: every element spec/10_state.md R21 to R38 gives it, and the model's own `delay` (log 6). -/
structure Instance where
  inputRing : List F32
  count : Nat
  analytic : List C64
  accum : List C64
  outStage : List C64
  outdata : List C64
  rawOut : List F32
  fracFreq : F64
  inc : F64
  sign : BitVec 1
  current : List F32
  target : List F32
  nch : Nat
  status : Status
  freqLo : Word
  freqHi : Word
  gainData : Word
  pcmd : Word
  pfreq : F64
  pgain : F32
  mem : Memory
  delay : Nat
  deriving DecidableEq, Repr

/-- A transaction the host issues, by bus address (spec/20_memory.md R60; spec/30_encoding.md R97, R98). `poll i` is POLL
on instance `i`: it reads STATUS again and again until BUSY is 0, one read a step. -/
inductive HostOp where
  | read (addr size : Nat)
  | write (addr size : Nat) (v : Word)
  | poll (i : Nat)
  deriving DecidableEq, Repr

/-- The whole machine. `before ++ inst :: after` are the instances 0..NINST-1 (spec/60_exceptions.md R263); `inst` is the
one the next step serves first (the model's own bookkeeping, log 4). -/
structure State where
  cfg : Params
  before : List Instance
  inst : Instance
  after : List Instance
  host : List HostOp
  reads : List Word
  draws : Nat
  deriving DecidableEq, Repr

/-- STATUS at power-on: 0 (spec/10_state.md R45). -/
def Status.powerOn : Status :=
  { init := false, busy := false, err := false, errMulti := false, fatal := false, errCode := 0 }

/-- An instance at power-on (spec/10_state.md R45; spec/70_reset_and_hazards.md R280): the pipeline at its RESET values,
nch 0, STATUS 0, staging 0, no buffer word written. The command latch is unspecified: DESIGN CHOICE 0 (log 2). -/
def Instance.powerOn (nmax : Nat) : Instance :=
  { inputRing := List.replicate 1024 0
    count := 768
    analytic := List.replicate 1024 C64.zero
    accum := List.replicate 2048 C64.zero
    outStage := List.replicate 1024 C64.zero
    outdata := List.replicate nmax C64.zero
    rawOut := List.replicate nmax 0
    fracFreq := 0
    inc := 0
    sign := 0
    current := List.replicate 16 0
    target := List.replicate 16 0
    nch := 0
    status := Status.powerOn
    freqLo := 0
    freqHi := 0
    gainData := 0
    pcmd := 0
    pfreq := 0
    pgain := 0
    mem := []
    delay := 0 }

/-- The machine right after power-on, before any command: one instance with the default parameters, and a host with
nothing to send (log 1, 3, 5). -/
def State.reset : State :=
  { cfg := Params.default
    before := []
    inst := Instance.powerOn Params.default.nmax
    after := []
    host := []
    reads := []
    draws := 0 }

end Sys2Proof.Machine
end

