-- ==== Sys2Proof/Machine/Flags.lean ====
section
/-! DEFINITION. The STATUS register (spec/10_state.md R31, R40): its word, the error codes, recording and clearing an
error (spec/60_exceptions.md R251, R253, R255). -/

namespace Sys2Proof.Machine

open Sys2Proof

/-- The code of an error (R251). -/
def errorCode : ErrorName → BitVec 4
  | .illegalOpcode => 1
  | .reservedBits => 2
  | .notInit => 3
  | .badNch => 4
  | .badDir => 5
  | .badFreq => 6
  | .badChannel => 7
  | .badGain => 8
  | .badLength => 9
  | .busy => 10
  | .fatal => 11
  | .initFailed => 12

/-- The word a read of STATUS returns (R31): INIT 0, BUSY 1, ERR 2, ERR_MULTI 3, FATAL 4, ERRCODE 11:8, the rest 0. -/
def Status.word (st : Status) : Word :=
  0#20 ++ st.errCode ++ 0#3 ++ BitVec.ofBool st.fatal ++ BitVec.ofBool st.errMulti ++ BitVec.ofBool st.err
    ++ BitVec.ofBool st.busy ++ BitVec.ofBool st.init

/-- `RECORD(c)` (R253): the first error is kept, a second sets ERR_MULTI. -/
def Status.record (e : ErrorName) (st : Status) : Status :=
  if st.err then { st with errMulti := true } else { st with err := true, errCode := errorCode e }

/-- The write-1-to-clear of STATUS bit 2 (R255; spec/44_host_commands.md R217). -/
def Status.clearErrors (st : Status) : Status :=
  { st with err := false, errMulti := false, errCode := 0 }

/-- `STATUS.BUSY <- 0`, the end of an engine step (spec/44_host_commands.md R210). -/
def Status.idle (st : Status) : Status := { st with busy := false }

/-- The effect of a write of `v` to STATUS (R217): bit 2 clears the error fields, every other bit is ignored. -/
def Status.write (v : Word) (st : Status) : Status :=
  if v.getLsbD 2 then st.clearErrors else st

end Sys2Proof.Machine
end

