-- ==== Sys2Proof/Machine/Float.lean ====
section
/-! DEFINITION. IEEE 754 binary32 and binary64 arithmetic (spec/00_scope.md R8): every operation computes its exact
result on integers and rounds once, to nearest, ties to even, with gradual underflow and overflow to infinity.
The sign and payload of a NaN result are drawn. -/

namespace Sys2Proof.Machine

open Sys2Proof Sys2Proof.Config

/-! ## Loops over an index -/

/-- `a[0], …, a[n-1]`, each by its index. (Irreducible, so that no proof unrolls an array by accident.) -/
@[irreducible] def tabulate {α : Type} (n : Nat) (f : Nat → α) : List α := (List.range n).map f

/-- Whether a condition holds for every index below `n`. (Irreducible, as `tabulate`.) -/
@[irreducible] def allBelow (n : Nat) (q : Nat → Bool) : Bool := (List.range n).all q

/-- `for k in 0..n-1: f k`, upward (R9). -/
def forUp {α : Type} (f : Nat → α → α) : Nat → α → α
  | 0, x => x
  | n + 1, x => f n (forUp f n x)

/-! ## Formats -/

/-- The place of the sign bit. -/
def Fmt.signPos (f : Fmt) : Nat := f.expo + f.frac

/-- The encoding of +infinity. -/
def Fmt.infCode (f : Fmt) : Nat := (2 ^ f.expo - 1) <<< f.frac

/-- The magnitude a finite encoding without its sign bit denotes, in units of the smallest subnormal. -/
def Fmt.magOf (f : Fmt) (code : Nat) : Nat :=
  let e := code >>> f.frac
  if e = 0 then code else (2 ^ f.frac + code % 2 ^ f.frac) <<< (e - 1)

/-- What an encoding denotes. -/
def Fmt.view (f : Fmt) (bits : Nat) : Fp :=
  let neg := bits.testBit (Fmt.signPos f)
  let code := bits % 2 ^ Fmt.signPos f
  if code < Fmt.infCode f then .fin neg (Fmt.magOf f code)
  else if code = Fmt.infCode f then .inf neg
  else .nan

/-- The fraction `num/den` rounded to the nearest natural number, ties to even. -/
def rneNat (num den : Nat) : Nat :=
  let q := num / den
  let r := num % den
  if den < 2 * r ∨ (2 * r = den ∧ q % 2 = 1) then q + 1 else q

/-- The encoding, without its sign, of `num/den` smallest subnormals rounded to nearest even. `e` counts the binary
places by which the unit in the last place lies above the smallest subnormal; a significand that rounds up to the next
power of two carries into the exponent field by itself, and what reaches the code of infinity is infinity. -/
def Fmt.roundCode (f : Fmt) (num den : Nat) : Nat :=
  let e := Nat.log2 (num / den) - f.frac
  min ((e <<< f.frac) + rneNat num (den <<< e)) (Fmt.infCode f)

/-- A sign and an encoding without sign, put together. -/
def Fmt.withSign (f : Fmt) (neg : Bool) (code : Nat) : Nat :=
  (if neg then 2 ^ Fmt.signPos f else 0) + code

/-- A NaN whose sign and payload are the given free bits. A NaN's payload is not 0, so free bits that are 0 there give
the payload 1 (log 8). -/
def Fmt.nanCode (f : Fmt) (free : Nat) : Nat :=
  let payload := free % 2 ^ f.frac
  Fmt.withSign f (free.testBit 63) (Fmt.infCode f + (if payload = 0 then 1 else payload))

/-- The one rounding of an operation: an exact result to its encoding. -/
def Fmt.finish (f : Fmt) (d : Draw) : Exact → Nat
  | .nan => Fmt.nanCode f (freeBits d).toNat
  | .inf neg => Fmt.withSign f neg (Fmt.infCode f)
  | .rat neg num den => Fmt.withSign f neg (Fmt.roundCode f num den)

/-! ## Exact results -/

/-- A signed magnitude as an integer. -/
def signed (neg : Bool) (mag : Nat) : Int := if neg then -(mag : Int) else (mag : Int)

/-- The value with the sign changed. -/
def Fp.neg : Fp → Fp
  | .nan => .nan
  | .inf s => .inf (!s)
  | .fin s m => .fin (!s) m

/-- The exact sum. A zero sum is +0.0, but for the sum of two negative zeros (round to nearest). -/
def Fp.add : Fp → Fp → Exact
  | .nan, _ => .nan
  | _, .nan => .nan
  | .inf s, .inf t => if s = t then .inf s else .nan
  | .inf s, .fin _ _ => .inf s
  | .fin _ _, .inf t => .inf t
  | .fin s m, .fin t n =>
    let v := signed s m + signed t n
    if v = 0 then .rat (s && t) 0 1 else .rat (decide (v < 0)) v.natAbs 1

/-- The exact product of two values of a format whose smallest subnormal is `2^-scale`. -/
def Fp.mul (scale : Nat) : Fp → Fp → Exact
  | .nan, _ => .nan
  | _, .nan => .nan
  | .inf s, .inf t => .inf (s ^^ t)
  | .inf s, .fin t n => if n = 0 then .nan else .inf (s ^^ t)
  | .fin s m, .inf t => if m = 0 then .nan else .inf (s ^^ t)
  | .fin s m, .fin t n => .rat (s ^^ t) (m * n) (2 ^ scale)

/-- The exact quotient. -/
def Fp.div (scale : Nat) : Fp → Fp → Exact
  | .nan, _ => .nan
  | _, .nan => .nan
  | .inf _, .inf _ => .nan
  | .inf s, .fin t _ => .inf (s ^^ t)
  | .fin s _, .inf t => .rat (s ^^ t) 0 1
  | .fin s m, .fin t n =>
    if n = 0 then (if m = 0 then .nan else .inf (s ^^ t)) else .rat (s ^^ t) (m * 2 ^ scale) n

/-- The ordered comparison `x ≥ y`, false when either is a NaN. -/
def Fp.ge : Fp → Fp → Bool
  | .nan, _ => false
  | _, .nan => false
  | .inf s, .inf t => !s || t
  | .inf s, .fin _ _ => !s
  | .fin _ _, .inf t => t
  | .fin s m, .fin t n => decide (signed t n ≤ signed s m)

/-! ## binary64 and binary32 operations (R8) -/

/-- What a binary64 denotes. -/
def view64 (x : F64) : Fp := Fmt.view .b64 x.toNat

/-- What a binary32 denotes. -/
def view32 (x : F32) : Fp := Fmt.view .b32 x.toNat

/-- An exact result rounded to binary64. -/
def finish64 (d : Draw) (r : Exact) : F64 := BitVec.ofNat 64 (Fmt.finish .b64 d r)

/-- An exact result rounded to binary32. -/
def finish32 (d : Draw) (r : Exact) : F32 := BitVec.ofNat 32 (Fmt.finish .b32 d r)

/-- `x +64 y`. -/
def add64 (d : Draw) (x y : F64) : F64 := finish64 d (Fp.add (view64 x) (view64 y))

/-- `x -64 y`. -/
def sub64 (d : Draw) (x y : F64) : F64 := finish64 d (Fp.add (view64 x) (Fp.neg (view64 y)))

/-- `x *64 y`. -/
def mul64 (d : Draw) (x y : F64) : F64 := finish64 d (Fp.mul 1074 (view64 x) (view64 y))

/-- `x /64 y` (spec/40_window_table.md R122). -/
def div64 (d : Draw) (x y : F64) : F64 := finish64 d (Fp.div 1074 (view64 x) (view64 y))

/-- `x >=64 y`. -/
def ge64 (x y : F64) : Bool := Fp.ge (view64 x) (view64 y)

/-- `x +32 y`. -/
def add32 (d : Draw) (x y : F32) : F32 := finish32 d (Fp.add (view32 x) (view32 y))

/-- `x -32 y`. -/
def sub32 (d : Draw) (x y : F32) : F32 := finish32 d (Fp.add (view32 x) (Fp.neg (view32 y)))

/-- `x *32 y`. -/
def mul32 (d : Draw) (x y : F32) : F32 := finish32 d (Fp.mul 149 (view32 x) (view32 y))

/-- A binary32 value in binary64's units: exact, and a NaN stays one. -/
def Fp.widen : Fp → Exact
  | .nan => .nan
  | .inf s => .inf s
  | .fin s m => .rat s (m <<< 925) 1

/-- A binary64 value in binary32's units, still exact. -/
def Fp.narrow : Fp → Exact
  | .nan => .nan
  | .inf s => .inf s
  | .fin s m => .rat s m (2 ^ 925)

/-- `to64(x)`: widening, exact. -/
def to64 (d : Draw) (x : F32) : F64 := finish64 d (Fp.widen (view32 x))

/-- `to32(y)` = RNE32 of a binary64. -/
def to32 (d : Draw) (y : F64) : F32 := finish32 d (Fp.narrow (view64 y))

/-- `RNE32(num/den)` of a non-negative rational. -/
def rne32 (num den : Nat) : F32 := BitVec.ofNat 32 (Fmt.roundCode .b32 (num <<< 149) den)

/-- `RNE64(±num/den)` of a rational. -/
def rne64 (neg : Bool) (num den : Nat) : F64 :=
  BitVec.ofNat 64 (Fmt.withSign .b64 neg (Fmt.roundCode .b64 (num <<< 1074) den))

/-- Whether a binary64 is finite. -/
def isFinite64 (x : F64) : Bool :=
  match view64 x with
  | .fin _ _ => true
  | _ => false

/-- Whether a binary32 is finite. -/
def isFinite32 (x : F32) : Bool :=
  match view32 x with
  | .fin _ _ => true
  | _ => false

/-- Whether a binary64 is ±0.0. -/
def isZero64 (x : F64) : Bool :=
  match view64 x with
  | .fin _ m => m = 0
  | _ => false

/-- A finite binary64 as an integer number of smallest subnormals; 0 for a value that is not finite. -/
def int64Of (x : F64) : Int :=
  match view64 x with
  | .fin s m => signed s m
  | _ => 0

/-- A binary64 NaN with the given free bits (R8, spec/42_hilbert.md R167). -/
def nan64 (d : Draw) : F64 := finish64 d .nan

/-- The binary64 constants the rules name. -/
abbrev one64 : F64 := 0x3FF0000000000000#64

/-- `-1.0`. -/
abbrev minusOne64 : F64 := 0xBFF0000000000000#64

/-- `0.5` = OLA_SCALE. -/
abbrev half64 : F64 := 0x3FE0000000000000#64

/-- `π64` = RNE64(π) (R8; the encoding is spec/95_test_vectors.md 2.1's). -/
abbrev pi64 : F64 := 0x400921FB54442D18#64

/-- `TWO_PI64` = 2 *64 π64, exact (R8). -/
abbrev twoPi64 : F64 := 0x401921FB54442D18#64

end Sys2Proof.Machine
end

