-- ==== Sys2Proof/Machine/Ops.lean ====
section
/-! DEFINITION. The named operations over the buffer memory and the machine: bytes and words of IN_BUF and OUT_BUF
(spec/20_memory.md R63, R64; spec/10_state.md R42), ending an engine step, and refusing a command in STATUS, which takes
the place of an exception here (spec/60_exceptions.md R250, R253). -/

namespace Sys2Proof.Machine

open Sys2Proof Sys2Proof.Config

/-! ## The buffer memory -/

/-- The byte at an offset, if it was ever written. -/
def Memory.get : Memory → Nat → Option (BitVec 8)
  | [], _ => none
  | (k, b) :: m, a => if k = a then some b else Memory.get m a

/-- Writing one byte, keeping the offsets strictly rising. -/
def Memory.set : Memory → Nat → BitVec 8 → Memory
  | [], a, b => [(a, b)]
  | (k, c) :: m, a, b =>
    if a < k then (a, b) :: (k, c) :: m
    else if a = k then (a, b) :: m
    else (k, c) :: Memory.set m a b

/-- The canonical form: offsets strictly rising. (An unlisted offset reads as nothing, so no entry is redundant.) -/
abbrev Memory.Wf (m : Memory) : Prop := (m.map Prod.fst).Pairwise (· < ·)

/-- The canonical form as a Bool. -/
def Memory.wf (m : Memory) : Bool := decide (Memory.Wf m)

/-- The little-endian word at an offset, if it was ever written (R64). -/
def Memory.word (m : Memory) (a : Nat) : Option Word :=
  match Memory.get m a, Memory.get m (a + 1), Memory.get m (a + 2), Memory.get m (a + 3) with
  | some b0, some b1, some b2, some b3 => some (b3 ++ b2 ++ b1 ++ b0)
  | _, _, _, _ => none

/-- Writing a word, little-endian (R64), which sets its written bit (spec/10_state.md R42). -/
def Memory.setWord (m : Memory) (a : Nat) (v : Word) : Memory :=
  Memory.set (Memory.set (Memory.set (Memory.set m a (v.extractLsb' 0 8)) (a + 1) (v.extractLsb' 8 8))
    (a + 2) (v.extractLsb' 16 8)) (a + 3) (v.extractLsb' 24 8)

/-- The offset of `IN_BUF[k]` (R63). -/
def inAddr (k : Nat) : Nat := 0x2000 + 4 * k

/-- The offset of `OUT_BUF[c][k]` (R63). -/
def outAddr (c k : Nat) : Nat := 0x10000 + 0x2000 * c + 4 * k

/-- Whether every word a PROCESS of length `n` with `nch` channels reads was written (spec/10_state.md R42;
spec/70_reset_and_hazards.md R293 `BuffersWritten`). -/
def buffersWritten (m : Memory) (n nch : Nat) : Bool :=
  allBelow n fun k =>
    (Memory.word m (inAddr k)).isSome && allBelow nch fun c => (Memory.word m (outAddr c k)).isSome

/-- A buffer word that is known to be written. -/
def Memory.sample (m : Memory) (a : Nat) : F32 := (Memory.word m a).getD 0

/-! ## Ending a step -/

/-- The state with the served instance replaced. -/
def State.withInst (s : State) (u : Instance) : State := { s with inst := u }

/-- The end of a successful engine step: BUSY is cleared (spec/44_host_commands.md R210). -/
def State.complete (s : State) (u : Instance) : State :=
  s.withInst { u with status := u.status.idle }

/-- `raise Error(c)` in an engine step (spec/60_exceptions.md R253): record the code, clear BUSY, change nothing else.
This is the one way the block takes an exceptional event; there is no handler, and so no return from one (R250). -/
def State.raise (e : ErrorName) (s : State) : State :=
  s.withInst { s.inst with status := (s.inst.status.record e).idle }

end Sys2Proof.Machine
end

