-- ==== Sys2Proof/Machine/Bus.lean ====
section
/-! DEFINITION. Host transactions on the register space (spec/20_memory.md; spec/44_host_commands.md R210, R216 to R219)
and the choice of the instance a bus address belongs to (R60). -/

namespace Sys2Proof.Machine

open Sys2Proof Sys2Proof.Config

/-- What an offset of the register space names (spec/10_state.md R39; spec/20_memory.md R63). -/
inductive Target where
  | id | info | cmd | status | freqLo | freqHi | gainData
  | nch | count | sign | fracLo | fracHi | incLo | incHi
  | curGain (c : Nat)
  | tgtGain (c : Nat)
  | inBuf (k : Nat)
  | outBuf (c k : Nat)
  deriving DecidableEq, Repr

/-- The registers at 0x000..0x037, by word index (R39). -/
def lowRegister (i : Nat) : Option Target :=
  match i with
  | 0 => some .id
  | 1 => some .info
  | 2 => some .cmd
  | 3 => some .status
  | 4 => some .freqLo
  | 5 => some .freqHi
  | 6 => some .gainData
  | 7 => some .nch
  | 8 => some .count
  | 9 => some .sign
  | 10 => some .fracLo
  | 11 => some .fracHi
  | 12 => some .incLo
  | 13 => some .incHi
  | _ => none

/-- The address map (R63) on an aligned offset; a reserved offset and an index at or above NMAX name nothing. -/
def mapOffset (nmax off : Nat) : Option Target :=
  if off < 0x40 then lowRegister (off / 4)
  else if off < 0x80 then some (.curGain ((off - 0x40) / 4))
  else if off < 0xC0 then some (.tgtGain ((off - 0x80) / 4))
  else if off < 0x2000 then none
  else if off < 0x4000 then
    (if (off - 0x2000) / 4 < nmax then some (.inBuf ((off - 0x2000) / 4)) else none)
  else if off < 0x10000 then none
  else if off < 0x30000 then
    (if (off - 0x10000) % 0x2000 / 4 < nmax then
      some (.outBuf ((off - 0x10000) / 0x2000) ((off - 0x10000) % 0x2000 / 4)) else none)
  else none

/-- The target of a transaction, or nothing where the answer is a bus error (R65, R66, R67). -/
def target (nmax off size : Nat) : Option Target :=
  if size = 4 ∧ off % 4 = 0 then mapOffset nmax off else none

/-- ID (spec/10_state.md R35). -/
abbrev idWord : Word := 0x31485346#32

/-- INFO: NMAX in bits 15:0 and NCH_MAX - 1 = 15 in bits 20:16 (R35). -/
def infoWord (nmax : Nat) : Word := 0#11 ++ 15#5 ++ BitVec.ofNat 16 nmax

/-- Bits 31:0 of a binary64, the half at the lower offset (spec/20_memory.md R64). -/
def loHalf (x : F64) : Word := x.extractLsb' 0 32

/-- Bits 63:32 of a binary64. -/
def hiHalf (x : F64) : Word := x.extractLsb' 32 32

/-- A drawn 32-bit value (R70). -/
def drawnWord (step : Nat) : Word := (freeBits ⟨step, .busRead, 0, 0⟩).setWidth 32

/-- A read of a readback register: its value, or a drawn one while BUSY = 1 (R70; spec/44_host_commands.md R218). -/
def readback (step : Nat) (u : Instance) (v : Word) : Word := if u.status.busy then drawnWord step else v

/-- `MemRead` of a mapped offset (R68, R70; spec/44_host_commands.md R216 to R219). No read changes state. -/
def readTarget (nmax step : Nat) (u : Instance) : Target → Except Fault Word
  | .id => .ok idWord
  | .info => .ok (infoWord nmax)
  | .cmd => .ok 0
  | .status => .ok u.status.word
  | .freqLo => .ok u.freqLo
  | .freqHi => .ok u.freqHi
  | .gainData => .ok u.gainData
  | .nch => .ok (readback step u (BitVec.ofNat 32 u.nch))
  | .count => .ok (readback step u (BitVec.ofNat 32 u.count))
  | .sign => .ok (readback step u (u.sign.setWidth 32))
  | .fracLo => .ok (readback step u (loHalf u.fracFreq))
  | .fracHi => .ok (readback step u (hiHalf u.fracFreq))
  | .incLo => .ok (readback step u (loHalf u.inc))
  | .incHi => .ok (readback step u (hiHalf u.inc))
  | .curGain c => .ok (readback step u (u.current.getD c 0))
  | .tgtGain c => .ok (readback step u (u.target.getD c 0))
  | .inBuf k =>
    match Memory.word u.mem (inAddr k) with
    | none => .error .unwrittenBuffer
    | some v => .ok v
  | .outBuf c k =>
    match Memory.word u.mem (outAddr c k) with
    | none => .error .unwrittenBuffer
    | some v => .ok (readback step u v)

/-- Acceptance of a command word (spec/44_host_commands.md R210; spec/10_state.md R32): the word and the staging values
are latched and BUSY is set. `delay` is the drawn number of host transactions before the engine step (log 6). -/
def accept (delay : Nat) (w : Word) (u : Instance) : Instance :=
  { u with
    pcmd := w
    pfreq := u.freqHi ++ u.freqLo
    pgain := u.gainData
    status := { u.status with busy := true }
    delay := delay }

/-- `CMD_WRITE(w)` (R210): FATAL before BUSY (spec/60_exceptions.md R254), each recorded and the word dropped. -/
def cmdWrite (step : Nat) (w : Word) (u : Instance) : Instance :=
  if u.status.fatal then { u with status := u.status.record .fatal }
  else if u.status.busy then { u with status := u.status.record .busy }
  else accept (freeDelay step) w u

/-- `MemWrite` of a mapped offset (R68, R70; spec/44_host_commands.md R210, R216, R217, R219). A write to a read-only
register is ignored; a buffer write while BUSY = 1 is the model fault HostRace. -/
def writeTarget (step : Nat) (v : Word) (u : Instance) : Target → Except Fault Instance
  | .cmd => .ok (cmdWrite step v u)
  | .status => .ok { u with status := u.status.write v }
  | .freqLo => .ok { u with freqLo := v }
  | .freqHi => .ok { u with freqHi := v }
  | .gainData => .ok { u with gainData := v }
  | .inBuf k =>
    if u.status.busy then .error .hostRace else .ok { u with mem := Memory.setWord u.mem (inAddr k) v }
  | .outBuf c k =>
    if u.status.busy then .error .hostRace else .ok { u with mem := Memory.setWord u.mem (outAddr c k) v }
  | .id => .ok u
  | .info => .ok u
  | .nch => .ok u
  | .count => .ok u
  | .sign => .ok u
  | .fracLo => .ok u
  | .fracHi => .ok u
  | .incLo => .ok u
  | .incHi => .ok u
  | .curGain _ => .ok u
  | .tgtGain _ => .ok u

/-- `MemRead(off, size)` on an instance (R60); a bus error is the model fault BusError (R67; spec/60_exceptions.md R258). -/
def busRead (nmax step off size : Nat) (u : Instance) : Except Fault Word :=
  match target nmax off size with
  | none => .error .busError
  | some t => readTarget nmax step u t

/-- `MemWrite(off, size, v)` on an instance (R60). -/
def busWrite (nmax step off size : Nat) (v : Word) (u : Instance) : Except Fault Instance :=
  match target nmax off size with
  | none => .error .busError
  | some t => writeTarget step v u t

/-! ## Instances -/

/-- Instances 0..NINST-1 in order (spec/60_exceptions.md R263). -/
def State.instances (s : State) : List Instance := s.before ++ s.inst :: s.after

/-- The state serving instance `i`, if there is one. The instances and their order do not change. -/
def State.focus (s : State) (i : Nat) : Option State :=
  match s.instances[i]? with
  | none => none
  | some u => some { s with before := s.instances.take i, inst := u, after := s.instances.drop (i + 1) }

/-- The number of the instance a bus address at or above BASE belongs to (R60). -/
def instanceOf (base addr : Nat) : Nat := (addr - base) / 0x40000

/-- The offset of a bus address in its instance's register space (R60). -/
def offsetOf (base addr : Nat) : Nat := (addr - base) % 0x40000

/-- The state serving the instance a bus address belongs to, or the fault noInstance (log 17). -/
def State.select (s : State) (addr : Nat) : Except Fault State :=
  if addr < s.cfg.base then .error .noInstance
  else
    match s.focus (instanceOf s.cfg.base addr) with
    | none => .error .noInstance
    | some s' => .ok s'

/-- A host read by bus address: the value, and the state serving the instance read. -/
def State.hostRead (s : State) (addr size : Nat) : Except Fault (Word × State) :=
  match s.select addr with
  | .error f => .error f
  | .ok s' =>
    match busRead s.cfg.nmax s.draws (offsetOf s.cfg.base addr) size s'.inst with
    | .error f => .error f
    | .ok v => .ok (v, s')

/-- A host write by bus address. -/
def State.hostWrite (s : State) (addr size : Nat) (v : Word) : Except Fault State :=
  match s.select addr with
  | .error f => .error f
  | .ok s' =>
    match busWrite s.cfg.nmax s.draws (offsetOf s.cfg.base addr) size v s'.inst with
    | .error f => .error f
    | .ok u => .ok (s'.withInst u)

/-- The bus address of an offset in an instance's register space (R60). -/
def busAddr (base i off : Nat) : Nat := base + i * 0x40000 + off

/-- One host transaction counted against every pending command's drawn delay (log 6). -/
def Instance.tick (u : Instance) : Instance := { u with delay := u.delay - 1 }

/-- `tick` on every instance. -/
def State.tick (s : State) : State :=
  { s with before := s.before.map Instance.tick, inst := s.inst.tick, after := s.after.map Instance.tick }

/-- The state after a transaction: the rest of the host's list, the value read, and the draw counter advanced. -/
def State.answered (s : State) (rest : List HostOp) (vs : List Word) : State :=
  { s with host := rest, reads := s.reads ++ vs, draws := s.draws + 1 }

/-- One host transaction (R60, R71). POLL (spec/30_encoding.md R98) reads STATUS of its instance and stays the host's next
transaction while BUSY is 1. -/
def hostStep (op : HostOp) (rest : List HostOp) (s : State) : Host.Outcome State Fault Refusal :=
  let t := s.tick
  match op with
  | .read addr size =>
    match t.hostRead addr size with
    | .error f => .fault f
    | .ok (v, t') => .next (t'.answered rest [v])
  | .write addr size v =>
    match t.hostWrite addr size v with
    | .error f => .fault f
    | .ok t' => .next (t'.answered rest [])
  | .poll i =>
    match t.hostRead (busAddr s.cfg.base i 0x00C) 4 with
    | .error f => .fault f
    | .ok (v, t') => .next (t'.answered (if v.getLsbD 1 then op :: rest else rest) [v])

end Sys2Proof.Machine
end

