-- ==== Sys2Proof/Machine/Trig.lean ====
section
/-! DEFINITION. The parameter TRIG_IMPL (spec/43_modulator_mixer.md R183): the correctly rounded binary64 sine and
cosine, computed from integer enclosures, and every other pair that meets R183.

A real number is enclosed as `c ± r` in units of `2^-K`. It is rounded at the first precision `K` of a ladder at which
both ends round to the same binary64; a number no precision separates from the middle of two neighbours is taken to be
that middle (ties to even). Laws/Enclosure.lean proves the error radii; that the ladder is long enough is log 12. -/

namespace Sys2Proof.Machine

open Sys2Proof Sys2Proof.Config

/-- A real number enclosed as `c ± r`, in units of `2^-K` for the precision `K` at hand. -/
structure Ball where
  c : Int
  r : Nat
  deriving DecidableEq, Repr

/-- RNE64 of `c / 2^K`; a zero is +0.0. (Irreducible, so that no proof evaluates it by accident.) -/
@[irreducible] def roundInt64 (c : Int) (K : Nat) : F64 := rne64 (decide (c < 0)) c.natAbs (2 ^ K)

/-- The number's rounding, when both ends of its enclosure round alike. -/
def Ball.agreed (K : Nat) (b : Ball) : Option F64 :=
  let lo := roundInt64 (b.c - b.r) K
  if lo = roundInt64 (b.c + b.r) K then some lo else none

/-- Of the roundings of the two ends, the one with the even encoding. -/
def Ball.even (K : Nat) (b : Ball) : F64 :=
  let lo := roundInt64 (b.c - b.r) K
  if lo.toNat % 2 = 0 then lo else roundInt64 (b.c + b.r) K

/-- Rounding a number given by an enclosure for every precision. -/
def roundBall (enclose : Nat → Ball) : List Nat → F64
  | [] => 0
  | [K] => ((enclose K).agreed K).getD ((enclose K).even K)
  | K :: K' :: Ks => ((enclose K).agreed K).getD (roundBall enclose (K' :: Ks))

/-- The alternating series `t - t·x²/((k+1)(k+2)) + …` in units of `2^-K`, `x2` being the square of the argument in
units of `2^-2K`; it ends when a term is below the unit. -/
def taylor (x2 K : Nat) : Nat → Nat → Nat → Int
  | 0, _, _ => 0
  | fuel + 1, k, t =>
    if t = 0 then 0
    else (t : Int) - taylor x2 K fuel (k + 2) ((t * x2 / ((k + 1) * (k + 2))) >>> (2 * K))

/-- `sin x` for an argument of `x` units of `2^-K`, at most 13 units of 1: each of the fewer than `K` terms is off by
less than `2^20` units, and the rest of the series by less than one. -/
def sinBall (K x : Nat) : Ball := ⟨taylor (x * x) K K 1 x, 2 ^ 48⟩

/-- `cos x`, as `sinBall`. -/
def cosBall (K x : Nat) : Ball := ⟨taylor (x * x) K K 0 (2 ^ K), 2 ^ 48⟩

/-- `atan(1/m)` in units of `2^-K` by its series, `m2` being `m²` and `t` the power of `1/m` of the term `k`. -/
def atanInv (m2 : Nat) : Nat → Nat → Nat → Int
  | 0, _, _ => 0
  | fuel + 1, k, t => if t = 0 then 0 else (t / k : Nat) - atanInv m2 fuel (k + 2) (t / m2)

/-- π in units of `2^-K`, by Machin's formula; off by at most `60·K + 40` units. -/
def piFix (K : Nat) : Nat :=
  (16 * atanInv 25 K 1 (2 ^ K / 5) - 4 * atanInv 57121 K 1 (2 ^ K / 239)).toNat

/-- A non-negative finite binary64, given in smallest subnormals, in units of `2^-K` and reduced by a multiple of 2π
where it is 13 or more. -/
def reduceArg (K mag : Nat) : Nat :=
  if mag < 13 * 2 ^ 1074 then (mag <<< K) >>> 1074
  else
    let twoPi := 2 * piFix (K + 1100)
    ((mag <<< (K + 26)) % twoPi) >>> 1100

/-- The precisions tried for a sine or cosine. -/
abbrev trigLadder : List Nat := [192, 512, 1280]

/-- Below `2^-28` a sine rounds to its argument and a cosine to 1.0. -/
abbrev tinyMag : Nat := 2 ^ 1046

/-- `RNE64(cos x)`, for every finite `x`. -/
def cosRef (d : Draw) (x : F64) : F64 :=
  match view64 x with
  | .fin _ m => if m < tinyMag then one64 else roundBall (fun K => cosBall K (reduceArg K m)) trigLadder
  | _ => nan64 d

/-- `RNE64(sin x)`, for every finite `x`. -/
def sinRef (d : Draw) (x : F64) : F64 :=
  match view64 x with
  | .fin s m =>
    if m < tinyMag then x
    else
      roundBall (fun K =>
        let b := sinBall K (reduceArg K m)
        if s then ⟨-b.c, b.r⟩ else b) trigLadder
  | _ => nan64 d

/-- The domain on which R183 binds every implementation: `[0, 2·TWO_PI64)`. -/
def inTrigDomain (x : F64) : Bool :=
  match view64 x with
  | .fin s m => (!s || m = 0) && decide (signed false m < 2 * int64Of twoPi64)
  | _ => false

/-- What R183 requires of one sine or cosine beside a real `v`: finite, in [-1, 1], and at most 2^-52 away. -/
def TrigNear (y : F64) (v : ℝ) : Prop :=
  isFinite64 y = true ∧ (int64Of y).natAbs ≤ 2 ^ 1074 ∧ |(int64Of y : ℝ) - 2 ^ 1074 * v| ≤ 2 ^ 1022

/-- What R183 requires of a TRIG_IMPL; each is a function of its argument alone. It requires nothing outside the domain. -/
def MeetsR183 (cos sin : F64 → F64) : Prop :=
  cos 0 = one64 ∧ sin 0 = 0 ∧ ∀ x, inTrigDomain x = true →
    TrigNear (cos x) (Real.cos (int64Of x / 2 ^ 1074)) ∧ TrigNear (sin x) (Real.sin (int64Of x / 2 ^ 1074))

/-- A TRIG_IMPL: any pair of functions that meets R183. -/
structure TrigPair where
  cos : F64 → F64
  sin : F64 → F64
  meets : MeetsR183 cos sin

end Sys2Proof.Machine

namespace Sys2Proof.Config

/-- FREE VALUE (R6): the TRIG_IMPL of each implementation other than the default, where `none` is the default pair. Every
pair that meets R183 is among the values it may have (log 14). -/
opaque trigPair : Nat → Option Sys2Proof.Machine.TrigPair

end Sys2Proof.Config

namespace Sys2Proof.Machine

open Sys2Proof Sys2Proof.Config

/-- `cos64` of TRIG_IMPL (log 14, 15). -/
def cos64 (p : Impl) (d : Draw) (x : F64) : F64 :=
  match p with
  | .reference => cosRef d x
  | .other id =>
    match trigPair id with
    | some t => t.cos x
    | none => cosRef d x

/-- `sin64` of TRIG_IMPL, as `cos64`. -/
def sin64 (p : Impl) (d : Draw) (x : F64) : F64 :=
  match p with
  | .reference => sinRef d x
  | .other id =>
    match trigPair id with
    | some t => t.sin x
    | none => sinRef d x

end Sys2Proof.Machine
end

