-- ==== Sys2Proof/Machine/Window.lean ====
section
/-! DEFINITION. The Window ROM (spec/40_window_table.md): its default contents by the reference procedure of R122, the
contents another implementation may hold (R121), and the read operation WREAD (R125). -/

namespace Sys2Proof.Machine

open Sys2Proof Sys2Proof.Config

/-- 1023.0. -/
abbrev f64Of1023 : F64 := 0x408FF80000000000#64

/-- `scale = π64 /64 1023.0` (R122). -/
def windowScale : F64 := div64 ⟨0, .rom, 0, 0⟩ pi64 f64Of1023

/-- Words 0..511 of the reference procedure (R122): `t = RNE64(i) *64 scale`, `v = sin64(t)`, `v *64 v`. -/
def windowRefHalf (i : Nat) : F64 :=
  let t := mul64 ⟨0, .rom, i, 1⟩ (rne64 false i 1) windowScale
  let v := sinRef ⟨0, .rom, i, 2⟩ t
  mul64 ⟨0, .rom, i, 3⟩ v v

/-- The first 512 words of the reference table. -/
def windowRefTable : List F64 := tabulate 512 windowRefHalf

/-- An enclosure of `sin²(π·i/1023)` in units of `2^-512`. The only rational value for an `i` in 1..511 is
`sin²(π/3) = 3/4` at `i = 341`, which is given exactly, so that a word exactly `2^-50` away from it is judged rightly; a
word of any other index is never as near to the bound of R121 (4) as this radius (log 14). -/
def windowBall (i : Nat) : Ball :=
  if i = 341 then ⟨3 * 2 ^ 510, 0⟩
  else
    let s := (sinBall 512 (piFix 512 * i / 1023)).c
    ⟨s * s / 2 ^ 512, 2 ^ 50⟩

/-- Whether the binary64 `y`, in smallest subnormals, is within `2^-bits` of every number of the enclosure, equality
included. -/
def Ball.within (K bits : Nat) (b : Ball) (y : Int) : Bool :=
  decide (((y * 2 ^ K - b.c * 2 ^ 1074).natAbs + b.r * 2 ^ 1074) * 2 ^ bits ≤ 2 ^ (K + 1074))

/-- What R121 requires of word `i` in 1..511 of any table: in [0, 1], not a negative zero, within 2^-50 of the formula. -/
def windowAccepts (i : Nat) (w : F64) : Bool :=
  isFinite64 w && !w.msb && decide ((int64Of w).natAbs ≤ 2 ^ 1074) && (windowBall i).within 512 50 (int64Of w)

/-- Word `i` in 0..511 of WINDOW_VALUES. Word 0 is +0.0 in every table (R121). -/
def windowHalf (p : Impl) (i : Nat) : F64 :=
  match p with
  | .reference => windowRefTable.getD i 0
  | .other id =>
    if i = 0 then 0
    else if windowAccepts i (rawWindow id i) then rawWindow id i
    else windowRefTable.getD i 0

/-- WREAD(i) (R125): word 1023-i is a copy of word i, for i in 0..511 (R120). -/
def wread (p : Impl) (i : Nat) : F64 :=
  if i < 512 then windowHalf p i else windowHalf p (1023 - i)

end Sys2Proof.Machine
end

