-- ==== Sys2Proof/Machine/Hilbert.lean ====
section
/-! DEFINITION. The parameter HILBERT_IMPL (spec/42_hilbert.md): the reference function of R163, and any other function
that meets R164. -/

namespace Sys2Proof.Machine

open Sys2Proof Sys2Proof.Config

/-- The tap `h[j] = (2/1024)·cot(π·j/1024)` for an odd `j` below 512, enclosed in units of `2^-K` (R165; log 13). -/
def tapBall (K j : Nat) : Ball :=
  let x := piFix K * j / 1024
  ⟨(cosBall K x).c * 2 ^ K / (sinBall K x).c / 512, 2 ^ 32 * (K + 1)⟩

/-- The odd tap indices below 512. The even taps are 0 and `h[1024-j] = -h[j]` (R165). -/
def oddTaps : List Nat := tabulate 256 (fun m => 2 * m + 1)

/-- With `a` the real parts in smallest subnormals, `Σ_p h[(n-p) mod 1024]·a[p]` is the sum over the odd `j` below 512
of `h[j]·(a[n-j] - a[n+j])`, indices mod 1024 (R162, R165). The pairs `(j, a[n-j] - a[n+j])` whose difference is not 0. -/
def tapTerms (a : Nat → Int) (n : Nat) : List (Nat × Int) :=
  (oddTaps.map fun j => (j, a ((n + 1024 - j) % 1024) - a ((n + j) % 1024))).filter fun t => t.2 ≠ 0

/-- The enclosed taps `h[1], h[3], …, h[511]` at a precision. -/
def tapsAt (K : Nat) : Array Ball := (tabulate 256 fun m => tapBall K (2 * m + 1)).toArray

/-- `e = -Σ_p h[(n-p) mod 1024]·a[p]` (R163) enclosed in units of `2^-K` smallest subnormals, that is of `2^-(K+1074)`, for
taps in units of `2^-K`. -/
def quadratureBall (taps : Array Ball) (terms : List (Nat × Int)) : Ball :=
  terms.foldl (fun acc t =>
    let h := taps.getD (t.1 / 2) ⟨0, 0⟩
    ⟨acc.c - t.2 * h.c, acc.r + t.2.natAbs * h.r⟩) ⟨0, 0⟩

/-- How often `sin(2π·r/1024)` stands, counted with its sign, in `Σ_{k=1}^{511} sin(2π·j·k/1024) = cot(π·j/1024)` (the inner
sum of R165's derivation), for an `r` in 1..256: the residues `m = j·k` whose sine is plus or minus that of `r`. -/
def sineCount (j r : Nat) : Int :=
  forUp (fun k acc =>
    let m := j * (k + 1) % 1024
    if m = r ∨ m + r = 512 then acc + 1
    else if m + r = 1024 ∨ m = r + 512 then acc - 1
    else acc) 511 0

/-- The coefficient of `sin(2π·r/1024)` in `Σ d·cot(π·j/1024)` over the pairs `(j, d)`. -/
def sineCoef (terms : List (Nat × Int)) (r : Nat) : Int :=
  terms.foldl (fun acc t => acc + t.2 * sineCount t.1 r) 0

/-- `512·e` in smallest subnormals, where the sum `e` of R163 is rational. The sines of `2π·r/1024` for `r` in 1..256 are
linearly independent over the rationals and the last of them is 1, so `e` is rational exactly when the others' coefficients
vanish (`sines_gap` in Laws/Norm.lean; log 13). -/
def rationalQuadrature (terms : List (Nat × Int)) : Option Int :=
  if allBelow 255 (fun r => sineCoef terms (r + 1) == 0) then some (-sineCoef terms 256) else none

/-- The precisions of the taps tried for a quadrature component that is not rational. Its distance from zero and from every
middle of two neighbours is that of an algebraic integer of degree 512 from 0, so for finite samples the last precision always
decides (`quadratureRef_roundsTo` in Laws/Norm.lean; log 13). -/
abbrev tapLadder : List Nat := [1408, 6000, 24000, 96000, 1100000]

/-- `RNE64(e)` of R163 where the first precision does not decide: exactly where `e` is rational, else by the ladder. -/
def quadratureHard (terms : List (Nat × Int)) : F64 :=
  match rationalQuadrature terms with
  | some v => roundInt64 v (1074 + 9)
  | none => roundBall (fun L => quadratureBall (tapsAt (L - 1074)) terms) (tapLadder.map (· + 1074))

/-- `RNE64(e)` of R163. The sum is exactly 0 when every difference is, and then gives +0.0. `taps` are the taps at 320
places. -/
def quadratureRef (taps : Array Ball) (a : Nat → Int) (n : Nat) : F64 :=
  match tapTerms a n with
  | [] => 0
  | t :: ts => ((quadratureBall taps (t :: ts)).agreed (320 + 1074)).getD (quadratureHard (t :: ts))

/-- The real part of entry `p` of a block, in smallest subnormals. -/
def realOf (b : List C64) (p : Nat) : Int := int64Of (b.getD p C64.zero).re

/-- The 1024 real parts of a block, in smallest subnormals. -/
def realInts (b : List C64) : Array Int := (tabulate 1024 (realOf b)).toArray

/-- HILBERT_REF on a block of finite real parts (R163): real parts copied bit for bit, imaginary parts rounded once. -/
def hilbertFinite (b : List C64) : List C64 :=
  let ints := realInts b
  let taps := tapsAt 320
  tabulate 1024 fun n => ⟨(b.getD n C64.zero).re, quadratureRef taps (fun p => ints.getD p 0) n⟩

/-- `S = Σ_p |a[p]|` (R164), in smallest subnormals. -/
def absSum (b : List C64) : Nat := ((tabulate 1024 (realOf b)).map Int.natAbs).sum

/-- `EPS_H·S` of R164, as a fraction of smallest subnormals. -/
def errorBound (p : Params) (S : Nat) : Nat × Nat := (p.epsNum * S, p.epsDenPred + 1)

/-- Whether every number of an enclosure in units of `2^-K` smallest subnormals, or none of them, is within `bound` of the
`y` smallest subnormals. -/
def Ball.verdict (bound : Nat × Nat) (y : Int) (K : Nat) (b : Ball) : Option Bool :=
  let d := (y * 2 ^ K - b.c).natAbs
  if (d + b.r) * bound.2 ≤ bound.1 * 2 ^ K then some true
  else if bound.1 * 2 ^ K < (d - b.r) * bound.2 then some false
  else none

/-- The precisions tried to judge another implementation's quadrature component; the last decides for every bound whose
numerator and denominator are those of `bound` (`accurateIm_iff` in Laws/Norm.lean; log 14). -/
def verdictLadder (bound : Nat × Nat) : List Nat :=
  [1408, 6000, 24000, 96000, 1100000 + 514 * (Nat.log2 bound.1 + Nat.log2 bound.2 + 2)]

/-- `|y - e| ≤ EPS_H·S` (R164) for the sum `e` over the pairs, exactly: by integers where `e` is rational, else by the first
enclosure that decides. -/
def accurateIm (bound : Nat × Nat) (terms : List (Nat × Int)) (y : Int) : Bool :=
  match rationalQuadrature terms with
  | some v => decide ((y * 512 - v).natAbs * bound.2 ≤ bound.1 * 512)
  | none =>
    ((verdictLadder bound).findSome? fun K => (quadratureBall (tapsAt K) terms).verdict bound y K).getD false

/-- `|y - a| ≤ EPS_H·S` (R164) for a real part, exactly. -/
def accurateRe (bound : Nat × Nat) (a y : Int) : Bool :=
  decide ((y - a).natAbs * bound.2 ≤ bound.1)

/-- What R164 requires of an implementation's answer `o` to a block `b` of finite real parts: 1024 finite values, each
within EPS_H·S of the exact analytic signal. -/
def hilbertAccepts (p : Params) (b o : List C64) : Bool :=
  let bound := errorBound p (absSum b)
  let ints := realInts b
  o.length == 1024 && allBelow 1024 fun n =>
    let y := o.getD n C64.zero
    isFinite64 y.re && isFinite64 y.im && accurateRe bound (realOf b n) (int64Of y.re) &&
      accurateIm bound (tapTerms (fun q => ints.getD q 0) n) (int64Of y.im)

/-- A block whose 2048 components are NaNs with drawn bits (R167). -/
def nanBlock (step k : Nat) : List C64 :=
  tabulate 1024 fun n => ⟨nan64 ⟨step, .hilbertRe, k, n⟩, nan64 ⟨step, .hilbertIm, k, n⟩⟩

/-- HILBERT_IMPL (R163, R164, R167), run inside push `k` of step `step`. Another implementation is a function of the 1024
real parts; its answer stands where R164 allows it, and the reference's stands elsewhere (log 14). -/
def hilbert (p : Params) (step k : Nat) (b : List C64) : List C64 :=
  if allBelow 1024 (fun n => isFinite64 (b.getD n C64.zero).re) then
    match p.hilbert with
    | .reference => hilbertFinite b
    | .other id =>
      let o := rawHilbert id (tabulate 1024 fun n => (b.getD n C64.zero).re)
      if hilbertAccepts p b o then o else hilbertFinite b
  else nanBlock step k

end Sys2Proof.Machine
end

