-- ==== Sys2Proof/Machine/Overlap.lean ====
section
/-! DEFINITION. The overlap-add streaming buffer (spec/41_overlap_add.md): PUSH and the block boundary with its
sub-steps. `step` and `k` name the drawn NaN bits: the step and the push inside it. -/

namespace Sys2Proof.Machine

open Sys2Proof Sys2Proof.Config

/-- An element of a complex array. -/
def cget (l : List C64) (k : Nat) : C64 := l.getD k C64.zero

/-- WINDOW (R132): real part `to64(InputRing[k]) *64 W[k]`, imaginary part +0.0. -/
def window (p : Params) (step k : Nat) (u : Instance) : Instance :=
  { u with analytic := tabulate 1024 fun j =>
      ⟨mul64 ⟨step, .windowMul, k, j⟩ (to64 ⟨step, .windowWiden, k, j⟩ (u.inputRing.getD j 0)) (wread p.window j), 0⟩ }

/-- HILBERT (R133): the block is replaced by its analytic signal. -/
def hilbertStep (p : Params) (step k : Nat) (u : Instance) : Instance :=
  { u with analytic := hilbert p step k u.analytic }

/-- One accumulator entry of ACCUMULATE (R134): `acc + ((0.5 *64 W[j]) *64 a)`, both components alike. -/
def accumulateEntry (p : Params) (step k j : Nat) (acc a : C64) : C64 :=
  let sc := mul64 ⟨step, .accScale, k, j⟩ half64 (wread p.window j)
  ⟨add64 ⟨step, .accReAdd, k, j⟩ acc.re (mul64 ⟨step, .accReMul, k, j⟩ sc a.re),
   add64 ⟨step, .accImAdd, k, j⟩ acc.im (mul64 ⟨step, .accImMul, k, j⟩ sc a.im)⟩

/-- ACCUMULATE (R134): entries 0..1023; entries 1024..2047 are not touched. -/
def accumulate (p : Params) (step k : Nat) (u : Instance) : Instance :=
  { u with accum := tabulate 2048 fun j =>
      if j < 1024 then accumulateEntry p step k j (cget u.accum j) (cget u.analytic j) else cget u.accum j }

/-- OUTSTAGE (R135): entries 0..255 are copied from the accumulator. -/
def outStageStep (u : Instance) : Instance :=
  { u with outStage := tabulate 1024 fun j => if j < 256 then cget u.accum j else cget u.outStage j }

/-- ACC_SHIFT (R136): left by 256 with zero fill. -/
def accShift (u : Instance) : Instance :=
  { u with accum := tabulate 2048 fun j => if j + 256 ≤ 2047 then cget u.accum (j + 256) else C64.zero }

/-- RING_SHIFT (R137): left by 256; entries 768..1023 keep their values. -/
def ringShift (u : Instance) : Instance :=
  { u with inputRing := tabulate 1024 fun j =>
      if j < 768 then u.inputRing.getD (j + 256) 0 else u.inputRing.getD j 0 }

/-- BOUNDARY (R138): the sub-steps in the source's order. -/
def boundary (p : Params) (step k : Nat) (u : Instance) : Instance :=
  let u := { u with count := 768 }
  let u := window p step k u
  let u := hilbertStep p step k u
  let u := accumulate p step k u
  let u := outStageStep u
  let u := accShift u
  ringShift u

/-- PUSH before the boundary check (R130): store the sample, read the delayed one, advance the cursor. -/
def pushSample (k : Nat) (x : F32) (u : Instance) : Instance :=
  { u with
    inputRing := u.inputRing.set u.count x
    outdata := u.outdata.set k (cget u.outStage (u.count - 768))
    count := u.count + 1 }

/-- PUSH(k) of the sample `x` (R130), with BOUNDARY when the cursor reaches 1024 (R131). -/
def pushValue (p : Params) (step k : Nat) (x : F32) (u : Instance) : Instance :=
  let u := pushSample k x u
  if u.count = 1024 then boundary p step k u else u

/-- PUSH(k) (R130): the sample is `IN_BUF[k]`. -/
def push (p : Params) (step k : Nat) (u : Instance) : Instance :=
  pushValue p step k (Memory.sample u.mem (inAddr k)) u

end Sys2Proof.Machine
end

