-- ==== Sys2Proof/Machine/Modulator.lean ====
section
/-! DEFINITION. The single-sideband modulator and the gain crossfade mixer (spec/43_modulator_mixer.md): MODULATE and
MIX. -/

namespace Sys2Proof.Machine

open Sys2Proof Sys2Proof.Config

/-- The wrapped phase value `u` that MODULATE uses (R180, R195): 1.0 is subtracted from a stored value of 1.0 or more. -/
def wrapPhase (step k : Nat) (v : F64) : F64 :=
  if ge64 v one64 then sub64 ⟨step, .wrap, k, 0⟩ v one64 else v

/-- The sideband sign as a binary64: +1.0 for 0, -1.0 for 1 (R182). -/
def signValue (sign : BitVec 1) : F64 := if sign = 0 then one64 else minusOne64

/-- The rotated sample of MODULATE for the wrapped phase `v` and the delayed sample `y` (R180). -/
def rotate (p : Params) (step k : Nat) (sign : BitVec 1) (v : F64) (y : C64) : F32 :=
  let phase := mul64 ⟨step, .phase, k, 0⟩ twoPi64 v
  let cs := cos64 p.trig ⟨step, .cosine, k, 0⟩ phase
  let sn := sin64 p.trig ⟨step, .sine, k, 0⟩ phase
  let t1 := mul64 ⟨step, .modRe, k, 0⟩ y.re cs
  let t2 := mul64 ⟨step, .modIm, k, 0⟩ (mul64 ⟨step, .modSign, k, 0⟩ (signValue sign) y.im) sn
  to32 ⟨step, .modNarrow, k, 0⟩ (add64 ⟨step, .modAdd, k, 0⟩ t1 t2)

/-- The stored phase after MODULATE used the wrapped phase `v` (R180). -/
def advance (step k : Nat) (v f : F64) : F64 := add64 ⟨step, .advance, k, 0⟩ v f

/-- MODULATE(k) (R180). -/
def modulate (p : Params) (step k : Nat) (u : Instance) : Instance :=
  let v := wrapPhase step k u.inc
  { u with
    rawOut := u.rawOut.set k (rotate p step k u.sign v (cget u.outdata k))
    inc := advance step k v u.fracFreq }

/-- The crossfaded gain of sample `k` of a block of length `n` (R187): from `cu` towards `tg` over the first
`min(n, 512)` samples, then `tg`. -/
def mixGain (step c k n : Nat) (cu tg : F32) : F32 :=
  let m := min n 512
  if k < m then
    add32 ⟨step, .mixGain, c, k⟩ cu
      (mul32 ⟨step, .mixRamp, c, k⟩ (sub32 ⟨step, .mixDelta, c, 0⟩ tg cu) (rne32 k m))
  else tg

/-- One output word of MIX (R187, R188): the old word plus the sample times the gain. -/
def mixWord (step c k n : Nat) (cu tg raw old : F32) : F32 :=
  add32 ⟨step, .mixAdd, c, k⟩ old (mul32 ⟨step, .mixMul, c, k⟩ raw (mixGain step c k n cu tg))

/-- The accumulation of channel `c` into `OUT_BUF[c][k]` (R187, R188). -/
def mixSample (step n c : Nat) (u : Instance) (k : Nat) (m : Memory) : Memory :=
  Memory.setWord m (outAddr c k)
    (mixWord step c k n (u.current.getD c 0) (u.target.getD c 0) (u.rawOut.getD k 0) (Memory.sample m (outAddr c k)))

/-- MIX(c) for a block of length `n` (R187), ending with `current[c] <- target[c]` (R189). -/
def mix (step n c : Nat) (u : Instance) : Instance :=
  { u with
    mem := forUp (mixSample step n c u) n u.mem
    current := u.current.set c (u.target.getD c 0) }

end Sys2Proof.Machine
end

