-- ==== Sys2Proof/Machine/Operands.lean ====
section
/-! DEFINITION. The operands of the commands and the checks on their values, in the order the command rules give them
(spec/44_host_commands.md R212 to R215; spec/60_exceptions.md R254). Each check answers the error it raises. -/

namespace Sys2Proof.Machine

open Sys2Proof Sys2Proof.Config

/-- NCH of RESET: 1..16, else BAD_NCH (R212). -/
def checkNch (n : Nat) : Option ErrorName :=
  if n = 0 ∨ 16 < n then some .badNch else none

/-- Whether a latched frequency is refused: NaN, infinite, below 0 or at least 1 (R213). -/
def badFreq (f : F64) : Bool :=
  !isFinite64 f || !ge64 f 0 || ge64 f one64

/-- DIR of SET_SHIFT, then the latched frequency for up and down (R213). -/
def checkShift (dir : Dir) (f : F64) : Option ErrorName :=
  match dir with
  | .reserved => some .badDir
  | .off => none
  | .up => if badFreq f then some .badFreq else none
  | .down => if badFreq f then some .badFreq else none

/-- The stored form of an accepted frequency: -0.0 becomes +0.0 (R213). -/
def storedFreq (f : F64) : F64 := if isZero64 f then 0 else f

/-- CH of SET_GAIN, then the latched gain (R214). -/
def checkGain (ch nch : Nat) (g : F32) : Option ErrorName :=
  if nch ≤ ch then some .badChannel
  else if isFinite32 g then none
  else some .badGain

/-- N of PROCESS: 1..NMAX, else BAD_LENGTH (R215). -/
def checkLength (n nmax : Nat) : Option ErrorName :=
  if n = 0 ∨ nmax < n then some .badLength else none

/-- The checks of a command that needs INIT: NOT_INIT comes before the command's own (spec/60_exceptions.md R254). -/
def requireInit (st : Status) (own : Option ErrorName) : Option ErrorName :=
  if st.init then own else some .notInit

end Sys2Proof.Machine
end

