-- ==== Sys2Proof/Machine/Command.lean ====
section
/-! DEFINITION. The meanings of the five commands (spec/44_host_commands.md R211 to R215). Each is the whole engine step
of its command after decoding: the checks in the order of spec/60_exceptions.md R254, the effect, and BUSY cleared. -/

namespace Sys2Proof.Machine

open Sys2Proof Sys2Proof.Config

/-- What an engine step answers. -/
abbrev Result := Host.Outcome State Fault Refusal

/-- NOP (R211): no change, and BUSY cleared. -/
def execNop (s : State) : Result := .next (s.complete s.inst)

/-- The instance after a successful RESET with `n` channels (R212; spec/10_state.md R44): the pipeline zeroed, the gains
zeroed, nch and INIT set; the error fields, the staging registers, the latch and the host buffers unchanged. -/
def resetInstance (nmax n : Nat) (u : Instance) : Instance :=
  { u with
    inputRing := List.replicate 1024 0
    analytic := List.replicate 1024 C64.zero
    accum := List.replicate 2048 C64.zero
    outStage := List.replicate 1024 C64.zero
    outdata := List.replicate nmax C64.zero
    rawOut := List.replicate nmax 0
    count := 768
    fracFreq := 0
    inc := 0
    sign := 0
    current := List.replicate 16 0
    target := List.replicate 16 0
    nch := n
    status := { u.status with init := true } }

/-- Whether a RESET may draw a failure: INIT_MAY_FAIL, and no RESET has succeeded yet (R212; spec/60_exceptions.md R257). -/
def resetMayFail (s : State) : Bool := s.cfg.initMayFail && !s.inst.status.init

/-- The drawn Boolean of R212. -/
def resetFails (s : State) : Bool := resetMayFail s && (freeBits ⟨s.draws, .initFail, 0, 0⟩).getLsbD 0

/-- FATAL set (R257). -/
def State.setFatal (s : State) : State :=
  s.withInst { s.inst with status := { s.inst.status with fatal := true } }

/-- The counter of drawn values advanced. -/
def State.drawn (s : State) : State := { s with draws := s.draws + 1 }

/-- RESET (R212). -/
def execReset (nch : Nat) (s : State) : Result :=
  match checkNch nch with
  | some e => .next (s.raise e)
  | none =>
    let s' := if resetMayFail s then s.drawn else s
    if resetFails s then .next (s'.setFatal.raise .initFailed)
    else .next (s'.complete (resetInstance s.cfg.nmax nch s.inst))

/-- The instance after SET_SHIFT with a direction that passed its check (R213). -/
def shiftInstance (dir : Dir) (u : Instance) : Instance :=
  match dir with
  | .off => { u with fracFreq := 0, inc := 0 }
  | .up => { u with fracFreq := storedFreq u.pfreq, sign := 0 }
  | .down => { u with fracFreq := storedFreq u.pfreq, sign := 1 }
  | .reserved => u

/-- SET_SHIFT (R213). -/
def execSetShift (dir : Dir) (s : State) : Result :=
  match requireInit s.inst.status (checkShift dir s.inst.pfreq) with
  | some e => .next (s.raise e)
  | none => .next (s.complete (shiftInstance dir s.inst))

/-- SET_GAIN (R214): the target of one channel; its current gain is unchanged. -/
def execSetGain (ch : Nat) (s : State) : Result :=
  match requireInit s.inst.status (checkGain ch s.inst.nch s.inst.pgain) with
  | some e => .next (s.raise e)
  | none => .next (s.complete { s.inst with target := s.inst.target.set ch s.inst.pgain })

/-- The push phase of a PROCESS (R215; spec/41_overlap_add.md R139). -/
def pushPhase (p : Params) (step n : Nat) (u : Instance) : Instance := forUp (push p step) n u

/-- The modulate phase of a PROCESS (R215; spec/43_modulator_mixer.md R181). -/
def modulatePhase (p : Params) (step n : Nat) (u : Instance) : Instance := forUp (modulate p step) n u

/-- The mix phase of a PROCESS (R215; spec/43_modulator_mixer.md R191). -/
def mixPhase (step n nch : Nat) (u : Instance) : Instance := forUp (mix step n) nch u

/-- The whole block processing of R215: all pushes, then all modulations, then the mix of every active channel. -/
def processBlock (p : Params) (step n : Nat) (u : Instance) : Instance :=
  mixPhase step n u.nch (modulatePhase p step n (pushPhase p step n u))

/-- PROCESS (R215). A buffer word it reads that was never written is the model fault of spec/10_state.md R42; a fault
carries no state, so it is raised before the block (log 11). -/
def execProcess (n : Nat) (s : State) : Result :=
  match requireInit s.inst.status (checkLength n s.cfg.nmax) with
  | some e => .next (s.raise e)
  | none =>
    if buffersWritten s.inst.mem n s.inst.nch then
      .next (s.drawn.complete (processBlock s.cfg s.draws n s.inst))
    else .fault .unwrittenBuffer

end Sys2Proof.Machine
end

