-- ==== Sys2Proof/Machine/Dispatch.lean ====
section
/-! DEFINITION. One arm for each command: its meaning. -/

namespace Sys2Proof.Machine

open Sys2Proof

def exec (i : Instr) (s : State) : Host.Outcome State Fault Refusal :=
  match i with
  | .nop => Sys2Proof.Machine.execNop s
  | .reset nch => Sys2Proof.Machine.execReset nch s
  | .setShift dir => Sys2Proof.Machine.execSetShift dir s
  | .setGain ch => Sys2Proof.Machine.execSetGain ch s
  | .process n => Sys2Proof.Machine.execProcess n s

end Sys2Proof.Machine
end

