-- ==== Sys2Proof/Machine/Step.lean ====
section
/-! DEFINITION. One step of the machine: an engine step of an instance whose command's drawn delay is over, else the
host's next transaction, else nothing (spec/44_host_commands.md R210, R220; spec/20_memory.md R71). -/

namespace Sys2Proof.Machine

open Sys2Proof

/-- Whether an instance's engine step comes before the host's next transaction: a command is pending, and its drawn
delay is over or the host has nothing left to send (R220: the engine never runs while BUSY = 0, and every accepted
command runs). -/
def State.ready (s : State) (u : Instance) : Bool :=
  u.status.busy && (decide (u.delay = 0) || s.host.isEmpty)

/-- The state serving an instance that is ready, if there is one: the one being served, else the first. -/
def State.nextEngine (s : State) : Option State :=
  if s.ready s.inst then some s
  else s.focus (s.instances.findIdx s.ready)

/-- ENGINE_STEP (R210) on the served instance: decode the latched word, refuse it by its error, or execute it. -/
def engineStep (s : State) : Host.Outcome State Fault Refusal :=
  match decode s.inst.pcmd with
  | .illegalOpcode => .next (s.raise .illegalOpcode)
  | .reservedBits => .next (s.raise .reservedBits)
  | .cmd i => exec i s

/-- One step. A machine with no pending command and a host with nothing to send is idle and keeps its state
(spec/60_exceptions.md R265). -/
def step (s : State) : Host.Outcome State Fault Refusal :=
  match s.nextEngine with
  | some s' => engineStep s'
  | none =>
    match s.host with
    | [] => .next s
    | op :: rest => hostStep op rest s

/-- The state in which the very next step runs the command word `w`: the word accepted by the served instance as a CMD
write would (R210), with no host transaction before the engine step. The spec's machine fetches nothing: the command
latch is where a step takes its command from (log 19). -/
def State.withFetchWord (s : State) (nbits w : Nat) : State :=
  s.withInst (accept 0 (BitVec.ofNat 32 (w % 2 ^ nbits)) s.inst)

end Sys2Proof.Machine
end

