-- ==== Sys2Proof/Machine/Asm.lean ====
section
/-! DEFINITION. The assembly syntax of host programs (spec/30_encoding.md R97, R98): a program is the list of host
transactions its lines stand for. Literals are given as rationals and rounded to nearest (R97). -/

namespace Sys2Proof.Machine

open Sys2Proof

/-- A line of a program for one instance (R97, R98). Frequencies, gains and samples are `±num/den`. -/
inductive Line where
  | wr (off : Nat) (v : Word)
  | rd (off : Nat)
  | cmd (i : Instr)
  | poll
  | clrErr
  | freq (neg : Bool) (num den : Nat)
  | gainV (neg : Bool) (num den : Nat)
  | shift (dir : Dir) (neg : Bool) (num den : Nat)
  | gain (ch : Nat) (neg : Bool) (num den : Nat)
  | input (k : Nat) (neg : Bool) (num den : Nat)
  | output (c k : Nat) (neg : Bool) (num den : Nat)
  | zeroOut (nch n : Nat)
  | rdOut (c k : Nat)
  deriving DecidableEq, Repr

/-- `bits64(f)`: the binary64 encoding of a literal rounded to nearest (R98). -/
def bits64 (neg : Bool) (num den : Nat) : F64 := rne64 neg num den

/-- `bits32(g)`: the binary32 encoding of a literal rounded to nearest (R98). -/
def bits32 (neg : Bool) (num den : Nat) : F32 :=
  BitVec.ofNat 32 (Fmt.withSign .b32 neg (Fmt.roundCode .b32 (num <<< 149) den))

/-- `WR off, v` on instance `i` (R97). -/
def asmWr (base i off : Nat) (v : Word) : HostOp := .write (busAddr base i off) 4 v

/-- A command line: the word written to CMD, then POLL (R97). -/
def asmCmd (base i : Nat) (c : Instr) : List HostOp := [asmWr base i 0x008 (encode c), .poll i]

/-- `FREQ f` (R98). -/
def asmFreq (base i : Nat) (neg : Bool) (num den : Nat) : List HostOp :=
  [asmWr base i 0x010 (loHalf (bits64 neg num den)), asmWr base i 0x014 (hiHalf (bits64 neg num den))]

/-- The transactions of a line, for instance `i` of a block at `base` (R97, R98). R98 gives no order for the writes of ZEROOUT:
DESIGN CHOICE (log 23), channel by channel in increasing `c`, and within a channel in increasing `k`. -/
def assemble (base i : Nat) : Line → List HostOp
  | .wr off v => [asmWr base i off v]
  | .rd off => [.read (busAddr base i off) 4]
  | .cmd c => asmCmd base i c
  | .poll => [.poll i]
  | .clrErr => [asmWr base i 0x00C 0x4#32]
  | .freq neg num den => asmFreq base i neg num den
  | .gainV neg num den => [asmWr base i 0x018 (bits32 neg num den)]
  | .shift dir neg num den => asmFreq base i neg num den ++ asmCmd base i (.setShift dir)
  | .gain ch neg num den => asmWr base i 0x018 (bits32 neg num den) :: asmCmd base i (.setGain ch)
  | .input k neg num den => [asmWr base i (inAddr k) (bits32 neg num den)]
  | .output c k neg num den => [asmWr base i (outAddr c k) (bits32 neg num den)]
  | .zeroOut nch n =>
    (List.range nch).flatMap fun c => (List.range n).map fun k => asmWr base i (outAddr c k) 0
  | .rdOut c k => [.read (busAddr base i (outAddr c k)) 4]

/-- The machine with a program for its instance `i` loaded into the host from outside (log 5). -/
def State.withProgram (s : State) (i : Nat) (lines : List Line) : State :=
  { s with host := lines.flatMap (assemble s.cfg.base i) }

end Sys2Proof.Machine
end

