-- ==== Sys2Proof/Safety.lean ====
section
/-! DEFINITION. What claims about the Hilbert SSB core are stated in: the launch premises of
spec/70_reset_and_hazards.md R293, the end of a run (R292), the invariants of spec/10_state.md R43 with the others that
every step keeps, and the named properties of the numeric parameters. -/

namespace Sys2Proof.Machine

open Sys2Proof Sys2Proof.Config

/-! ## Launch premises (R293) -/

/-- An instance at power-on (spec/10_state.md R45): every element at its power-on value, and the command latch, which R45
leaves unspecified, at any value; so is the model's own `delay`. -/
def Instance.AtPowerOn (nmax : Nat) (u : Instance) : Prop :=
  u = { Instance.powerOn nmax with pcmd := u.pcmd, pfreq := u.pfreq, pgain := u.pgain, delay := u.delay }

/-- `PowerOn`: the state of spec/10_state.md R45, for any legal parameters (spec/00_scope.md R6) and any number of instances,
each of which starts in it (spec/60_exceptions.md R263). The host has read nothing yet, and its program is any. -/
def PowerOn (s : State) : Prop :=
  s.cfg.Ok ∧ s.reads = [] ∧ ∀ u ∈ s.instances, u.AtPowerOn s.cfg.nmax

/-- `Ready(nch)`: STATUS = 1 (INIT, and nothing else), and the channel count as given. -/
def Ready (nch : Nat) (s : State) : Prop := s.inst.status.word = 1#32 ∧ s.inst.nch = nch

/-- The elements of spec/10_state.md R44 that RESET sets, at their RESET values. -/
structure Instance.AtReset (nmax n : Nat) (u : Instance) : Prop where
  inputRing : u.inputRing = List.replicate 1024 0
  count : u.count = 768
  analytic : u.analytic = List.replicate 1024 C64.zero
  accum : u.accum = List.replicate 2048 C64.zero
  outStage : u.outStage = List.replicate 1024 C64.zero
  outdata : u.outdata = List.replicate nmax C64.zero
  rawOut : u.rawOut = List.replicate nmax 0
  fracFreq : u.fracFreq = 0
  inc : u.inc = 0
  sign : u.sign = 0
  current : u.current = List.replicate 16 0
  target : u.target = List.replicate 16 0
  nch : u.nch = n
  init : u.status.init = true
  busy : u.status.busy = false

/-- `Fresh(nch)`: `Ready(nch)` with every element of R44 at its RESET value. -/
def Fresh (nch : Nat) (s : State) : Prop := Ready nch s ∧ s.inst.AtReset s.cfg.nmax nch

/-- Two instances agree on what a push reads and writes of the overlap-add buffer between boundaries (spec/41_overlap_add.md
R130, R138); a boundary writes AnalyticBlock before it reads it (spec/10_state.md R41). -/
def Instance.SamePipeline (u v : Instance) : Prop :=
  v.inputRing = u.inputRing ∧ v.count = u.count ∧ v.accum = u.accum ∧ v.outStage = u.outStage

/-- `BuffersWritten(N, nch)`: the written bit of every buffer word a PROCESS reads is set. -/
def BuffersWritten (n nch : Nat) (s : State) : Prop :=
  (∀ k, k < n → (Memory.word s.inst.mem (inAddr k)).isSome) ∧
  (∀ c k, c < nch → k < n → (Memory.word s.inst.mem (outAddr c k)).isSome)

/-- The end of a run (R292): the host has issued its last transaction and no command is pending. -/
def Ended (s : State) : Prop := s.host = [] ∧ ∀ u ∈ s.instances, u.status.busy = false

/-! ## Invariants -/

/-- A binary64 in [0, 1), a zero being +0.0. -/
def InUnit (f : F64) : Prop := ∃ m, view64 f = .fin false m ∧ m < 2 ^ 1074

/-- A binary64 in [0, 2), a zero being +0.0. -/
def InTwo (f : F64) : Prop := ∃ m, view64 f = .fin false m ∧ m < 2 ^ 1075

/-- The offset of a buffer word (spec/20_memory.md R63). -/
def IsBufferWord (nmax a : Nat) : Prop :=
  (∃ k, k < nmax ∧ a = inAddr k) ∨ (∃ c k, c < 16 ∧ k < nmax ∧ a = outAddr c k)

/-- The invariants of an instance: spec/10_state.md R43 (1) to (5), the array sizes of R21 to R29, the range of nch (R33),
the consistency of STATUS (R31, R40; spec/60_exceptions.md R251, R257), finite gains (spec/44_host_commands.md R214), and
the buffer memory in its canonical form, holding whole words of the buffers only. -/
structure Instance.Inv (p : Params) (u : Instance) : Prop where
  ringLen : u.inputRing.length = 1024
  analyticLen : u.analytic.length = 1024
  accumLen : u.accum.length = 2048
  stageLen : u.outStage.length = 1024
  outdataLen : u.outdata.length = p.nmax
  rawLen : u.rawOut.length = p.nmax
  currentLen : u.current.length = 16
  targetLen : u.target.length = 16
  countLow : 768 ≤ u.count
  countHigh : u.count ≤ 1023
  accumTail : ∀ k, 1024 ≤ k → cget u.accum k = C64.zero
  stageTail : ∀ k, 256 ≤ k → cget u.outStage k = C64.zero
  freq : InUnit u.fracFreq
  phase : InTwo u.inc
  nchInit : u.status.init = true → 1 ≤ u.nch ∧ u.nch ≤ 16
  nchNone : u.status.init = false → u.nch = 0
  noError : u.status.err = false → u.status.errMulti = false ∧ u.status.errCode = 0
  someError : u.status.err = true → 1 ≤ u.status.errCode.toNat ∧ u.status.errCode.toNat ≤ 12
  fatalStuck : u.status.fatal = true → u.status.init = false ∧ u.status.busy = false ∧ p.initMayFail = true
  currentFinite : ∀ g ∈ u.current, isFinite32 g = true
  targetFinite : ∀ g ∈ u.target, isFinite32 g = true
  memWf : Memory.Wf u.mem
  memWords : ∀ a, (Memory.get u.mem a).isSome →
    IsBufferWord p.nmax (a - a % 4) ∧ (Memory.word u.mem (a - a % 4)).isSome

/-- The invariant of the machine: legal parameters, and the invariants of every instance. -/
def State.Inv (s : State) : Prop := s.cfg.Ok ∧ ∀ u ∈ s.instances, u.Inv s.cfg

/-! ## Named properties of the parameters -/

/-- Every real part of a block is finite. -/
def BlockFinite (b : List C64) : Prop := ∀ n, n < 1024 → isFinite64 (cget b n).re = true

/-- **RealPartExact** (spec/42_hilbert.md R164): HILBERT_IMPL gives back every real part of a finite block bit for bit. -/
def RealPartExact (p : Params) : Prop :=
  ∀ step k b n, BlockFinite b → n < 1024 → (cget (hilbert p step k b) n).re = (cget b n).re

/-- The taps `h[j]` of the quadrature kernel (spec/42_hilbert.md R165), as real numbers. -/
noncomputable def kernelTap (j : Nat) : ℝ := if j % 2 = 1 then 2 / 1024 * Real.cot (Real.pi * j / 1024) else 0

/-- `Im(Aexact[n])` of R162 (2), `-Σ_p h[(n-p) mod 1024]·a[p]`, in the unit the samples `a` are given in. -/
noncomputable def quadrature (a : Nat → Int) (n : Nat) : ℝ :=
  -∑ p ∈ Finset.range 1024, kernelTap ((n + 1024 - p) % 1024) * a p

/-- `x` is RNE64 of the real number of `v` smallest subnormals (spec/00_scope.md R8): its code, without the sign, lies
between the rounded codes of all fractions below and above `|v|`, and its sign is that of `v`, a zero being positive. -/
def RoundsTo (v : ℝ) (x : F64) : Prop :=
  ∃ neg code, x = BitVec.ofNat 64 (Fmt.withSign .b64 neg code) ∧ (neg = true ↔ v < 0) ∧
    ∀ num den : Nat, 0 < den →
      ((num : ℝ) ≤ |v| * den → Fmt.roundCode .b64 num den ≤ code) ∧
      (|v| * den ≤ (num : ℝ) → code ≤ Fmt.roundCode .b64 num den)

/-- A binary64 NaN. -/
def IsNaN64 (x : F64) : Prop := view64 x = .nan

/-- A binary32 that is +0.0 or -0.0. -/
def IsZero32 (x : F32) : Prop := ∃ s, view32 x = .fin s 0

end Sys2Proof.Machine
end

