-- ==== Sys2Proof/Certificates/Slice0/Obligations.lean ====
section
/-! DEFINITION. The statements for the provers, each from numbered rules of the spec. Helpers first, then the statements by
subject: encoding, stepping, the five commands, the pipeline, the numeric parameters, the host bus, the whole machine, and
the Hilbert step's numbers with the power-on states. -/

open Sys2Proof Sys2Proof.Machine Sys2Proof.Config

/-! ## Helpers -/

/-- The state after an engine step that is refused with a code: the error fields as R253 says, BUSY cleared, nothing else. -/
def Sys2Proof.Claims.refusedWith (code : BitVec 4) (s : State) : State :=
  { s with inst := { s.inst with status :=
      if s.inst.status.err then { s.inst.status with errMulti := true, busy := false }
      else { s.inst.status with err := true, errCode := code, busy := false } } }

/-- The state after an engine step that ends with the served instance `u`: BUSY cleared. -/
def Sys2Proof.Claims.doneWith (u : Instance) (s : State) : State :=
  { s with inst := { u with status := { u.status with busy := false } } }

/-- A latched frequency that SET_SHIFT up and down accept (R213): finite and in [0, 1), -0.0 included. -/
def Sys2Proof.Claims.FreqOk (f : F64) : Prop :=
  ∃ neg m, view64 f = .fin neg m ∧ (m = 0 ∨ (neg = false ∧ m < 2 ^ 1074))

/-- A finite gain (R214). -/
def Sys2Proof.Claims.GainOk (g : F32) : Prop := ∃ neg m, view32 g = .fin neg m

/-- The pushes since a RESET that left `u`, over all commands that follow it: `v n` is the instance just before push `n` of the
sample `x n`, which is push `idx n` of the PROCESS that draws under `step n`. Between two pushes anything but the pipeline may
change: a PROCESS ends, another command runs, the host writes, BUSY is set. -/
def Sys2Proof.Claims.PushesFrom (p : Params) (step idx : Nat → Nat) (x : Nat → F32) (u : Instance) (v : Nat → Instance) :
    Prop :=
  u.SamePipeline (v 0) ∧ ∀ n, (pushValue p (step n) (idx n) (x n) (v n)).SamePipeline (v (n + 1))

/-- The stored phases of R195: `v 0` is the stored `inc`, and `v (k+1)` is what MODULATE(k) stores. -/
def Sys2Proof.Claims.phaseSeq (step : Nat) (v0 f : F64) : Nat → F64
  | 0 => v0
  | k + 1 =>
    let v := Sys2Proof.Claims.phaseSeq step v0 f k
    let u := if ge64 v one64 then sub64 ⟨step, .wrap, k, 0⟩ v one64 else v
    add64 ⟨step, .advance, k, 0⟩ u f

/-- Word `a` of the space is reserved or beyond a buffer's end (spec/20_memory.md R63). -/
def Sys2Proof.Claims.Unmapped (nmax off : Nat) : Prop :=
  (0x38 ≤ off ∧ off ≤ 0x3F) ∨ (0xC0 ≤ off ∧ off ≤ 0x1FFF) ∨ (0x4000 ≤ off ∧ off ≤ 0xFFFF) ∨ 0x30000 ≤ off ∨
  (∃ k, nmax ≤ k ∧ k < 2048 ∧ inAddr k ≤ off ∧ off < inAddr k + 4) ∨
  (∃ c k, c < 16 ∧ nmax ≤ k ∧ k < 2048 ∧ outAddr c k ≤ off ∧ off < outAddr c k + 4)

/-- The elements of an instance that a PROCESS may write (R221), made equal: two instances agree outside them. -/
def Sys2Proof.Claims.SameButProcess (u v : Instance) : Prop :=
  v.fracFreq = u.fracFreq ∧ v.sign = u.sign ∧ v.target = u.target ∧ v.nch = u.nch ∧
  v.freqLo = u.freqLo ∧ v.freqHi = u.freqHi ∧ v.gainData = u.gainData ∧
  v.pcmd = u.pcmd ∧ v.pfreq = u.pfreq ∧ v.pgain = u.pgain ∧ v.delay = u.delay

open Sys2Proof.Claims

/-! ## Encoding -/

/-- R90 to R93: the decoder reads back every well-formed command from its word, with every operand. -/
def Obligations.DecodeOfEncode : Prop :=
  ∀ i : Instr, i.WellFormed → decode (encode i) = .cmd i

/-- R92, R94: a word that decodes to a command is that command's only word, and the command is well-formed. -/
def Obligations.EncodeOfDecode : Prop :=
  ∀ (w : Word) (i : Instr), decode w = .cmd i → i.WellFormed ∧ encode i = w

/-- R95: every word is exactly one of a command with reserved bits 0, an illegal opcode, or a legal opcode with a reserved
bit set; the reserved bits are those of R90 and R91. -/
def Obligations.DecodeTotal : Prop :=
  ∀ w : Word,
    let opc := (w.extractLsb' 28 4).toNat
    let reserved := w.extractLsb' 16 12 ≠ 0 ∨ (opc = 0 ∧ w.extractLsb' 0 16 ≠ 0) ∨ (opc = 1 ∧ w.extractLsb' 5 11 ≠ 0) ∨
      (opc = 2 ∧ w.extractLsb' 2 14 ≠ 0) ∨ (opc = 3 ∧ w.extractLsb' 5 11 ≠ 0)
    (decode w = .illegalOpcode ↔ 5 ≤ opc) ∧
    (decode w = .reservedBits ↔ opc < 5 ∧ reserved) ∧
    ((∃ i, decode w = .cmd i) ↔ opc < 5 ∧ ¬ reserved)

/-- R99: the worked encodings, the words that are refused, and the data encodings. -/
def Obligations.WorkedEncodings : Prop :=
  decode 0x00000000#32 = .cmd .nop ∧ decode 0x10000002#32 = .cmd (.reset 2) ∧
  decode 0x10000010#32 = .cmd (.reset 16) ∧ decode 0x20000000#32 = .cmd (.setShift .off) ∧
  decode 0x20000001#32 = .cmd (.setShift .up) ∧ decode 0x20000002#32 = .cmd (.setShift .down) ∧
  decode 0x3000000F#32 = .cmd (.setGain 15) ∧ decode 0x40000100#32 = .cmd (.process 256) ∧
  decode 0x40000400#32 = .cmd (.process 1024) ∧ decode 0x50000000#32 = .illegalOpcode ∧
  decode 0x10010001#32 = .reservedBits ∧ decode 0x10000021#32 = .reservedBits ∧
  decode 0x20000003#32 = .cmd (.setShift .reserved) ∧ decode 0x40000000#32 = .cmd (.process 0) ∧
  (∀ s, s.inst.status.init = true →
    exec (.setShift .reserved) s = .next (refusedWith 5 s) ∧ exec (.process 0) s = .next (refusedWith 9 s)) ∧
  rne64 false 100 48000 = 0x3F61111111111111#64 ∧ rne64 false 1 4 = 0x3FD0000000000000#64 ∧
  asmFreq 0 0 false 100 48000 = [.write 0x010 4 0x11111111#32, .write 0x014 4 0x3F611111#32] ∧
  asmFreq 0 0 false 1 4 = [.write 0x010 4 0x00000000#32, .write 0x014 4 0x3FD00000#32] ∧
  bits32 false 1 1 = 0x3F800000#32 ∧ bits32 false 1 2 = 0x3F000000#32 ∧
  assemble 0 0 (.cmd .nop) = [.write 0x008 4 0x00000000#32, .poll 0] ∧
  assemble 0 0 (.cmd (.reset 2)) = [.write 0x008 4 0x10000002#32, .poll 0] ∧
  assemble 0 0 (.cmd (.reset 16)) = [.write 0x008 4 0x10000010#32, .poll 0] ∧
  assemble 0 0 (.cmd (.setShift .off)) = [.write 0x008 4 0x20000000#32, .poll 0] ∧
  assemble 0 0 (.cmd (.setShift .up)) = [.write 0x008 4 0x20000001#32, .poll 0] ∧
  assemble 0 0 (.cmd (.setShift .down)) = [.write 0x008 4 0x20000002#32, .poll 0] ∧
  assemble 0 0 (.cmd (.setGain 15)) = [.write 0x008 4 0x3000000F#32, .poll 0] ∧
  assemble 0 0 (.cmd (.process 256)) = [.write 0x008 4 0x40000100#32, .poll 0] ∧
  assemble 0 0 (.cmd (.process 1024)) = [.write 0x008 4 0x40000400#32, .poll 0]

/-! ## Stepping -/

/-- What a step is. When the served instance's command is pending and its turn has come, and the latched word decodes to a
command, the step is that command's `exec`. An engine step comes exactly when some instance has a pending command whose turn
has come (its delay is over, or the host is done: the model's choice of the moment is log 6); it is then the engine step of
such an instance, which the machine turns to with nothing else changed, and that is `exec` of the decoded command again. No
engine step being due, the step is the host's next transaction. -/
def Obligations.StepRunsDecodedCommand : Prop :=
  (∀ (s : State) (i : Instr), s.inst.status.busy = true → (s.inst.delay = 0 ∨ s.host = []) →
    decode s.inst.pcmd = .cmd i → step s = exec i s) ∧
  (∀ s : State, s.nextEngine = none ↔
    ∀ u ∈ s.instances, ¬ (u.status.busy = true ∧ (u.delay = 0 ∨ s.host = []))) ∧
  (∀ s s' : State, s.nextEngine = some s' →
    step s = engineStep s' ∧ (∀ i, decode s'.inst.pcmd = .cmd i → step s = exec i s') ∧
    s'.inst.status.busy = true ∧ (s'.inst.delay = 0 ∨ s'.host = []) ∧ s'.instances = s.instances ∧
    s'.cfg = s.cfg ∧ s'.host = s.host ∧ s'.reads = s.reads ∧ s'.draws = s.draws) ∧
  ∀ (s : State) (op : HostOp) (rest : List HostOp), s.nextEngine = none → s.host = op :: rest →
    step s = hostStep op rest s

/-- The step after `withFetchWord` runs exactly the word given to it (log 19), accepted as R210's CMD_WRITE accepts one. -/
def Obligations.FetchWordRunsNext : Prop :=
  ∀ (s : State) (w : Word) (i : Instr), decode w = .cmd i →
    step (s.withFetchWord 32 w.toNat) = exec i (s.withFetchWord 32 w.toNat) ∧
    (s.withFetchWord 32 w.toNat).inst.pcmd = w ∧
    (s.withFetchWord 32 w.toNat).inst.pfreq = s.inst.freqHi ++ s.inst.freqLo ∧
    (s.withFetchWord 32 w.toNat).inst.pgain = s.inst.gainData

/-- R94, R254: when the served instance's command is pending and its turn has come (the model's choice of the moment is
log 6), an illegal opcode is refused with code 1 before anything else, and every reserved bit of a legal opcode (R90: RSV
27:16; R91: OPD 15:0 of NOP, 15:5 of RESET and SET_GAIN, 15:2 of SET_SHIFT) with code 2, INIT or not, changing only
STATUS. -/
def Obligations.EngineRefusesBadWords : Prop :=
  ∀ s : State, s.inst.status.busy = true → (s.inst.delay = 0 ∨ s.host = []) →
    let w := s.inst.pcmd
    let opc := (w.extractLsb' 28 4).toNat
    (5 ≤ opc → step s = .next (refusedWith 1 s)) ∧
    (opc < 5 → w.extractLsb' 16 12 ≠ 0 → step s = .next (refusedWith 2 s)) ∧
    (opc = 0 → w.extractLsb' 0 16 ≠ 0 → step s = .next (refusedWith 2 s)) ∧
    (opc = 1 → w.extractLsb' 5 11 ≠ 0 → step s = .next (refusedWith 2 s)) ∧
    (opc = 2 → w.extractLsb' 2 14 ≠ 0 → step s = .next (refusedWith 2 s)) ∧
    (opc = 3 → w.extractLsb' 5 11 ≠ 0 → step s = .next (refusedWith 2 s))

/-- R210, R220: an engine step that gives a next state clears BUSY. -/
def Obligations.EngineStepClearsBusy : Prop :=
  ∀ s t : State, engineStep s = .next t → t.inst.status.busy = false

/-- R220 (fairness by a drawn finite delay, log 6): while no command's turn has come, a host transaction leaves the command
pending in each instance latched and brings its turn one nearer. -/
def Obligations.PendingCommandComesNearer : Prop :=
  ∀ (s t : State) (i : Nat) (u : Instance), s.nextEngine = none → s.instances[i]? = some u → u.status.busy = true →
    step s = .next t →
    ∃ v, t.instances[i]? = some v ∧ v.status.busy = true ∧ v.delay + 1 = u.delay ∧
      v.pcmd = u.pcmd ∧ v.pfreq = u.pfreq ∧ v.pgain = u.pgain

/-- R265: with no command pending and the host done, a step keeps the whole state. -/
def Obligations.IdleKeepsState : Prop :=
  ∀ s : State, Ended s → step s = .next s

/-! ## NOP, RESET -/

/-- R211: NOP changes nothing but BUSY, before INIT too, and every other word of opcode 0 is refused with code 2. -/
def Obligations.NopDoesNothing : Prop :=
  ∀ s : State,
    exec .nop s = .next (doneWith s.inst s) ∧
    (s.inst.pcmd = 0 → engineStep s = exec .nop s) ∧
    ((s.inst.pcmd.extractLsb' 28 4).toNat = 0 → s.inst.pcmd ≠ 0 → engineStep s = .next (refusedWith 2 s))

/-- R44: what a successful RESET leaves in every state element, and that it succeeds for 1..16 channels when no
initialization failure is drawn. -/
def Obligations.ResetLeavesResetValues : Prop :=
  ∀ (s : State) (m : Nat), 1 ≤ m → m ≤ 16 → resetFails s = false →
    ∃ t, exec (.reset m) s = .next t ∧ t.inst.AtReset s.cfg.nmax m ∧
      t.inst.status.err = s.inst.status.err ∧ t.inst.status.errMulti = s.inst.status.errMulti ∧
      t.inst.status.errCode = s.inst.status.errCode ∧ t.inst.status.fatal = s.inst.status.fatal ∧
      t.inst.freqLo = s.inst.freqLo ∧ t.inst.freqHi = s.inst.freqHi ∧ t.inst.gainData = s.inst.gainData ∧
      t.inst.pcmd = s.inst.pcmd ∧ t.inst.pfreq = s.inst.pfreq ∧ t.inst.pgain = s.inst.pgain ∧
      t.inst.mem = s.inst.mem ∧ t.cfg = s.cfg ∧ t.before = s.before ∧ t.after = s.after ∧
      t.host = s.host ∧ t.reads = s.reads

/-- R212, R257: RESET with 0 or more than 16 channels is refused with code 4; with INIT_MAY_FAIL and before the first
success a Boolean is drawn, and where it says failure, FATAL is set, code 12 recorded and no other element of the spec
changed; otherwise no failure is drawn. Which draw it is and its bit are the model's choice (log 22), and so is the count
of draws, which is no element of the spec (log 7). -/
def Obligations.ResetRefusals : Prop :=
  ∀ (s : State) (m : Nat),
    ((m = 0 ∨ 16 < m) → exec (.reset m) s = .next (refusedWith 4 s)) ∧
    (1 ≤ m → m ≤ 16 → s.cfg.initMayFail = true → s.inst.status.init = false →
      ∃ t, exec (.reset m) s = .next t ∧
        if (freeBits ⟨s.draws, .initFail, 0, 0⟩).getLsbD 0 then
          t = refusedWith 12
            { s with draws := s.draws + 1, inst := { s.inst with status := { s.inst.status with fatal := true } } }
        else t.inst.AtReset s.cfg.nmax m) ∧
    ((s.cfg.initMayFail = false ∨ s.inst.status.init = true) → resetFails s = false)

/-- R223: successful RESETs with the same channel count leave every element of R44 with the same value, whatever the
states before them (for the same parameters). -/
def Obligations.ResetForgetsThePast : Prop :=
  ∀ (s₁ s₂ t₁ t₂ : State) (m : Nat), s₁.cfg = s₂.cfg → exec (.reset m) s₁ = .next t₁ → exec (.reset m) s₂ = .next t₂ →
    1 ≤ m → m ≤ 16 → resetFails s₁ = false → resetFails s₂ = false →
    t₁.inst =
      { t₂.inst with
        status := { t₂.inst.status with
          err := s₁.inst.status.err, errMulti := s₁.inst.status.errMulti, errCode := s₁.inst.status.errCode,
          fatal := s₁.inst.status.fatal }
        freqLo := s₁.inst.freqLo, freqHi := s₁.inst.freqHi, gainData := s₁.inst.gainData
        pcmd := s₁.inst.pcmd, pfreq := s₁.inst.pfreq, pgain := s₁.inst.pgain
        mem := s₁.inst.mem, delay := s₁.inst.delay }

/-! ## SET_SHIFT, SET_GAIN -/

/-- R213: SET_SHIFT off zeroes `frac_freq` and `inc`, keeps the sign and checks no frequency; up and down store an accepted
frequency (a zero as +0.0) and the sign, and keep `inc`. Everything else is unchanged. -/
def Obligations.SetShiftCompletes : Prop :=
  ∀ s : State, s.inst.status.init = true →
    exec (.setShift .off) s = .next (doneWith { s.inst with fracFreq := 0, inc := 0 } s) ∧
    (FreqOk s.inst.pfreq → (∃ neg, view64 s.inst.pfreq = .fin neg 0) →
      exec (.setShift .up) s = .next (doneWith { s.inst with fracFreq := 0, sign := 0 } s) ∧
      exec (.setShift .down) s = .next (doneWith { s.inst with fracFreq := 0, sign := 1 } s)) ∧
    (FreqOk s.inst.pfreq → (¬ ∃ neg, view64 s.inst.pfreq = .fin neg 0) →
      exec (.setShift .up) s = .next (doneWith { s.inst with fracFreq := s.inst.pfreq, sign := 0 } s) ∧
      exec (.setShift .down) s = .next (doneWith { s.inst with fracFreq := s.inst.pfreq, sign := 1 } s))

/-- R213, R254: SET_SHIFT's refusals, in order: code 3 before INIT, code 5 for DIR 3 whatever the frequency, code 6 for a
frequency that is NaN, infinite, below 0 or at least 1. -/
def Obligations.SetShiftRefusals : Prop :=
  ∀ s : State,
    (s.inst.status.init = false → ∀ dir, exec (.setShift dir) s = .next (refusedWith 3 s)) ∧
    (s.inst.status.init = true → exec (.setShift .reserved) s = .next (refusedWith 5 s)) ∧
    (s.inst.status.init = true → ¬ FreqOk s.inst.pfreq →
      exec (.setShift .up) s = .next (refusedWith 6 s) ∧ exec (.setShift .down) s = .next (refusedWith 6 s))

/-- R214: SET_GAIN stores a finite latched gain, as it is, in the target of an active channel, and changes nothing else:
`current` is unchanged. -/
def Obligations.SetGainCompletes : Prop :=
  ∀ (s : State) (ch : Nat), s.inst.status.init = true → ch < s.inst.nch → GainOk s.inst.pgain →
    exec (.setGain ch) s = .next (doneWith { s.inst with target := s.inst.target.set ch s.inst.pgain } s)

/-- R214, R254: SET_GAIN's refusals, in order: code 3 before INIT, code 7 for an inactive channel, code 8 for a gain that
is NaN or infinite. -/
def Obligations.SetGainRefusals : Prop :=
  ∀ (s : State) (ch : Nat),
    (s.inst.status.init = false → exec (.setGain ch) s = .next (refusedWith 3 s)) ∧
    (s.inst.status.init = true → s.inst.nch ≤ ch → exec (.setGain ch) s = .next (refusedWith 7 s)) ∧
    (s.inst.status.init = true → ch < s.inst.nch → ¬ GainOk s.inst.pgain →
      exec (.setGain ch) s = .next (refusedWith 8 s))

/-! ## PROCESS -/

/-- R215, R221: PROCESS completes for a legal length when the buffer words it reads were written. It pushes the words of
IN_BUF in order (R130), leaves the push phase's cursor, ring, analytic block, accumulator, output stage and Outdata, and
changes only the elements R221 lists: of `current` the active channels, of Outdata and RawOut the first `n` elements, of the
buffers the words `OUT_BUF[c][k]` with `c < nch` and `k < n`, of STATUS the bit BUSY. -/
def Obligations.ProcessCompletes : Prop :=
  ∀ (s : State) (n : Nat), s.inst.status.init = true → 1 ≤ n → n ≤ s.cfg.nmax → BuffersWritten n s.inst.nch s →
    let pushed (k : Nat) := pushPhase s.cfg s.draws k s.inst
    pushed 0 = s.inst ∧
    (∀ k, k < n → ∃ w, Memory.word s.inst.mem (inAddr k) = some w ∧
      pushed (k + 1) = pushValue s.cfg s.draws k w (pushed k)) ∧
    ∃ t, exec (.process n) s = .next t ∧ SameButProcess s.inst t.inst ∧
      t.inst.status = { s.inst.status with busy := false } ∧
      t.cfg = s.cfg ∧ t.before = s.before ∧ t.after = s.after ∧ t.host = s.host ∧ t.reads = s.reads ∧
      t.inst.count = (pushed n).count ∧ t.inst.inputRing = (pushed n).inputRing ∧
      t.inst.analytic = (pushed n).analytic ∧ t.inst.accum = (pushed n).accum ∧
      t.inst.outStage = (pushed n).outStage ∧ t.inst.outdata = (pushed n).outdata ∧
      (∀ c, s.inst.nch ≤ c → t.inst.current.getD c 0 = s.inst.current.getD c 0) ∧
      (∀ k, n ≤ k → cget t.inst.outdata k = cget s.inst.outdata k ∧
        t.inst.rawOut.getD k 0 = s.inst.rawOut.getD k 0) ∧
      (∀ a, (¬ ∃ c k, c < s.inst.nch ∧ k < n ∧ outAddr c k ≤ a ∧ a ≤ outAddr c k + 3) →
        Memory.get t.inst.mem a = Memory.get s.inst.mem a)

/-- R215, R254 and spec/10_state.md R42: code 3 before INIT, code 9 for length 0 or above NMAX, and the model fault
UnwrittenBuffer when a word the block reads was never written. -/
def Obligations.ProcessRefusals : Prop :=
  ∀ (s : State) (n : Nat),
    (s.inst.status.init = false → exec (.process n) s = .next (refusedWith 3 s)) ∧
    (s.inst.status.init = true → (n = 0 ∨ s.cfg.nmax < n) → exec (.process n) s = .next (refusedWith 9 s)) ∧
    (s.inst.status.init = true → 1 ≤ n → n ≤ s.cfg.nmax → ¬ BuffersWritten n s.inst.nch s →
      exec (.process n) s = .fault .unwrittenBuffer)

/-- R139: the push phase of length `n` runs `floor((c0 - 768 + n) / 256)` boundaries (the pushes that begin with count
1023) and leaves `count = 768 + ((c0 - 768 + n) mod 256)`. -/
def Obligations.PushPhaseCount : Prop :=
  ∀ (p : Params) (step n : Nat) (u : Instance), 768 ≤ u.count → u.count ≤ 1023 →
    (pushPhase p step n u).count = 768 + (u.count - 768 + n) % 256 ∧
    ((List.range n).filter fun k => (pushPhase p step k u).count == 1023).length = (u.count - 768 + n) / 256

/-- R189, R191: after a PROCESS, `current[c]` is `target[c]` for every active channel and unchanged for the others. -/
def Obligations.ProcessGains : Prop :=
  ∀ (s t : State) (n : Nat), exec (.process n) s = .next t → s.inst.status.init = true → 1 ≤ n → n ≤ s.cfg.nmax →
    s.inst.current.length = 16 → s.inst.nch ≤ 16 →
    ∀ c, t.inst.current.getD c 0 = if c < s.inst.nch then s.inst.target.getD c 0 else s.inst.current.getD c 0

/-- R187, R188, R191: after a PROCESS, each output word of an active channel is the old word plus the modulator's sample
times the crossfaded gain, each operation rounded once in binary32, and every other byte of the buffers reads as
before. -/
def Obligations.ProcessAccumulates : Prop :=
  ∀ (s t : State) (n : Nat), exec (.process n) s = .next t → s.inst.status.init = true → 1 ≤ n → n ≤ s.cfg.nmax →
    s.cfg.nmax ≤ 2048 → Memory.Wf s.inst.mem →
    (∀ c k old, c < s.inst.nch → k < n → Memory.word s.inst.mem (outAddr c k) = some old →
      let cu := s.inst.current.getD c 0
      let tg := s.inst.target.getD c 0
      let d := sub32 ⟨s.draws, .mixDelta, c, 0⟩ tg cu
      let g := if k < min n 512 then
          add32 ⟨s.draws, .mixGain, c, k⟩ cu (mul32 ⟨s.draws, .mixRamp, c, k⟩ d (rne32 k (min n 512)))
        else tg
      Memory.word t.inst.mem (outAddr c k) =
        some (add32 ⟨s.draws, .mixAdd, c, k⟩ old (mul32 ⟨s.draws, .mixMul, c, k⟩ (t.inst.rawOut.getD k 0) g))) ∧
    (∀ a, (¬ ∃ c k, c < s.inst.nch ∧ k < n ∧ outAddr c k ≤ a ∧ a ≤ outAddr c k + 3) →
      Memory.get t.inst.mem a = Memory.get s.inst.mem a)

/-- R180, R195: a PROCESS leaves `inc` at the end of the phase sequence, and each modulator sample is the rotation of its
delayed analytic sample by the wrapped phase of its place. -/
def Obligations.ProcessModulates : Prop :=
  ∀ (s t : State) (n : Nat), exec (.process n) s = .next t → s.inst.status.init = true → 1 ≤ n → n ≤ s.cfg.nmax →
    s.inst.rawOut.length = s.cfg.nmax →
    t.inst.inc = phaseSeq s.draws s.inst.inc s.inst.fracFreq n ∧
    ∀ k, k < n →
      let v := phaseSeq s.draws s.inst.inc s.inst.fracFreq k
      let u := if ge64 v one64 then sub64 ⟨s.draws, .wrap, k, 0⟩ v one64 else v
      let phase := mul64 ⟨s.draws, .phase, k, 0⟩ twoPi64 u
      let cs := cos64 s.cfg.trig ⟨s.draws, .cosine, k, 0⟩ phase
      let sn := sin64 s.cfg.trig ⟨s.draws, .sine, k, 0⟩ phase
      let sg := if s.inst.sign = 0 then one64 else minusOne64
      let y := cget t.inst.outdata k
      let t1 := mul64 ⟨s.draws, .modRe, k, 0⟩ y.re cs
      let t2 := mul64 ⟨s.draws, .modIm, k, 0⟩ (mul64 ⟨s.draws, .modSign, k, 0⟩ sg y.im) sn
      t.inst.rawOut.getD k 0 = to32 ⟨s.draws, .modNarrow, k, 0⟩ (add64 ⟨s.draws, .modAdd, k, 0⟩ t1 t2)

/-- R181: modulating each sample right after its push gives the same instance as modulating after the last push. -/
def Obligations.ModulateCommutesWithPush : Prop :=
  ∀ (p : Params) (step n : Nat) (u : Instance),
    modulatePhase p step n (pushPhase p step n u) = forUp (fun k v => modulate p step k (push p step k v)) n u

/-- R23, R41: the value AnalyticBlock holds between commands has no effect on any other element a PROCESS leaves. -/
def Obligations.AnalyticLeftoverIsDead : Prop :=
  ∀ (p : Params) (step n : Nat) (u : Instance) (a : List C64),
    ∃ b, processBlock p step n { u with analytic := a } = { processBlock p step n u with analytic := b }

/-! ## The pipeline -/

/-- R144: a push outside a boundary changes only `InputRing[count]`, `Outdata[k]` and `count`; a boundary changes only
`count`, AnalyticBlock, OverlapAccumulator, `OutputStage[0..255]` and `InputRing[0..767]`. -/
def Obligations.PushFrame : Prop :=
  ∀ (p : Params) (step k : Nat) (x : F32) (u : Instance),
    u.inputRing.length = 1024 → u.outStage.length = 1024 → u.count ≤ 1023 →
    (u.count ≠ 1023 → pushValue p step k x u =
      { u with
        inputRing := u.inputRing.set u.count x
        outdata := u.outdata.set k (cget u.outStage (u.count - 768))
        count := u.count + 1 }) ∧
    ∃ an ac os ir, boundary p step k u =
        { u with count := 768, analytic := an, accum := ac, outStage := os, inputRing := ir } ∧
      (∀ j, 256 ≤ j → cget os j = cget u.outStage j) ∧
      (∀ j, 768 ≤ j → ir.getD j 0 = u.inputRing.getD j 0)

/-- R131: BOUNDARY runs exactly when a push makes the cursor 1024, and that is, of the pushes since the last RESET, on push
`n` exactly when `n mod 256 = 255`. -/
def Obligations.BoundaryEvery256Pushes : Prop :=
  ∀ (p : Params) (step idx : Nat → Nat) (x : Nat → F32) (u : Instance) (v : Nat → Instance) (n : Nat),
    PushesFrom p step idx x u v → u.count = 768 →
    let pushed := pushSample (idx n) (x n) (v n)
    (pushed.count = 1024 ↔ n % 256 = 255) ∧
    pushValue p (step n) (idx n) (x n) (v n) =
      if pushed.count = 1024 then boundary p (step n) (idx n) pushed else pushed

/-- R132 to R137 and R43 (2): a boundary's analytic block is HILBERT_IMPL of the windowed ring; ACCUMULATE adds to each of
the first 1024 accumulator entries half the window word times the analytic entry, both components alike; entries 0..255 of
that go to the output stage, entry `j + 256` moves to `j` with zero fill, so that the accumulator's upper half stays zero,
and ring entry `j + 256` moves to `j`. -/
def Obligations.BoundaryShifts : Prop :=
  ∀ (p : Params) (step k : Nat) (u : Instance), u.inputRing.length = 1024 →
    (∀ j, 1024 ≤ j → cget u.accum j = C64.zero) →
    let v := boundary p step k u
    let sc (j : Nat) := mul64 ⟨step, .accScale, k, j⟩ half64 (wread p.window j)
    let entry (j : Nat) : C64 :=
      ⟨add64 ⟨step, .accReAdd, k, j⟩ (cget u.accum j).re
          (mul64 ⟨step, .accReMul, k, j⟩ (sc j) (cget v.analytic j).re),
        add64 ⟨step, .accImAdd, k, j⟩ (cget u.accum j).im
          (mul64 ⟨step, .accImMul, k, j⟩ (sc j) (cget v.analytic j).im)⟩
    v.analytic = hilbert p step k (tabulate 1024 fun j =>
      ⟨mul64 ⟨step, .windowMul, k, j⟩ (to64 ⟨step, .windowWiden, k, j⟩ (u.inputRing.getD j 0)) (wread p.window j), 0⟩) ∧
    (∀ j, j < 256 → cget v.outStage j = entry j) ∧
    (∀ j, j < 768 → cget v.accum j = entry (j + 256)) ∧
    (∀ j, 768 ≤ j → cget v.accum j = C64.zero) ∧
    (∀ j, j < 768 → v.inputRing.getD j 0 = u.inputRing.getD (j + 256) 0)

/-- R146: counting the pushes since the last RESET over all commands, just before the boundary of push `256 b + 255` the ring
holds, at position `p`, the sample of push `256 b + p - 768`, and the reset zero where there is none. -/
def Obligations.RingAlignment : Prop :=
  ∀ (p : Params) (step idx : Nat → Nat) (m : Nat) (x : Nat → F32) (u : Instance) (v : Nat → Instance) (b j : Nat),
    u.AtReset p.nmax m → PushesFrom p step idx x u v → j < 1024 →
    let n := 256 * b + 255
    (pushSample (idx n) (x n) (v n)).inputRing.getD j 0 = if 256 * b + j < 768 then 0 else x (256 * b + j - 768)

/-- R140: with RealPartExact and finite samples, counting the pushes since the last RESET over all commands, the real part that
push `n` reads is the sum of the four windowed contributions of the sample of push `n - 1024`, in the order of the boundaries,
and +0.0 for `n < 1024`: the in-phase path delays by 1024 pushes. -/
def Obligations.InPhaseDelayAndGain : Prop :=
  ∀ (p : Params) (step idx : Nat → Nat) (ch : Nat) (x : Nat → F32) (u : Instance) (v : Nat → Instance) (n : Nat),
    RealPartExact p → u.AtReset p.nmax ch → PushesFrom p step idx x u v → (∀ m, isFinite32 (x m) = true) →
    let re := (cget (v n).outStage ((v n).count - 768)).re
    (n < 1024 → re = 0) ∧
    (1024 ≤ n →
      let q := n % 256
      let draw (site : Site) (i pos : Nat) : Draw :=
        let boundaryPush := 256 * (n / 256 - 4 + i) + 255
        ⟨step boundaryPush, site, idx boundaryPush, pos⟩
      let term (i pos : Nat) :=
        mul64 (draw .accReMul i pos) (mul64 (draw .accScale i pos) half64 (wread p.window pos))
          (mul64 (draw .windowMul i pos) (to64 (draw .windowWiden i pos) (x (n - 1024))) (wread p.window pos))
      let plus (i pos : Nat) (a : F64) := add64 (draw .accReAdd i pos) a (term i pos)
      re = plus 3 q (plus 2 (q + 256) (plus 1 (q + 512) (plus 0 (q + 768) 0))))

/-- R186: with the phase at +0.0 (the off path), a finite delayed sample comes out as its real part narrowed to binary32,
except that a zero may change its sign. -/
def Obligations.OffPathPassesThrough : Prop :=
  ∀ (p : Params) (step k : Nat) (sign : BitVec 1) (y : C64), isFinite64 y.re = true → isFinite64 y.im = true →
    rotate p step k sign 0 y = to32 ⟨step, .modNarrow, k, 0⟩ y.re ∨
    (IsZero32 (rotate p step k sign 0 y) ∧ IsZero32 (to32 ⟨step, .modNarrow, k, 0⟩ y.re))

/-! ## The numbers -/

/-- R8: rounding gives a nearest value of the format: where the result is finite, no finite encoding is nearer to
`num/den`, and between two equally near the even encoding is taken. It overflows to infinity exactly from the middle between
the greatest finite value and the next power of two: `(2^25 - 1)·2^252` smallest subnormals of binary32, and
`(2^54 - 1)·2^2044` of binary64. -/
def Obligations.RoundingIsNearestEven : Prop :=
  (∀ (f : Fmt) (num den c : Nat), f = .b32 ∨ f = .b64 → 0 < den → Fmt.roundCode f num den < Fmt.infCode f →
    c < Fmt.infCode f → c ≠ Fmt.roundCode f num den →
    let r := Fmt.roundCode f num den
    let err (e : Nat) : Nat := ((Fmt.magOf f e * den : Nat) - (num : Int)).natAbs
    err r ≤ err c ∧ (err r = err c → r % 2 = 0)) ∧
  (∀ num den : Nat, 0 < den →
    (Fmt.roundCode .b32 num den = Fmt.infCode .b32 ↔ (2 ^ 25 - 1) * 2 ^ 252 * den ≤ num) ∧
    (Fmt.roundCode .b64 num den = Fmt.infCode .b64 ↔ (2 ^ 54 - 1) * 2 ^ 2044 * den ≤ num))

/-- R8: widening a finite binary32 is exact, and narrowing it back gives the same bits. -/
def Obligations.WideningIsExact : Prop :=
  ∀ (d e : Draw) (x : F32) (neg : Bool) (m : Nat), view32 x = .fin neg m →
    view64 (to64 d x) = .fin neg (m * 2 ^ 925) ∧ to32 e (to64 d x) = x

/-- R121: every table is symmetric bit for bit, its words are finite, not negative zero and in [0, 1], its end words are
+0.0, and word `i` in 1..511 is within 2^-50 of sin²(π·i/1023). (`int64Of` is in smallest subnormals, 2^-1074.) -/
def Obligations.WindowSymmetry : Prop :=
  ∀ (p : Impl) (i : Nat), i < 1024 →
    wread p i = wread p (1023 - i) ∧ wread p 0 = 0 ∧ wread p 1023 = 0 ∧
    (∃ m, view64 (wread p i) = .fin false m ∧ m ≤ 2 ^ 1074) ∧
    (1 ≤ i → i ≤ 511 →
      |(int64Of (wread p i) : ℝ) - 2 ^ 1074 * Real.sin (Real.pi * i / 1023) ^ 2| ≤ 2 ^ 1024)

/-- R122: words of the reference table (spec/95_test_vectors.md 2.1). -/
def Obligations.WindowVectors : Prop :=
  wread .reference 1 = 0x3EE3C71B09C1C2F4#64 ∧ wread .reference 255 = 0x3FDFDA43A0A69455#64 ∧
  wread .reference 256 = 0x3FE0064A112FF0DA#64 ∧ wread .reference 512 = 0x3FEFFFFB0E3879FB#64

/-- R183: every TRIG_IMPL gives exactly 1.0 and +0.0 at +0.0, and on [0, 2·TWO_PI64) it is a function of the argument alone,
within 2^-52 of the real cosine and sine, with both values in [-1, 1] (`int64Of` is in smallest subnormals, 2^-1074); and the
default's values at π64/2 and π64/4 are those of spec/95_test_vectors.md 2.4.3. -/
def Obligations.TrigAtZero : Prop :=
  (∀ (p : Impl) (d : Draw), cos64 p d 0 = one64 ∧ sin64 p d 0 = 0 ∧
    ∀ (x : F64) (neg : Bool) (m : Nat), view64 x = .fin neg m → (neg = false ∨ m = 0) → m < 2 * (int64Of twoPi64).toNat →
      (∀ e, cos64 p e x = cos64 p d x ∧ sin64 p e x = sin64 p d x) ∧
      isFinite64 (cos64 p d x) = true ∧ isFinite64 (sin64 p d x) = true ∧
      (int64Of (cos64 p d x)).natAbs ≤ 2 ^ 1074 ∧ (int64Of (sin64 p d x)).natAbs ≤ 2 ^ 1074 ∧
      |(int64Of (cos64 p d x) : ℝ) - 2 ^ 1074 * Real.cos (m / 2 ^ 1074)| ≤ 2 ^ 1022 ∧
      |(int64Of (sin64 p d x) : ℝ) - 2 ^ 1074 * Real.sin (m / 2 ^ 1074)| ≤ 2 ^ 1022) ∧
  ∀ d : Draw,
    cos64 .reference d 0x3FF921FB54442D18#64 = 0x3C91A62633145C07#64 ∧
    sin64 .reference d 0x3FF921FB54442D18#64 = one64 ∧
    cos64 .reference d 0x3FE921FB54442D18#64 = 0x3FE6A09E667F3BCD#64 ∧
    sin64 .reference d 0x3FE921FB54442D18#64 = 0x3FE6A09E667F3BCC#64

/-- R167: a NaN or infinite real part makes every one of the 2048 output components a NaN with a drawn sign and payload, for
every implementation. -/
def Obligations.NonFiniteBlockGivesNaN : Prop :=
  ∀ (p : Params) (step k : Nat) (b : List C64), (∃ n, n < 1024 ∧ isFinite64 (cget b n).re = false) →
    ∀ n, n < 1024 → IsNaN64 (cget (hilbert p step k b) n).re ∧ IsNaN64 (cget (hilbert p step k b) n).im ∧
      (cget (hilbert p step k b) n).re = nan64 ⟨step, .hilbertRe, k, n⟩ ∧
      (cget (hilbert p step k b) n).im = nan64 ⟨step, .hilbertIm, k, n⟩

/-- R163, R168: the reference function gives a constant block, and an alternating one, back with imaginary part +0.0. -/
def Obligations.DcAndNyquistPass : Prop :=
  ∀ (p : Params) (step k : Nat) (c d : F64), p.hilbert = .reference → isFinite64 c = true → isFinite64 d = true →
    ∀ n, n < 1024 →
      cget (hilbert p step k (tabulate 1024 fun j => ⟨if j % 2 = 0 then c else d, 0⟩)) n =
        ⟨if n % 2 = 0 then c else d, 0⟩

/-- R164: the reference function has RealPartExact. -/
def Obligations.ReferenceRealPartExact : Prop :=
  ∀ p : Params, p.hilbert = .reference → RealPartExact p

/-! ## The host bus -/

/-- R63, R67: a bus error is the answer to a size other than 4, a misaligned address, a reserved offset and a buffer index at
or above NMAX, and (from the map of R63) to nothing else. It is a model fault and carries no state (log 18). -/
def Obligations.BusErrorsExactly : Prop :=
  ∀ (nmax step off size : Nat) (v : Word) (u : Instance), nmax ≤ 2048 → off < 0x40000 →
    ((size ≠ 4 ∨ off % 4 ≠ 0 ∨ Unmapped nmax off) ↔ busRead nmax step off size u = .error .busError) ∧
    ((size ≠ 4 ∨ off % 4 ≠ 0 ∨ Unmapped nmax off) ↔ busWrite nmax step off size v u = .error .busError)

/-- R218: the readback registers read their values while BUSY = 0 and one drawn value while BUSY = 1, ID and INFO their
constants and CMD 0 at any time; writes to the read-only ones are ignored. -/
def Obligations.ReadbackReads : Prop :=
  ∀ (nmax step c : Nat) (v : Word) (u : Instance), c < 16 →
    let value (x : Word) : Word := if u.status.busy then (freeBits ⟨step, .busRead, 0, 0⟩).setWidth 32 else x
    busRead nmax step 0x000 4 u = .ok 0x31485346#32 ∧
    busRead nmax step 0x004 4 u = .ok (0#11 ++ 15#5 ++ BitVec.ofNat 16 nmax) ∧
    busRead nmax step 0x008 4 u = .ok 0 ∧
    busRead nmax step 0x01C 4 u = .ok (value (BitVec.ofNat 32 u.nch)) ∧
    busRead nmax step 0x020 4 u = .ok (value (BitVec.ofNat 32 u.count)) ∧
    busRead nmax step 0x024 4 u = .ok (value (u.sign.setWidth 32)) ∧
    busRead nmax step 0x028 4 u = .ok (value (u.fracFreq.extractLsb' 0 32)) ∧
    busRead nmax step 0x02C 4 u = .ok (value (u.fracFreq.extractLsb' 32 32)) ∧
    busRead nmax step 0x030 4 u = .ok (value (u.inc.extractLsb' 0 32)) ∧
    busRead nmax step 0x034 4 u = .ok (value (u.inc.extractLsb' 32 32)) ∧
    busRead nmax step (0x040 + 4 * c) 4 u = .ok (value (u.current.getD c 0)) ∧
    busRead nmax step (0x080 + 4 * c) 4 u = .ok (value (u.target.getD c 0)) ∧
    (∀ off, off ∈ [0x000, 0x004, 0x01C, 0x020, 0x024, 0x028, 0x02C, 0x030, 0x034, 0x040 + 4 * c, 0x080 + 4 * c] →
      busWrite nmax step off 4 v u = .ok u)

/-- R216: a staging write stores the word, at any time, and has no other effect; a read returns the stored word. -/
def Obligations.StagingTransactions : Prop :=
  ∀ (nmax step : Nat) (v : Word) (u : Instance),
    busWrite nmax step 0x010 4 v u = .ok { u with freqLo := v } ∧
    busWrite nmax step 0x014 4 v u = .ok { u with freqHi := v } ∧
    busWrite nmax step 0x018 4 v u = .ok { u with gainData := v } ∧
    busRead nmax step 0x010 4 u = .ok u.freqLo ∧ busRead nmax step 0x014 4 u = .ok u.freqHi ∧
    busRead nmax step 0x018 4 u = .ok u.gainData

/-- R217: a STATUS write with bit 2 set clears ERR, ERR_MULTI and ERRCODE, and every other bit of it is ignored, while
BUSY = 1 too; an error recorded after that is a first one; a STATUS read returns the fields of R31. -/
def Obligations.StatusTransactions : Prop :=
  ∀ (nmax step : Nat) (v : Word) (u : Instance),
    (v.getLsbD 2 = true → busWrite nmax step 0x00C 4 v u =
      .ok { u with status := { u.status with err := false, errMulti := false, errCode := 0 } }) ∧
    (v.getLsbD 2 = false → busWrite nmax step 0x00C 4 v u = .ok u) ∧
    (∀ e, v.getLsbD 2 = true → (u.status.write v).record e =
      { u.status with err := true, errMulti := false, errCode := errorCode e }) ∧
    ∃ w, busRead nmax step 0x00C 4 u = .ok w ∧ w.getLsbD 0 = u.status.init ∧ w.getLsbD 1 = u.status.busy ∧
      w.getLsbD 2 = u.status.err ∧ w.getLsbD 3 = u.status.errMulti ∧ w.getLsbD 4 = u.status.fatal ∧
      w.extractLsb' 5 3 = 0 ∧ w.extractLsb' 8 4 = u.status.errCode ∧ w.extractLsb' 12 20 = 0

/-- R219: buffer transactions. A write stores any 32 bits and sets the written bit, and is the model fault HostRace while
BUSY = 1; a read of a word never written is the model fault UnwrittenBuffer, and an OUT_BUF read while BUSY = 1 is drawn;
no other word changes. -/
def Obligations.BufferTransactions : Prop :=
  ∀ (nmax step c k : Nat) (v : Word) (u : Instance), c < 16 → k < nmax → nmax ≤ 2048 → Memory.Wf u.mem →
    (u.status.busy = true → busWrite nmax step (inAddr k) 4 v u = .error .hostRace ∧
      busWrite nmax step (outAddr c k) 4 v u = .error .hostRace) ∧
    (∀ a, (a = inAddr k ∨ a = outAddr c k) → u.status.busy = false →
      ∃ m, busWrite nmax step a 4 v u = .ok { u with mem := m } ∧ Memory.Wf m ∧ Memory.word m a = some v ∧
        busRead nmax step a 4 { u with mem := m } = .ok v ∧
        ∀ b, (b < a ∨ a + 3 < b) → Memory.get m b = Memory.get u.mem b) ∧
    (∀ a, (a = inAddr k ∨ a = outAddr c k) → Memory.word u.mem a = none →
      busRead nmax step a 4 u = .error .unwrittenBuffer) ∧
    (∀ w, Memory.word u.mem (inAddr k) = some w → busRead nmax step (inAddr k) 4 u = .ok w) ∧
    (∀ w, Memory.word u.mem (outAddr c k) = some w → busRead nmax step (outAddr c k) 4 u =
      .ok (if u.status.busy then (freeBits ⟨step, .busRead, 0, 0⟩).setWidth 32 else w))

/-- R210: a CMD write is dropped with code 11 when FATAL, else dropped with code 10 when BUSY, and then changes only the
error fields; else the word and the staging values are latched and BUSY is set (the delay is the model's, log 6). -/
def Obligations.CmdWriteAccepts : Prop :=
  ∀ (nmax step : Nat) (w : Word) (u : Instance),
    let st := u.status
    let recorded (code : BitVec 4) : Status :=
      if st.err then { st with errMulti := true } else { st with err := true, errCode := code }
    (st.fatal = true → busWrite nmax step 0x008 4 w u = .ok { u with status := recorded 11 }) ∧
    (st.fatal = false → st.busy = true → busWrite nmax step 0x008 4 w u = .ok { u with status := recorded 10 }) ∧
    (st.fatal = false → st.busy = false → ∃ d, busWrite nmax step 0x008 4 w u =
      .ok { u with pcmd := w, pfreq := u.freqHi ++ u.freqLo, pgain := u.gainData, delay := d,
                   status := { st with busy := true } })

/-- R60, R68, R71: a host read at offset `off` of instance `i` answers `MemRead(off)` of that instance and is then done, or
ends in the model fault that gives; it changes no instance (but for the model's own count of transactions, log 6). An address
in no instance's register space is the model's own fault (log 17). -/
def Obligations.HostReadHasNoSideEffect : Prop :=
  ∀ (s : State) (addr size : Nat) (rest : List HostOp),
    (∀ t, hostStep (.read addr size) rest s = .next t →
      t.instances = s.instances.map (fun u => { u with delay := u.delay - 1 }) ∧ t.cfg = s.cfg ∧ t.host = rest ∧
      ∃ v, t.reads = s.reads ++ [v]) ∧
    (∀ (i off : Nat) (u : Instance), off < 0x40000 → addr = s.cfg.base + i * 0x40000 + off → s.instances[i]? = some u →
      (∀ v, busRead s.cfg.nmax s.draws off size u = .ok v →
        ∃ t, hostStep (.read addr size) rest s = .next t ∧ t.reads = s.reads ++ [v] ∧ t.host = rest ∧ t.cfg = s.cfg ∧
          t.instances = s.instances.map (fun u => { u with delay := u.delay - 1 })) ∧
      (∀ f, busRead s.cfg.nmax s.draws off size u = .error f → hostStep (.read addr size) rest s = .fault f)) ∧
    (addr < s.cfg.base ∨ s.instances.length ≤ (addr - s.cfg.base) / 0x40000 →
      hostStep (.read addr size) rest s = .fault .noInstance)

/-- R98: POLL of any instance reads its STATUS, is the host's next transaction again exactly while BUSY is 1, and changes no
instance (but for the model's own count of transactions, log 6). -/
def Obligations.PollRepeatsWhileBusy : Prop :=
  ∀ (s : State) (rest : List HostOp) (i : Nat) (u : Instance), s.instances[i]? = some u →
    ∃ t, hostStep (.poll i) rest s = .next t ∧ t.reads = s.reads ++ [u.status.word] ∧
      (t.host = if u.status.busy then .poll i :: rest else rest) ∧
      t.instances = s.instances.map (fun v => { v with delay := v.delay - 1 }) ∧ t.cfg = s.cfg

/-! ## The whole machine -/

/-- R253: recording an error, in an engine step and at a CMD write: the first code is kept, a second error sets ERR_MULTI,
an engine step then clears BUSY, and nothing else is written. -/
def Obligations.RecordKeepsFirstError : Prop :=
  ∀ (e : ErrorName) (s : State),
    s.raise e = refusedWith (errorCode e) s ∧
    (s.inst.status.err = false → s.inst.status.record e =
      { s.inst.status with err := true, errCode := errorCode e }) ∧
    (s.inst.status.err = true → s.inst.status.record e = { s.inst.status with errMulti := true }) ∧
    (∀ w d, s.inst.status.fatal = true →
      cmdWrite d w s.inst = { s.inst with status := s.inst.status.record .fatal }) ∧
    (∀ w d, s.inst.status.fatal = false → s.inst.status.busy = true →
      cmdWrite d w s.inst = { s.inst with status := s.inst.status.record .busy })

/-- R255: no engine step clears a recorded error or changes its code: not RESET, and no successful command. -/
def Obligations.EngineNeverClearsErrors : Prop :=
  ∀ s t : State, engineStep s = .next t → s.inst.status.err = true →
    t.inst.status.err = true ∧ t.inst.status.errCode = s.inst.status.errCode ∧
    (s.inst.status.errMulti = true → t.inst.status.errMulti = true)

/-- R257: FATAL stays until power-on: no step clears it in any instance. -/
def Obligations.FatalStays : Prop :=
  ∀ (s t : State) (i : Nat) (u : Instance), step s = .next t → s.instances[i]? = some u → u.status.fatal = true →
    ∃ v, t.instances[i]? = some v ∧ v.status.fatal = true

/-- R224, R60: an engine step changes no other instance. A host write at offset `off` of instance `i` leaves there what
`MemWrite(off)` of that instance gives, changes no other instance and is then done, or ends in the model fault that gives (but
for the model's own count of transactions, log 6, which comes first). An address in no instance's register space is the
model's own fault (log 17). -/
def Obligations.InstancesAreIndependent : Prop :=
  (∀ s t : State, engineStep s = .next t →
    t.before = s.before ∧ t.after = s.after ∧ t.cfg = s.cfg ∧ t.host = s.host ∧ t.reads = s.reads) ∧
  ∀ (s : State) (addr size : Nat) (v : Word) (rest : List HostOp),
    (∀ (t : State) (i : Nat) (u : Instance), hostStep (.write addr size v) rest s = .next t →
      i ≠ (addr - s.cfg.base) / 0x40000 → s.instances[i]? = some u →
      t.instances[i]? = some { u with delay := u.delay - 1 }) ∧
    (∀ (i off : Nat) (u : Instance), off < 0x40000 → addr = s.cfg.base + i * 0x40000 + off → s.instances[i]? = some u →
      (∀ u', busWrite s.cfg.nmax s.draws off size v { u with delay := u.delay - 1 } = .ok u' →
        ∃ t, hostStep (.write addr size v) rest s = .next t ∧ t.instances[i]? = some u' ∧
          t.instances = (s.instances.map (fun u => { u with delay := u.delay - 1 })).set i u' ∧
          t.host = rest ∧ t.reads = s.reads ∧ t.cfg = s.cfg) ∧
      (∀ f, busWrite s.cfg.nmax s.draws off size v { u with delay := u.delay - 1 } = .error f →
        hostStep (.write addr size v) rest s = .fault f)) ∧
    (addr < s.cfg.base ∨ s.instances.length ≤ (addr - s.cfg.base) / 0x40000 →
      hostStep (.write addr size v) rest s = .fault .noInstance)

/-- R123 and spec/00_scope.md R6: no step changes the parameters, and with them the Window ROM, or the number of
instances. -/
def Obligations.ParametersAreConstant : Prop :=
  ∀ s t : State, step s = .next t → t.cfg = s.cfg ∧ t.instances.length = s.instances.length

/-- R43, R45: the invariants hold at power-on. -/
def Obligations.PowerOnMeetsInvariant : Prop := State.reset.Inv

/-- R43 (1) to (5), with the array sizes, the range of nch, the consistency of STATUS, finite gains and the canonical
form of the buffer memory: every step keeps the invariants of every instance. -/
def Obligations.StepKeepsInvariant : Prop :=
  ∀ s t : State, s.Inv → step s = .next t → t.Inv

/-! ## The Hilbert step's numbers, and every power-on state -/

/-- R164: what every HILBERT_IMPL gives for a finite block: 1024 entries (5), which depend on the block's real parts alone
(1), all finite (3), each real part within EPS_H·S of the input and each imaginary part within EPS_H·S of the exact analytic
signal's (2), where S is the sum of the magnitudes. The premises: EPS_H is at least 2^-53, from where on R164 says the
reference meets (2), and S is 0 or between 2^-1020 and 2^1023, which every block the windowing makes meets (R164 names no
such bound; below it a result is a few subnormals and its rounding alone can exceed EPS_H·S). That the default's answer
stands where another implementation's does not meet R164 is the model's choice (log 14). -/
def Obligations.HilbertIsAccurate : Prop :=
  ∀ (p : Params) (step k : Nat) (b : List C64), BlockFinite b → p.epsDenPred + 1 ≤ p.epsNum * 2 ^ 53 →
    (absSum b = 0 ∨ (2 ^ 54 ≤ absSum b ∧ absSum b ≤ 2 ^ 2097)) →
    (hilbert p step k b).length = 1024 ∧
    (∀ (step' k' : Nat) (b' : List C64), (∀ n, n < 1024 → (cget b' n).re = (cget b n).re) →
      hilbert p step' k' b' = hilbert p step k b) ∧
    ∀ n, n < 1024 →
      let y := cget (hilbert p step k b) n
      let bound : ℝ := p.epsNum / (p.epsDenPred + 1 : Nat) * absSum b
      isFinite64 y.re = true ∧ isFinite64 y.im = true ∧
      |(int64Of y.re : ℝ) - realOf b n| ≤ bound ∧ |(int64Of y.im : ℝ) - quadrature (realOf b) n| ≤ bound

/-- R162 (2), R163, R165: on a finite block the reference function's imaginary part at `n` is RNE64 of the exact sum
`-Σ_p h[(n-p) mod 1024]·B[p].re`, an exact zero giving +0.0. -/
def Obligations.QuadratureIsRounded : Prop :=
  ∀ (p : Params) (step k n : Nat) (b : List C64), p.hilbert = .reference → BlockFinite b → n < 1024 →
    RoundsTo (quadrature (realOf b) n) (cget (hilbert p step k b) n).im

/-- R163, R165 on the impulse of spec/95_test_vectors.md 2.3.1: the real parts come back, every even place has the imaginary
part +0.0, and the odd places of the table have the rounded taps. -/
def Obligations.HilbertImpulse : Prop :=
  ∀ (p : Params) (step k : Nat), p.hilbert = .reference →
    let y := hilbert p step k (tabulate 1024 fun j => ⟨if j = 0 then one64 else 0, 0⟩)
    (∀ n, n < 1024 → (cget y n).re = if n = 0 then one64 else 0) ∧
    (∀ n, n < 1024 → n % 2 = 0 → (cget y n).im = 0) ∧
    (cget y 1).im = 0xBFE45F2C3D750E5E#64 ∧ (cget y 3).im = 0xBFCB2963A3AE72E1#64 ∧
    (cget y 5).im = 0xBFC04BD2F749CC85#64 ∧ (cget y 511).im = 0xBED922007F34AD0E#64 ∧
    (cget y 513).im = 0x3ED922007F34AD0E#64 ∧ (cget y 1021).im = 0x3FCB2963A3AE72E1#64 ∧
    (cget y 1023).im = 0x3FE45F2C3D750E5E#64

/-- R43, R45: the invariants hold in every power-on state: any legal parameters, any number of instances, and any value of
the command latch, which R45 leaves unspecified. -/
def Obligations.EveryPowerOnMeetsInvariant : Prop := ∀ s : State, PowerOn s → s.Inv
end

