-- ==== Sys2Proof/Laws/Arrays.lean ====
section
/-! SUPPORT. Arrays given entry by entry (`tabulate`, `cget`) and repeated sub-steps (`forUp`). -/

namespace Sys2Proof.Machine

open Sys2Proof

@[simp] theorem length_tabulate {α : Type} (n : Nat) (f : Nat → α) : (tabulate n f).length = n := by
  unfold tabulate; simp

theorem getD_tabulate {α : Type} (n : Nat) (f : Nat → α) (d : α) (k : Nat) :
    (tabulate n f).getD k d = if k < n then f k else d := by
  unfold tabulate
  by_cases h : k < n <;> simp [List.getD, h]

theorem getD_tabulate_of_lt {α : Type} {n k : Nat} (f : Nat → α) (d : α) (h : k < n) :
    (tabulate n f).getD k d = f k := by rw [getD_tabulate, if_pos h]

theorem cget_tabulate (n : Nat) (f : Nat → C64) (k : Nat) :
    cget (tabulate n f) k = if k < n then f k else C64.zero := getD_tabulate ..

theorem cget_replicate (n k : Nat) : cget (List.replicate n C64.zero) k = C64.zero := by
  simp only [cget, List.getD, List.getElem?_replicate]
  split <;> rfl

theorem getD_set {α : Type} (l : List α) (i j : Nat) (v d : α) :
    (l.set i v).getD j d = if i = j ∧ j < l.length then v else l.getD j d := by
  simp only [List.getD, List.getElem?_set]
  by_cases h : i = j
  · subst h
    by_cases h' : i < l.length <;> simp [h']
  · simp [h]

theorem cget_set (l : List C64) (i j : Nat) (v : C64) :
    cget (l.set i v) j = if i = j ∧ j < l.length then v else cget l j := getD_set ..

theorem allBelow_iff (n : Nat) (q : Nat → Bool) : allBelow n q = true ↔ ∀ k, k < n → q k = true := by
  unfold allBelow; simp

@[simp] theorem forUp_zero {α : Type} (f : Nat → α → α) (x : α) : forUp f 0 x = x := rfl

theorem forUp_succ {α : Type} (f : Nat → α → α) (n : Nat) (x : α) :
    forUp f (n + 1) x = f n (forUp f n x) := rfl

/-- What every pass keeps, the loop keeps. -/
theorem forUp_induction {α : Type} {f : Nat → α → α} {P : α → Prop} {n : Nat} {x : α}
    (hx : P x) (hf : ∀ k y, k < n → P y → P (f k y)) : P (forUp f n x) := by
  induction n with
  | zero => exact hx
  | succ n ih => exact hf n _ n.lt_succ_self (ih fun k y hk => hf k y (Nat.lt_succ_of_lt hk))

/-- What every pass establishes from the count so far, the loop establishes. -/
theorem forUp_induction_count {α : Type} {f : Nat → α → α} {P : Nat → α → Prop} {x : α}
    (hx : P 0 x) : ∀ n, (∀ k y, k < n → P k y → P (k + 1) (f k y)) → P n (forUp f n x)
  | 0, _ => hx
  | n + 1, hf => hf n _ n.lt_succ_self
      (forUp_induction_count hx n fun k y hk => hf k y (Nat.lt_succ_of_lt hk))

/-- A component no pass changes is unchanged by the loop. -/
theorem forUp_frame {α β : Type} {f : Nat → α → α} (g : α → β) (hf : ∀ k y, g (f k y) = g y) (n : Nat) (x : α) :
    g (forUp f n x) = g x :=
  forUp_induction (P := fun y => g y = g x) rfl fun k y _ h => (hf k y).trans h

end Sys2Proof.Machine
end

