-- ==== Sys2Proof/Laws/Enclosure.lean ====
section
/-! SUPPORT. The integer enclosures of the numeric parameters enclose what they stand for: the sine and cosine series, π by
Machin's formula, the words of the window formula and the taps of the quadrature kernel. -/

namespace Sys2Proof.Machine

set_option Elab.async false

open Sys2Proof Sys2Proof.Config

open scoped Nat

/-! ## The alternating series -/

/-- The series `1 - x²/((k+1)(k+2)) + …` that `taylor` sums. -/
noncomputable def altSeries (x : ℝ) (k : ℕ) : ℝ := ∑' m : ℕ, (-1) ^ m * x ^ (2 * m) * (k ! / (k + 2 * m)! : ℝ)

theorem altTerm_le (x : ℝ) (k m : ℕ) :
    ‖(-1) ^ m * x ^ (2 * m) * (k ! / (k + 2 * m)! : ℝ)‖ ≤ x ^ (2 * m) / (2 * m)! := by
  have h0 : 0 ≤ x ^ (2 * m) := by rw [pow_mul]; positivity
  have hf : (k ! : ℝ) * (2 * m)! ≤ (k + 2 * m)! := by
    exact_mod_cast Nat.le_of_dvd (Nat.factorial_pos _) (Nat.factorial_mul_factorial_dvd_factorial_add k (2 * m))
  have hr : (k ! / (k + 2 * m)! : ℝ) ≤ 1 / (2 * m)! := by
    rw [div_le_div_iff₀ (by positivity) (by positivity)]
    linarith
  rw [norm_mul, norm_mul, norm_pow, norm_neg, norm_one, one_pow, one_mul, Real.norm_of_nonneg h0,
    Real.norm_of_nonneg (by positivity)]
  calc x ^ (2 * m) * (k ! / (k + 2 * m)! : ℝ) ≤ x ^ (2 * m) * (1 / (2 * m)!) := mul_le_mul_of_nonneg_left hr h0
    _ = x ^ (2 * m) / (2 * m)! := by ring

theorem altSeries_summable (x : ℝ) (k : ℕ) :
    Summable fun m : ℕ => (-1) ^ m * x ^ (2 * m) * (k ! / (k + 2 * m)! : ℝ) :=
  Summable.of_norm_bounded (Real.hasSum_cosh x).summable (altTerm_le x k)

theorem abs_altSeries_le (x : ℝ) (k : ℕ) : |altSeries x k| ≤ Real.cosh x :=
  tsum_of_norm_bounded (Real.hasSum_cosh x) (altTerm_le x k)

theorem altSeries_succ (x : ℝ) (k : ℕ) :
    altSeries x k = 1 - x ^ 2 / ((k + 1) * (k + 2)) * altSeries x (k + 2) := by
  rw [altSeries, (altSeries_summable x k).tsum_eq_zero_add, altSeries, ← tsum_mul_left, sub_eq_add_neg, ← tsum_neg]
  congr 1
  · simp [Nat.factorial_ne_zero]
  · congr 1
    funext m
    have h1 : (k + 2 * (m + 1))! = (k + 2 + 2 * m)! := by congr 1; ring
    have h2 : ((k + 2)! : ℝ) = (k + 2) * (k + 1) * k ! := by
      rw [Nat.factorial_succ, Nat.factorial_succ]; push_cast; ring
    have h3 : ((k + 2 + 2 * m)! : ℝ) ≠ 0 := by exact_mod_cast Nat.factorial_ne_zero _
    rw [h1, h2]
    have h4 : (k : ℝ) + 1 ≠ 0 := by positivity
    have h5 : (k : ℝ) + 2 ≠ 0 := by positivity
    field_simp
    ring

theorem sin_eq_altSeries (x : ℝ) : Real.sin x = x * altSeries x 1 := by
  rw [← (Real.hasSum_sin x).tsum_eq, altSeries, ← tsum_mul_left]
  congr 1
  funext m
  rw [Nat.factorial_one, Nat.cast_one, Nat.add_comm 1 (2 * m), pow_succ]
  ring

theorem cos_eq_altSeries (x : ℝ) : Real.cos x = altSeries x 0 := by
  rw [← (Real.hasSum_cos x).tsum_eq, altSeries]
  congr 1
  funext m
  rw [Nat.factorial_zero, Nat.cast_one, Nat.zero_add]
  ring

theorem altSeries_bound {x : ℝ} (h0 : 0 ≤ x) (h : x ≤ 13) (k : ℕ) : |altSeries x k| ≤ 2 ^ 19 := by
  refine (abs_altSeries_le x k).trans ?_
  have h1 : Real.cosh x ≤ Real.exp 13 := by
    have h2 : Real.exp x ≤ Real.exp 13 := Real.exp_le_exp.mpr h
    have h3 : Real.exp (-x) ≤ Real.exp 13 := Real.exp_le_exp.mpr (by linarith)
    rw [Real.cosh_eq]; linarith
  have h4 : Real.exp 13 = Real.exp 1 ^ 13 := by rw [← Real.exp_nat_mul]; norm_num
  have h5 : Real.exp 1 ^ 13 ≤ (2.7182818286 : ℝ) ^ 13 :=
    pow_le_pow_left₀ (Real.exp_pos 1).le Real.exp_one_lt_d9.le 13
  refine h1.trans (h4.trans_le (h5.trans ?_))
  norm_num

/-! ## `taylor` -/

/-- One term of `taylor` to the next: one floor of the exact next term. -/
theorem taylor_term (t x2 K k : ℕ) :
    ((t * x2 / ((k + 1) * (k + 2))) >>> (2 * K)) = t * x2 / ((k + 1) * (k + 2) * 2 ^ (2 * K)) := by
  rw [Nat.shiftRight_eq_div_pow, Nat.div_div_eq_div_mul]

/-- The sum is off by at most `2^19` for each term, for an argument up to 13 and enough terms: `n` terms may grow, by a
factor below 85 each, and the others shrink by a factor of 4. -/
theorem taylor_error (x K : ℕ) (hx : x ≤ 13 * 2 ^ K) : ∀ fuel n k t : ℕ, 25 ≤ k + 2 * n → n ≤ fuel →
    t * 85 ^ n < 4 ^ (fuel - n) →
    |(taylor (x * x) K fuel k t : ℝ) - t * altSeries (x / 2 ^ K) k| ≤ fuel * 2 ^ 19
  | 0, n, k, t, _, hn, ht => by
    obtain rfl : n = 0 := by omega
    obtain rfl : t = 0 := by simpa using ht
    simp [taylor]
  | fuel + 1, n, k, t, hk, hn, ht => by
    rcases Nat.eq_zero_or_pos t with rfl | hpos
    · simp [taylor]; positivity
    rw [taylor, if_neg (by omega), taylor_term]
    set D := (k + 1) * (k + 2) * 2 ^ (2 * K) with hD
    set t' := t * (x * x) / D with ht'
    have hDpos : 0 < D := by positivity
    have hle : t' * D ≤ t * (x * x) := Nat.div_mul_le_self ..
    have hlt : t * (x * x) < (t' + 1) * D := by
      rw [Nat.add_mul, Nat.one_mul]; exact Nat.lt_div_mul_add hDpos
    have hxx : x * x ≤ 169 * 2 ^ (2 * K) := by
      calc x * x ≤ (13 * 2 ^ K) * (13 * 2 ^ K) := Nat.mul_le_mul hx hx
        _ = 169 * 2 ^ (2 * K) := by rw [Nat.two_mul, Nat.pow_add]; ring
    have hratio : t' * ((k + 1) * (k + 2)) ≤ 169 * t := by
      refine Nat.le_of_mul_le_mul_right (c := 2 ^ (2 * K)) ?_ (Nat.two_pow_pos _)
      calc t' * ((k + 1) * (k + 2)) * 2 ^ (2 * K) = t' * D := by rw [hD]; ring
        _ ≤ t * (x * x) := hle
        _ ≤ t * (169 * 2 ^ (2 * K)) := Nat.mul_le_mul_left t hxx
        _ = 169 * t * 2 ^ (2 * K) := by ring
    -- the next term is still within what is left of the fuel
    have hnext : ∃ n', 25 ≤ k + 2 + 2 * n' ∧ n' ≤ fuel ∧ t' * 85 ^ n' < 4 ^ (fuel - n') := by
      rcases n with _ | n
      · refine ⟨0, by omega, by omega, ?_⟩
        have h1 : 702 ≤ (k + 1) * (k + 2) := Nat.mul_le_mul (show 26 ≤ k + 1 by omega) (show 27 ≤ k + 2 by omega)
        have h2 : t' * 702 ≤ 169 * t := (Nat.mul_le_mul_left t' h1).trans hratio
        have h3 : 4 ^ (fuel + 1 - 0) = 4 * 4 ^ (fuel - 0) := by simp [Nat.pow_succ, Nat.mul_comm]
        omega
      · refine ⟨n, by omega, by omega, ?_⟩
        have h1 : 2 ≤ (k + 1) * (k + 2) := Nat.mul_le_mul (show 1 ≤ k + 1 by omega) (show 2 ≤ k + 2 by omega)
        have h2 : t' * 2 ≤ 169 * t := (Nat.mul_le_mul_left t' h1).trans hratio
        have h3 : t' ≤ 85 * t := by omega
        have h4 : fuel + 1 - (n + 1) = fuel - n := by omega
        rw [h4] at ht
        calc t' * 85 ^ n ≤ 85 * t * 85 ^ n := Nat.mul_le_mul_right _ h3
          _ = t * 85 ^ (n + 1) := by ring
          _ < 4 ^ (fuel - n) := ht
    obtain ⟨n', h1, h2, h3⟩ := hnext
    have ih := taylor_error x K hx fuel n' (k + 2) t' h1 h2 h3
    have hX0 : (0 : ℝ) ≤ x / 2 ^ K := by positivity
    have hX : (x : ℝ) / 2 ^ K ≤ 13 := by
      rw [div_le_iff₀ (by positivity)]; exact_mod_cast hx
    have hf := altSeries_bound hX0 hX (k + 2)
    rw [altSeries_succ]
    set X : ℝ := x / 2 ^ K with hXdef
    set f := altSeries X (k + 2)
    -- the exact next term, less than one above the floored one
    set τ : ℝ := t * (X ^ 2 / ((k + 1) * (k + 2))) with hτ
    have hτD : τ * D = t * (x * x) := by
      rw [hτ, hXdef, hD]; push_cast
      have : (2 : ℝ) ^ (2 * K) = 2 ^ K * 2 ^ K := by rw [two_mul, pow_add]
      rw [this]
      field_simp
    have hDr : (0 : ℝ) < D := by exact_mod_cast hDpos
    have hδ0 : (t' : ℝ) ≤ τ := by
      refine le_of_mul_le_mul_right ?_ hDr
      rw [hτD]; exact_mod_cast hle
    have hδ1 : τ ≤ t' + 1 := by
      refine le_of_mul_le_mul_right ?_ hDr
      rw [hτD]; exact_mod_cast hlt.le
    have hsplit : ((((t : ℤ) - taylor (x * x) K fuel (k + 2) t' : ℤ)) : ℝ) - t * (1 - X ^ 2 / ((k + 1) * (k + 2)) * f) =
        -((taylor (x * x) K fuel (k + 2) t' : ℝ) - t' * f) + (τ - t') * f := by
      push_cast; rw [hτ]; ring
    rw [hsplit]
    have hm : |(τ - t') * f| ≤ 2 ^ 19 := by
      rw [abs_mul, abs_of_nonneg (by linarith : (0 : ℝ) ≤ τ - t')]
      calc (τ - t') * |f| ≤ 1 * 2 ^ 19 := mul_le_mul (by linarith) hf (abs_nonneg _) (by norm_num)
        _ = 2 ^ 19 := one_mul _
    calc _ ≤ |-((taylor (x * x) K fuel (k + 2) t' : ℝ) - t' * f)| + |(τ - t') * f| := abs_add_le ..
      _ ≤ fuel * 2 ^ 19 + 2 ^ 19 := by rw [abs_neg]; exact add_le_add ih hm
      _ = ((fuel + 1 : ℕ) : ℝ) * 2 ^ 19 := by push_cast; ring

theorem fuel_enough (K t : ℕ) (hK : 192 ≤ K) (ht : t ≤ 13 * 2 ^ K) : t * 85 ^ 13 < 4 ^ (K - 13) := by
  have h1 : 4 ^ (K - 13) = 2 ^ K * 2 ^ (K - 26) := by
    rw [← Nat.pow_add, show (4 : ℕ) = 2 ^ 2 from rfl, ← Nat.pow_mul]; congr 1; omega
  have h2 : 2 ^ 166 ≤ 2 ^ (K - 26) := Nat.pow_le_pow_right (by omega) (by omega)
  rw [h1]
  calc t * 85 ^ 13 ≤ 13 * 2 ^ K * 85 ^ 13 := Nat.mul_le_mul_right _ ht
    _ = 2 ^ K * (13 * 85 ^ 13) := by ring
    _ < 2 ^ K * 2 ^ 166 := Nat.mul_lt_mul_of_pos_left (by norm_num) (Nat.two_pow_pos _)
    _ ≤ 2 ^ K * 2 ^ (K - 26) := Nat.mul_le_mul_left _ h2

/-- The centre of `sinBall` is the sine, in units of `2^-K`, but for `2^19` units a term. -/
theorem sinBall_error (K x : ℕ) (hK : 192 ≤ K) (hx : x ≤ 13 * 2 ^ K) :
    |((sinBall K x).c : ℝ) - 2 ^ K * Real.sin (x / 2 ^ K)| ≤ K * 2 ^ 19 := by
  have h := taylor_error x K hx K 13 1 x (by omega) (by omega) (fuel_enough K x hK hx)
  rw [sin_eq_altSeries, ← mul_assoc, mul_div_cancel₀ _ (by positivity)]
  exact h

/-- The centre of `cosBall` is the cosine, in units of `2^-K`, but for `2^19` units a term. -/
theorem cosBall_error (K x : ℕ) (hK : 192 ≤ K) (hx : x ≤ 13 * 2 ^ K) :
    |((cosBall K x).c : ℝ) - 2 ^ K * Real.cos (x / 2 ^ K)| ≤ K * 2 ^ 19 := by
  have h := taylor_error x K hx K 13 0 (2 ^ K) (by omega) (by omega)
    (fuel_enough K _ hK (Nat.le_mul_of_pos_left _ (by omega)))
  rw [Nat.cast_pow, Nat.cast_ofNat] at h
  rw [cos_eq_altSeries]
  exact h

/-! ## π by Machin's formula -/

/-- The series `1/k - q/(k+2) + …` that `atanInv` sums. -/
noncomputable def atanSeries (q : ℝ) (k : ℕ) : ℝ := ∑' m : ℕ, (-1) ^ m * q ^ m * (1 / (k + 2 * m : ℝ))

theorem atanTerm_le {q : ℝ} (hq : 0 ≤ q) (k m : ℕ) (hk : 1 ≤ k) : ‖(-1) ^ m * q ^ m * (1 / (k + 2 * m : ℝ))‖ ≤ q ^ m := by
  have hk' : (1 : ℝ) ≤ k := by exact_mod_cast hk
  have h1 : (1 : ℝ) / (k + 2 * m) ≤ 1 := by
    rw [div_le_one (by positivity)]
    have : (0 : ℝ) ≤ 2 * m := by positivity
    linarith
  rw [norm_mul, norm_mul, norm_pow, norm_neg, norm_one, one_pow, one_mul, Real.norm_of_nonneg (by positivity),
    Real.norm_of_nonneg (by positivity)]
  exact mul_le_of_le_one_right (by positivity) h1

theorem atanSeries_summable {q : ℝ} (hq : 0 ≤ q) (hq1 : q ≤ 1 / 2) (k : ℕ) (hk : 1 ≤ k) :
    Summable fun m : ℕ => (-1) ^ m * q ^ m * (1 / (k + 2 * m : ℝ)) :=
  Summable.of_norm_bounded (summable_geometric_of_lt_one hq (by linarith)) fun m => atanTerm_le hq k m hk

theorem abs_atanSeries_le {q : ℝ} (hq : 0 ≤ q) (hq1 : q ≤ 1 / 2) (k : ℕ) (hk : 1 ≤ k) : |atanSeries q k| ≤ 2 := by
  refine (tsum_of_norm_bounded (hasSum_geometric_of_lt_one hq (by linarith)) fun m => atanTerm_le hq k m hk).trans ?_
  rw [inv_le_comm₀ (by linarith) (by norm_num)]
  linarith

theorem atanSeries_succ {q : ℝ} (hq : 0 ≤ q) (hq1 : q ≤ 1 / 2) (k : ℕ) (hk : 1 ≤ k) :
    atanSeries q k = 1 / k - q * atanSeries q (k + 2) := by
  rw [atanSeries, (atanSeries_summable hq hq1 k hk).tsum_eq_zero_add, atanSeries, ← tsum_mul_left, sub_eq_add_neg,
    ← tsum_neg]
  congr 1
  · simp
  · congr 1
    funext m
    push_cast
    rw [pow_succ, pow_succ]
    have : (k : ℝ) + 2 * (m + 1) = k + 2 + 2 * m := by ring
    rw [this]
    ring

/-- The sum is off by at most 3 for each term. -/
theorem atanInv_error (m2 : ℕ) (hm : 2 ≤ m2) : ∀ fuel k t : ℕ, 1 ≤ k → t < 2 ^ fuel →
    |(atanInv m2 fuel k t : ℝ) - t * atanSeries (1 / m2) k| ≤ 3 * fuel
  | 0, k, t, _, ht => by
    obtain rfl : t = 0 := by simpa using ht
    simp [atanInv]
  | fuel + 1, k, t, hk, ht => by
    rcases Nat.eq_zero_or_pos t with rfl | hpos
    · simp [atanInv]; positivity
    have hm' : (2 : ℝ) ≤ m2 := by exact_mod_cast hm
    have hq0 : (0 : ℝ) ≤ 1 / m2 := by positivity
    have hq1 : (1 : ℝ) / m2 ≤ 1 / 2 := by
      rw [div_le_div_iff₀ (by positivity) (by norm_num)]; linarith
    have hnext : t / m2 < 2 ^ fuel := by
      rw [Nat.div_lt_iff_lt_mul (by omega)]
      calc t < 2 ^ fuel * 2 := by rw [← Nat.pow_succ]; exact ht
        _ ≤ 2 ^ fuel * m2 := Nat.mul_le_mul_left _ hm
    have ih := atanInv_error m2 hm fuel (k + 2) (t / m2) (by omega) hnext
    have hf := abs_atanSeries_le hq0 hq1 (k + 2) (by omega)
    rw [atanInv, if_neg (by omega), atanSeries_succ hq0 hq1 k hk]
    set f := atanSeries (1 / (m2 : ℝ)) (k + 2)
    have hkr : (0 : ℝ) < k := by exact_mod_cast hk
    have a0 : ((t / k : ℕ) : ℝ) ≤ t / k := Nat.cast_div_le
    have a1 : (t : ℝ) / k ≤ (t / k : ℕ) + 1 := by
      rw [div_le_iff₀ hkr]
      have := Nat.lt_div_mul_add (a := t) (b := k) hk
      have : t ≤ (t / k + 1) * k := by rw [Nat.add_mul, Nat.one_mul]; omega
      exact_mod_cast this
    have b0 : ((t / m2 : ℕ) : ℝ) ≤ t / m2 := Nat.cast_div_le
    have b1 : (t : ℝ) / m2 ≤ (t / m2 : ℕ) + 1 := by
      rw [div_le_iff₀ (by linarith)]
      have := Nat.lt_div_mul_add (a := t) (b := m2) (by omega)
      have : t ≤ (t / m2 + 1) * m2 := by rw [Nat.add_mul, Nat.one_mul]; omega
      exact_mod_cast this
    have hsplit : ((((t / k : ℕ) : ℤ) - atanInv m2 fuel (k + 2) (t / m2) : ℤ) : ℝ) - t * (1 / k - 1 / m2 * f) =
        -((atanInv m2 fuel (k + 2) (t / m2) : ℝ) - (t / m2 : ℕ) * f) + (t / m2 - (t / m2 : ℕ)) * f
          + ((t / k : ℕ) - t / k) := by
      rw [Int.cast_sub, Int.cast_natCast]; ring
    rw [hsplit]
    have h2 : |((t : ℝ) / m2 - (t / m2 : ℕ)) * f| ≤ 2 := by
      rw [abs_mul, abs_of_nonneg (by linarith : (0 : ℝ) ≤ (t : ℝ) / m2 - (t / m2 : ℕ))]
      calc ((t : ℝ) / m2 - (t / m2 : ℕ)) * |f| ≤ 1 * 2 := mul_le_mul (by linarith) hf (abs_nonneg _) (by norm_num)
        _ = 2 := one_mul _
    have h3 : |((t / k : ℕ) : ℝ) - t / k| ≤ 1 := by rw [abs_le]; constructor <;> linarith
    calc _ ≤ |-((atanInv m2 fuel (k + 2) (t / m2) : ℝ) - (t / m2 : ℕ) * f) + (t / m2 - (t / m2 : ℕ)) * f|
          + |((t / k : ℕ) : ℝ) - t / k| := abs_add_le ..
      _ ≤ (|-((atanInv m2 fuel (k + 2) (t / m2) : ℝ) - (t / m2 : ℕ) * f)| + |((t : ℝ) / m2 - (t / m2 : ℕ)) * f|)
          + |((t / k : ℕ) : ℝ) - t / k| := by gcongr; exact abs_add_le ..
      _ ≤ (3 * fuel + 2) + 1 := by rw [abs_neg]; gcongr
      _ = 3 * ((fuel + 1 : ℕ) : ℝ) := by push_cast; ring

theorem arctan_eq_atanSeries (m : ℕ) (hm : 2 ≤ m) :
    Real.arctan (m : ℝ)⁻¹ = (m : ℝ)⁻¹ * atanSeries (1 / ((m * m : ℕ) : ℝ)) 1 := by
  have hm' : (2 : ℝ) ≤ m := by exact_mod_cast hm
  have h : ‖(m : ℝ)⁻¹‖ < 1 := by
    rw [norm_inv, Real.norm_of_nonneg (by positivity)]
    exact inv_lt_one_of_one_lt₀ (by linarith)
  rw [← (Real.hasSum_arctan h).tsum_eq, atanSeries, ← tsum_mul_left]
  congr 1
  funext n
  push_cast
  have hm0 : (m : ℝ) ≠ 0 := by positivity
  have h1 : (1 : ℝ) + 2 * n ≠ 0 := by positivity
  have h2 : (2 : ℝ) * n + 1 ≠ 0 := by positivity
  rw [show (1 : ℝ) / (m * m) = (m : ℝ)⁻¹ ^ 2 by field_simp, ← pow_mul, pow_succ]
  rw [add_comm (1 : ℝ)]
  ring

theorem atanInv_start (m K : ℕ) (hm : 2 ≤ m) :
    |(atanInv (m * m) K 1 (2 ^ K / m) : ℝ) - 2 ^ K * Real.arctan (m : ℝ)⁻¹| ≤ 3 * K + 2 := by
  have hm' : (2 : ℝ) ≤ m := by exact_mod_cast hm
  have hmm : 2 ≤ m * m := hm.trans (Nat.le_mul_of_pos_left m (by omega))
  have hlt : 2 ^ K / m < 2 ^ K := Nat.div_lt_self (Nat.two_pow_pos K) (by omega)
  have h := atanInv_error (m * m) hmm K 1 (2 ^ K / m) le_rfl hlt
  have hmm' : (2 : ℝ) ≤ ((m * m : ℕ) : ℝ) := by exact_mod_cast hmm
  have hf := abs_atanSeries_le (q := 1 / ((m * m : ℕ) : ℝ)) (by positivity)
    (by rw [div_le_div_iff₀ (by positivity) (by norm_num)]; linarith) 1 le_rfl
  rw [arctan_eq_atanSeries m hm]
  set f := atanSeries (1 / ((m * m : ℕ) : ℝ)) 1
  have b0 : ((2 ^ K / m : ℕ) : ℝ) ≤ 2 ^ K / m := by
    have := Nat.cast_div_le (α := ℝ) (m := 2 ^ K) (n := m); simpa using this
  have b1 : (2 : ℝ) ^ K / m ≤ (2 ^ K / m : ℕ) + 1 := by
    rw [div_le_iff₀ (by linarith)]
    have := Nat.lt_div_mul_add (a := 2 ^ K) (b := m) (by omega)
    have : 2 ^ K ≤ (2 ^ K / m + 1) * m := by rw [Nat.add_mul, Nat.one_mul]; omega
    exact_mod_cast this
  have hsplit : (atanInv (m * m) K 1 (2 ^ K / m) : ℝ) - 2 ^ K * ((m : ℝ)⁻¹ * f) =
      ((atanInv (m * m) K 1 (2 ^ K / m) : ℝ) - (2 ^ K / m : ℕ) * f) + ((2 ^ K / m : ℕ) - 2 ^ K / m) * f := by
    rw [div_eq_mul_inv]; ring
  rw [hsplit]
  have h2 : |(((2 ^ K / m : ℕ) : ℝ) - 2 ^ K / m) * f| ≤ 2 := by
    rw [abs_mul]
    calc |((2 ^ K / m : ℕ) : ℝ) - 2 ^ K / m| * |f| ≤ 1 * 2 :=
          mul_le_mul (by rw [abs_le]; constructor <;> linarith) hf (abs_nonneg _) (by norm_num)
      _ = 2 := one_mul _
  exact (abs_add_le ..).trans (add_le_add h h2)

/-- `piFix` is π in units of `2^-K`, but for at most 60 units a term and 40. -/
theorem piFix_error (K : ℕ) : |(piFix K : ℝ) - 2 ^ K * Real.pi| ≤ 60 * K + 40 := by
  have h5 := atanInv_start 5 K (by omega)
  have h239 := atanInv_start 239 K (by omega)
  have hM := Real.four_mul_arctan_inv_5_sub_arctan_inv_239
  simp only [Nat.reduceMul, Nat.cast_ofNat] at h5 h239
  have hpi : 2 ^ K * Real.pi = 16 * (2 ^ K * Real.arctan 5⁻¹) - 4 * (2 ^ K * Real.arctan 239⁻¹) := by
    have : Real.pi = 16 * Real.arctan 5⁻¹ - 4 * Real.arctan 239⁻¹ := by linarith
    rw [this]; ring
  set a := atanInv 25 K 1 (2 ^ K / 5)
  set b := atanInv 57121 K 1 (2 ^ K / 239)
  have hv : |((16 * a - 4 * b : ℤ) : ℝ) - 2 ^ K * Real.pi| ≤ 60 * K + 40 := by
    rw [hpi]
    push_cast
    rw [abs_le] at h5 h239 ⊢
    constructor <;> nlinarith [h5.1, h5.2, h239.1, h239.2]
  have hnn : (0 : ℝ) ≤ 2 ^ K * Real.pi := by positivity
  have hto : ((16 * a - 4 * b).toNat : ℝ) = max ((16 * a - 4 * b : ℤ) : ℝ) 0 := by
    have := Int.toNat_eq_max (16 * a - 4 * b)
    exact_mod_cast this
  rw [piFix, hto]
  rw [abs_le] at hv ⊢
  rcases le_total ((16 * a - 4 * b : ℤ) : ℝ) 0 with h | h
  · rw [max_eq_right h]; constructor <;> linarith
  · rw [max_eq_left h]; exact hv

/-! ## What the enclosures enclose -/

/-- An enclosure in units of `2^-K` holds a real number. -/
def Ball.Encloses (K : ℕ) (b : Ball) (v : ℝ) : Prop := |(b.c : ℝ) - 2 ^ K * v| ≤ b.r

/-- What a sine or cosine may be off by, in units of `2^-K`: `2^19` for each term, and the error of the argument. -/
theorem trig_near {K x : ℕ} {y : ℝ} {f : ℝ → ℝ} {c : ℤ} (h1 : |(c : ℝ) - 2 ^ K * f (x / 2 ^ K)| ≤ K * 2 ^ 19)
    (hf : ∀ u v, |f u - f v| ≤ |u - v|) (hy : |(x : ℝ) - 2 ^ K * y| ≤ 2 ^ 6 * (K + 1)) :
    |(c : ℝ) - 2 ^ K * f y| ≤ 2 ^ 20 * (K + 1) := by
  have hpos : (0 : ℝ) < 2 ^ K := by positivity
  have harg : 2 ^ K * |(x : ℝ) / 2 ^ K - y| ≤ 2 ^ 6 * (K + 1) := by
    rw [← abs_of_pos hpos, ← abs_mul, abs_of_pos hpos, mul_sub, mul_div_cancel₀ _ hpos.ne']
    exact hy
  have h2 : |2 ^ K * (f (x / 2 ^ K) - f y)| ≤ 2 ^ 6 * (K + 1) := by
    rw [abs_mul, abs_of_pos hpos]
    exact (mul_le_mul_of_nonneg_left (hf ..) hpos.le).trans harg
  calc _ = |((c : ℝ) - 2 ^ K * f (x / 2 ^ K)) + 2 ^ K * (f (x / 2 ^ K) - f y)| := by congr 1; ring
    _ ≤ K * 2 ^ 19 + 2 ^ 6 * (K + 1) := (abs_add_le ..).trans (add_le_add h1 h2)
    _ ≤ 2 ^ 20 * (K + 1) := by
      have : (0 : ℝ) ≤ K := Nat.cast_nonneg K
      linarith

/-- The centre of `sinBall` is near the sine of whatever the argument stands for. -/
theorem sinBall_near {K x : ℕ} {y : ℝ} (hK : 192 ≤ K) (hx : x ≤ 13 * 2 ^ K)
    (hy : |(x : ℝ) - 2 ^ K * y| ≤ 2 ^ 6 * (K + 1)) :
    |((sinBall K x).c : ℝ) - 2 ^ K * Real.sin y| ≤ 2 ^ 20 * (K + 1) :=
  trig_near (sinBall_error K x hK hx) Real.abs_sin_sub_sin_le hy

/-- The centre of `cosBall` is near the cosine of whatever the argument stands for. -/
theorem cosBall_near {K x : ℕ} {y : ℝ} (hK : 192 ≤ K) (hx : x ≤ 13 * 2 ^ K)
    (hy : |(x : ℝ) - 2 ^ K * y| ≤ 2 ^ 6 * (K + 1)) :
    |((cosBall K x).c : ℝ) - 2 ^ K * Real.cos y| ≤ 2 ^ 20 * (K + 1) :=
  trig_near (cosBall_error K x hK hx) Real.abs_cos_sub_cos_le hy

theorem trig_radius {K : ℕ} (hK : K ≤ 2 ^ 21) : (2 : ℝ) ^ 20 * (K + 1) ≤ 2 ^ 48 := by
  have : (K : ℝ) ≤ 2 ^ 21 := by exact_mod_cast hK
  linarith

theorem sinBall_encloses {K x : ℕ} {y : ℝ} (hK : 192 ≤ K) (hK' : K ≤ 2 ^ 21) (hx : x ≤ 13 * 2 ^ K)
    (hy : |(x : ℝ) - 2 ^ K * y| ≤ 2 ^ 6 * (K + 1)) : (sinBall K x).Encloses K (Real.sin y) := by
  have e : ((sinBall K x).r : ℝ) = 2 ^ 48 := by rw [sinBall]; norm_num
  rw [Ball.Encloses, e]
  exact (sinBall_near hK hx hy).trans (trig_radius hK')

theorem cosBall_encloses {K x : ℕ} {y : ℝ} (hK : 192 ≤ K) (hK' : K ≤ 2 ^ 21) (hx : x ≤ 13 * 2 ^ K)
    (hy : |(x : ℝ) - 2 ^ K * y| ≤ 2 ^ 6 * (K + 1)) : (cosBall K x).Encloses K (Real.cos y) := by
  have e : ((cosBall K x).r : ℝ) = 2 ^ 48 := by rw [cosBall]; norm_num
  rw [Ball.Encloses, e]
  exact (cosBall_near hK hx hy).trans (trig_radius hK')

/-- A binary64 below 13, given in smallest subnormals, as an argument at a precision. -/
theorem reduceArg_small {K mag : ℕ} (h : mag < 13 * 2 ^ 1074) :
    reduceArg K mag ≤ 13 * 2 ^ K ∧ |(reduceArg K mag : ℝ) - 2 ^ K * (mag / 2 ^ 1074)| ≤ 2 ^ 6 * ((K : ℝ) + 1) := by
  have e : reduceArg K mag = mag * 2 ^ K / 2 ^ 1074 := by
    rw [reduceArg, if_pos h, Nat.shiftLeft_eq, Nat.shiftRight_eq_div_pow]
  have hQ : 0 < 2 ^ 1074 := by decide +kernel
  generalize hq : 2 ^ 1074 = Q at *
  have hq' : (2 : ℝ) ^ 1074 = Q := by rw [← hq]; push_cast; ring
  rw [hq', e]
  constructor
  · refine Nat.div_le_of_le_mul ?_
    calc mag * 2 ^ K ≤ 13 * Q * 2 ^ K := Nat.mul_le_mul_right _ h.le
      _ = Q * (13 * 2 ^ K) := by ring
  · have hQ' : (0 : ℝ) < Q := by exact_mod_cast hQ
    have b0 : ((mag * 2 ^ K / Q : ℕ) : ℝ) * Q ≤ mag * 2 ^ K := by exact_mod_cast Nat.div_mul_le_self ..
    have b1 : (mag * 2 ^ K : ℝ) ≤ ((mag * 2 ^ K / Q : ℕ) + 1) * Q := by
      have := Nat.lt_div_mul_add (a := mag * 2 ^ K) (b := Q) hQ
      have : mag * 2 ^ K ≤ (mag * 2 ^ K / Q + 1) * Q := by rw [Nat.add_mul, Nat.one_mul]; omega
      exact_mod_cast this
    have b2 : 2 ^ K * ((mag : ℝ) / Q) * Q = mag * 2 ^ K := by field_simp
    have hK0 : (0 : ℝ) ≤ K := Nat.cast_nonneg K
    rw [abs_le]
    constructor
    · have : 2 ^ K * ((mag : ℝ) / Q) ≤ (mag * 2 ^ K / Q : ℕ) + 1 := le_of_mul_le_mul_right (by linarith) hQ'
      linarith
    · have : ((mag * 2 ^ K / Q : ℕ) : ℝ) ≤ 2 ^ K * ((mag : ℝ) / Q) := le_of_mul_le_mul_right (by linarith) hQ'
      linarith

/-- From 192 places on, the number of places is small beside the number of units of 1. -/
theorem places_lt_units {K : ℕ} (hK : 192 ≤ K) : (2 : ℝ) ^ 60 * (K + 1) ≤ 2 ^ K := by
  have h : 2 ^ 60 * (K + 1) ≤ 2 ^ K := by
    induction K, hK using Nat.le_induction with
    | base => norm_num
    | succ K hK ih => rw [Nat.pow_succ]; omega
  exact_mod_cast h

/-- A rational multiple `j/d` of π below π/2 as an argument at a precision. -/
theorem piFix_arg {K j d : ℕ} (hK : 192 ≤ K) (hd : 0 < d) (hj : 2 * j ≤ d) :
    piFix K * j / d ≤ 13 * 2 ^ K ∧ |((piFix K * j / d : ℕ) : ℝ) - 2 ^ K * (Real.pi * j / d)| ≤ 2 ^ 6 * (K + 1) := by
  have h := piFix_error K
  have hP := places_lt_units hK
  have hK0 : (0 : ℝ) ≤ K := Nat.cast_nonneg K
  have hd' : (0 : ℝ) < d := by exact_mod_cast hd
  have hj' : 2 * (j : ℝ) ≤ d := by exact_mod_cast hj
  have hj0 : (0 : ℝ) ≤ j := by positivity
  have b0 : ((piFix K * j / d : ℕ) : ℝ) * d ≤ piFix K * j := by exact_mod_cast Nat.div_mul_le_self ..
  have b1 : (piFix K * j : ℝ) ≤ ((piFix K * j / d : ℕ) + 1) * d := by
    have := Nat.lt_div_mul_add (a := piFix K * j) (b := d) hd
    have : piFix K * j ≤ (piFix K * j / d + 1) * d := by rw [Nat.add_mul, Nat.one_mul]; omega
    exact_mod_cast this
  have b2 : 2 ^ K * (Real.pi * j / d) * d = 2 ^ K * Real.pi * j := by field_simp
  have herr : |((piFix K * j / d : ℕ) : ℝ) - 2 ^ K * (Real.pi * j / d)| ≤ 2 ^ 6 * (K + 1) := by
    rw [abs_le] at h ⊢
    have e1 := mul_le_mul_of_nonneg_right h.1 hj0
    have e2 := mul_le_mul_of_nonneg_right h.2 hj0
    rw [sub_mul] at e1 e2
    constructor
    · refine le_of_mul_le_mul_right ?_ hd'
      rw [sub_mul, b2]
      nlinarith
    · refine le_of_mul_le_mul_right ?_ hd'
      rw [sub_mul, b2]
      nlinarith
  refine ⟨?_, herr⟩
  have hle : ((piFix K * j / d : ℕ) : ℝ) ≤ 13 * 2 ^ K := by
    have h3 : Real.pi * j / d ≤ 2 := by
      rw [div_le_iff₀ hd']
      nlinarith [Real.pi_le_four, Real.pi_pos]
    have h4 : 2 ^ K * (Real.pi * j / d) ≤ 2 ^ K * 2 := mul_le_mul_of_nonneg_left h3 (by positivity)
    rw [abs_le] at herr
    linarith [herr.2]
  exact_mod_cast hle

/-- Squaring a fixed-point number and scaling it back, with one floor. -/
theorem square_error {P s : ℤ} {v : ℝ} (hP : (2 : ℝ) ^ 100 ≤ P) (hv : |v| ≤ 1) (h : |(s : ℝ) - P * v| ≤ 2 ^ 41) :
    |((s * s / P : ℤ) : ℝ) - P * v ^ 2| ≤ 2 ^ 50 := by
  have hPr : (0 : ℝ) < P := lt_of_lt_of_le (by norm_num) hP
  have hPpos : (0 : ℤ) < P := by exact_mod_cast hPr
  have c0 : ((s * s / P : ℤ) : ℝ) * P ≤ s * s := by exact_mod_cast Int.ediv_mul_le _ hPpos.ne'
  have c1 : (s * s : ℝ) ≤ ((s * s / P : ℤ) + 1) * P := by
    exact_mod_cast (Int.lt_ediv_add_one_mul_self (s * s) hPpos).le
  -- `s = P v + δ` with a small `δ`
  set δ : ℝ := s - P * v with hδ
  have hs : (s : ℝ) = P * v + δ := by rw [hδ]; ring
  have hss : |(s * s : ℝ) - P * (P * v ^ 2)| ≤ P * 2 ^ 43 := by
    have : (s * s : ℝ) - P * (P * v ^ 2) = P * (2 * v * δ) + δ * δ := by rw [hs]; ring
    rw [this]
    have m1 : |2 * v * δ| ≤ 2 ^ 42 := by
      rw [abs_mul, abs_mul, abs_two]
      calc 2 * |v| * |δ| ≤ 2 * 1 * 2 ^ 41 := by gcongr
        _ = 2 ^ 42 := by norm_num
    have m2 : |δ * δ| ≤ 2 ^ 82 := by
      rw [abs_mul]
      calc |δ| * |δ| ≤ 2 ^ 41 * 2 ^ 41 := by gcongr
        _ = 2 ^ 82 := by norm_num
    calc _ ≤ |P * (2 * v * δ)| + |δ * δ| := abs_add_le ..
      _ ≤ P * 2 ^ 42 + 2 ^ 82 := by
        rw [abs_mul, abs_of_pos hPr]
        exact add_le_add (mul_le_mul_of_nonneg_left m1 hPr.le) m2
      _ ≤ P * 2 ^ 43 := by linarith
  rw [abs_le] at hss ⊢
  constructor
  · refine le_of_mul_le_mul_right ?_ hPr
    linarith [hss.1]
  · refine le_of_mul_le_mul_right ?_ hPr
    linarith [hss.2]

/-- The enclosure of the window formula (spec/40_window_table.md R120, R121). -/
theorem windowBall_encloses (i : ℕ) (hi : i < 512) : (windowBall i).Encloses 512 (Real.sin (Real.pi * i / 1023) ^ 2) := by
  rw [windowBall]
  split
  · next h =>
    subst h
    have e : Real.pi * (341 : ℕ) / 1023 = Real.pi / 3 := by push_cast; ring
    rw [Ball.Encloses, e, Real.sq_sin_pi_div_three]
    have h4 : (2 : ℝ) ^ 512 = 2 ^ 510 * 4 := by rw [show 512 = 510 + 2 from rfl, pow_add]; norm_num
    have : ((3 * 2 ^ 510 : ℤ) : ℝ) = 2 ^ 512 * (3 / 4) := by
      rw [h4, Int.cast_mul, Int.cast_pow, Int.cast_ofNat, Int.cast_ofNat]
      generalize (2 : ℝ) ^ 510 = P
      ring
    simp only [this, sub_self, abs_zero, Nat.cast_zero, le_refl]
  · obtain ⟨h1, h2⟩ := piFix_arg (K := 512) (j := i) (d := 1023) (by norm_num) (by norm_num) (by omega)
    have h := sinBall_near (by norm_num) h1 h2
    rw [Nat.cast_ofNat, Nat.cast_ofNat] at h
    have hP : (2 : ℝ) ^ 100 ≤ ((2 ^ 512 : ℤ) : ℝ) := by
      rw [Int.cast_pow, Int.cast_ofNat]
      exact pow_le_pow_right₀ (by norm_num) (by norm_num)
    have e : (2 : ℝ) ^ 512 = ((2 ^ 512 : ℤ) : ℝ) := by rw [Int.cast_pow, Int.cast_ofNat]
    have hr : ((2 ^ 50 : ℕ) : ℝ) = 2 ^ 50 := by norm_num
    rw [e] at h
    have := square_error hP (Real.abs_sin_le_one _) (h.trans (by norm_num))
    rw [Ball.Encloses, e]
    simp only [hr]
    exact this

/-- The tap of R165, `h[j] = (2/1024)·cot(π·j/1024)` for an odd `j`. -/
noncomputable def tapValue (j : ℕ) : ℝ := Real.cos (Real.pi * j / 1024) / Real.sin (Real.pi * j / 1024) / 512

/-- The enclosure of a tap. -/
theorem tapBall_encloses {K j : ℕ} (hK : 192 ≤ K) (h0 : 1 ≤ j) (hj : j < 512) :
    (tapBall K j).Encloses K (tapValue j) := by
  obtain ⟨h1, h2⟩ := piFix_arg (K := K) (j := j) (d := 1024) hK (by norm_num) (by omega)
  have hs := sinBall_near hK h1 h2
  have hc := cosBall_near hK h1 h2
  rw [Nat.cast_ofNat] at hs hc
  have hr : ((2 ^ 32 * (K + 1) : ℕ) : ℝ) = 2 ^ 32 * (K + 1) := by push_cast; ring
  simp only [tapBall, Ball.Encloses, tapValue, hr]
  have hE := places_lt_units hK
  have hE0 : (1 : ℝ) ≤ K + 1 := by
    have : (0 : ℝ) ≤ K := Nat.cast_nonneg K
    linarith
  set E : ℝ := K + 1
  generalize (sinBall K (piFix K * j / 1024)).c = S at hs
  generalize (cosBall K (piFix K * j / 1024)).c = C at hc
  set θ : ℝ := Real.pi * j / 1024 with hθ
  have hj1 : (1 : ℝ) ≤ j := by exact_mod_cast h0
  have hj2 : (j : ℝ) ≤ 512 := by exact_mod_cast hj.le
  have hsin : 1 / 512 ≤ Real.sin θ := by
    have hθ0 : 0 ≤ θ := by rw [hθ]; positivity
    have hθ1 : θ ≤ Real.pi / 2 := by
      rw [hθ]
      have := mul_le_mul_of_nonneg_left hj2 Real.pi_pos.le
      linarith
    have h := Real.mul_le_sin hθ0 hθ1
    have e : 2 / Real.pi * θ = j / 512 := by rw [hθ]; field_simp; norm_num
    rw [e] at h
    linarith
  have hsin1 := Real.sin_le_one θ
  have hcos1 := Real.abs_cos_le_one θ
  have hcast : ((2 : ℤ) ^ K : ℝ) = ((2 ^ K : ℤ) : ℝ) := by push_cast; ring
  generalize hPdef : (2 : ℤ) ^ K = P at *
  have hP' : (2 : ℝ) ^ K = P := by rw [← hPdef]; push_cast; ring
  rw [hP'] at hE hs hc ⊢
  set sn := Real.sin θ
  set cs := Real.cos θ
  have hPr : (0 : ℝ) < P := lt_of_lt_of_le (by positivity) hE
  -- the sine is well above its error
  have hSlow : (P : ℝ) / 1024 ≤ S := by
    rw [abs_le] at hs
    have : (P : ℝ) * (1 / 512) ≤ P * sn := mul_le_mul_of_nonneg_left hsin hPr.le
    linarith [hs.1]
  have hSr : (0 : ℝ) < S := lt_of_lt_of_le (by positivity) hSlow
  have hSpos : (0 : ℤ) < S := by exact_mod_cast hSr
  have hsnpos : (0 : ℝ) < sn := lt_of_lt_of_le (by norm_num) hsin
  -- the quotient before its floors
  have hq : |(C * P / S : ℝ) - P * (cs / sn)| ≤ 2 ^ 40 * E := by
    have e : (C * P / S : ℝ) - P * (cs / sn) = P * ((C - P * cs) * sn - cs * (S - P * sn)) / (S * sn) := by
      field_simp; ring
    rw [e, abs_div, abs_of_pos (mul_pos hSr hsnpos), div_le_iff₀ (mul_pos hSr hsnpos), abs_mul, abs_of_pos hPr]
    have hnum : |(C - P * cs) * sn - cs * (S - P * sn)| ≤ 2 ^ 21 * E := by
      calc _ ≤ |(C - P * cs) * sn| + |cs * (S - P * sn)| := abs_sub ..
        _ ≤ 2 ^ 20 * E * 1 + 1 * (2 ^ 20 * E) := by
          rw [abs_mul, abs_mul, abs_of_pos hsnpos]
          gcongr
        _ = 2 ^ 21 * E := by ring
    have hden : (P : ℝ) / 1024 * (1 / 512) ≤ S * sn := mul_le_mul hSlow hsin (by norm_num) hSr.le
    calc (P : ℝ) * |(C - P * cs) * sn - cs * (S - P * sn)| ≤ P * (2 ^ 21 * E) := mul_le_mul_of_nonneg_left hnum hPr.le
      _ = 2 ^ 40 * E * (P / 1024 * (1 / 512)) := by ring
      _ ≤ 2 ^ 40 * E * (S * sn) := mul_le_mul_of_nonneg_left hden (by positivity)
  have q0 : ((C * P / S : ℤ) : ℝ) ≤ C * P / S := by
    rw [le_div_iff₀ hSr]; exact_mod_cast Int.ediv_mul_le _ hSpos.ne'
  have q1 : (C * P / S : ℝ) ≤ (C * P / S : ℤ) + 1 := by
    rw [div_le_iff₀ hSr]
    exact_mod_cast (Int.lt_ediv_add_one_mul_self (C * P) hSpos).le
  generalize (C * P / S : ℤ) = Q at q0 q1
  have d0 : ((Q / 512 : ℤ) : ℝ) * 512 ≤ Q := by exact_mod_cast Int.ediv_mul_le Q (by norm_num : (512 : ℤ) ≠ 0)
  have d1 : (Q : ℝ) ≤ ((Q / 512 : ℤ) + 1) * 512 := by
    exact_mod_cast (Int.lt_ediv_add_one_mul_self Q (by norm_num : (0 : ℤ) < 512)).le
  rw [abs_le] at hq ⊢
  have e : (P : ℝ) * (cs / sn / 512) = P * (cs / sn) / 512 := by ring
  rw [e]
  constructor <;> linarith [hq.1, hq.2]

end Sys2Proof.Machine
end

