-- ==== Sys2Proof/Laws/State.lean ====
section
/-! SUPPORT. One lemma for each field and each update of the state, an instance or STATUS, so that no later proof unfolds a
record update. An update's own field is left out where its new value is an array given entry by entry (see
`Laws/Pipeline.lean`). -/

namespace Sys2Proof.Machine

open Sys2Proof Sys2Proof.Config


/-! ### Status -/

@[simp] theorem Status.idle_init (st : Status) : (Status.idle st).init = st.init := rfl
@[simp] theorem Status.idle_busy (st : Status) : (Status.idle st).busy = false := rfl
@[simp] theorem Status.idle_err (st : Status) : (Status.idle st).err = st.err := rfl
@[simp] theorem Status.idle_errMulti (st : Status) : (Status.idle st).errMulti = st.errMulti := rfl
@[simp] theorem Status.idle_fatal (st : Status) : (Status.idle st).fatal = st.fatal := rfl
@[simp] theorem Status.idle_errCode (st : Status) : (Status.idle st).errCode = st.errCode := rfl
@[simp] theorem Status.clearErrors_init (st : Status) : (Status.clearErrors st).init = st.init := rfl
@[simp] theorem Status.clearErrors_busy (st : Status) : (Status.clearErrors st).busy = st.busy := rfl
@[simp] theorem Status.clearErrors_err (st : Status) : (Status.clearErrors st).err = false := rfl
@[simp] theorem Status.clearErrors_errMulti (st : Status) : (Status.clearErrors st).errMulti = false := rfl
@[simp] theorem Status.clearErrors_fatal (st : Status) : (Status.clearErrors st).fatal = st.fatal := rfl
@[simp] theorem Status.clearErrors_errCode (st : Status) : (Status.clearErrors st).errCode = 0 := rfl

/-! ### State -/

@[simp] theorem State.withInst_cfg (s : State) (u : Instance) : (s.withInst u).cfg = s.cfg := rfl
@[simp] theorem State.withInst_before (s : State) (u : Instance) : (s.withInst u).before = s.before := rfl
@[simp] theorem State.withInst_inst (s : State) (u : Instance) : (s.withInst u).inst = u := rfl
@[simp] theorem State.withInst_after (s : State) (u : Instance) : (s.withInst u).after = s.after := rfl
@[simp] theorem State.withInst_host (s : State) (u : Instance) : (s.withInst u).host = s.host := rfl
@[simp] theorem State.withInst_reads (s : State) (u : Instance) : (s.withInst u).reads = s.reads := rfl
@[simp] theorem State.withInst_draws (s : State) (u : Instance) : (s.withInst u).draws = s.draws := rfl
@[simp] theorem State.complete_cfg (s : State) (u : Instance) : (s.complete u).cfg = s.cfg := rfl
@[simp] theorem State.complete_before (s : State) (u : Instance) : (s.complete u).before = s.before := rfl
@[simp] theorem State.complete_inst (s : State) (u : Instance) : (s.complete u).inst = { u with status := u.status.idle } := rfl
@[simp] theorem State.complete_after (s : State) (u : Instance) : (s.complete u).after = s.after := rfl
@[simp] theorem State.complete_host (s : State) (u : Instance) : (s.complete u).host = s.host := rfl
@[simp] theorem State.complete_reads (s : State) (u : Instance) : (s.complete u).reads = s.reads := rfl
@[simp] theorem State.complete_draws (s : State) (u : Instance) : (s.complete u).draws = s.draws := rfl
@[simp] theorem State.raise_cfg (s : State) (e : ErrorName) : (s.raise e).cfg = s.cfg := rfl
@[simp] theorem State.raise_before (s : State) (e : ErrorName) : (s.raise e).before = s.before := rfl
@[simp] theorem State.raise_inst (s : State) (e : ErrorName) : (s.raise e).inst = { s.inst with status := (s.inst.status.record e).idle } := rfl
@[simp] theorem State.raise_after (s : State) (e : ErrorName) : (s.raise e).after = s.after := rfl
@[simp] theorem State.raise_host (s : State) (e : ErrorName) : (s.raise e).host = s.host := rfl
@[simp] theorem State.raise_reads (s : State) (e : ErrorName) : (s.raise e).reads = s.reads := rfl
@[simp] theorem State.raise_draws (s : State) (e : ErrorName) : (s.raise e).draws = s.draws := rfl
@[simp] theorem State.drawn_cfg (s : State) : (s.drawn).cfg = s.cfg := rfl
@[simp] theorem State.drawn_before (s : State) : (s.drawn).before = s.before := rfl
@[simp] theorem State.drawn_inst (s : State) : (s.drawn).inst = s.inst := rfl
@[simp] theorem State.drawn_after (s : State) : (s.drawn).after = s.after := rfl
@[simp] theorem State.drawn_host (s : State) : (s.drawn).host = s.host := rfl
@[simp] theorem State.drawn_reads (s : State) : (s.drawn).reads = s.reads := rfl
@[simp] theorem State.drawn_draws (s : State) : (s.drawn).draws = s.draws + 1 := rfl
@[simp] theorem State.setFatal_cfg (s : State) : (s.setFatal).cfg = s.cfg := rfl
@[simp] theorem State.setFatal_before (s : State) : (s.setFatal).before = s.before := rfl
@[simp] theorem State.setFatal_inst (s : State) : (s.setFatal).inst = { s.inst with status := { s.inst.status with fatal := true } } := rfl
@[simp] theorem State.setFatal_after (s : State) : (s.setFatal).after = s.after := rfl
@[simp] theorem State.setFatal_host (s : State) : (s.setFatal).host = s.host := rfl
@[simp] theorem State.setFatal_reads (s : State) : (s.setFatal).reads = s.reads := rfl
@[simp] theorem State.setFatal_draws (s : State) : (s.setFatal).draws = s.draws := rfl
@[simp] theorem State.tick_cfg (s : State) : (s.tick).cfg = s.cfg := rfl
@[simp] theorem State.tick_before (s : State) : (s.tick).before = s.before.map Instance.tick := rfl
@[simp] theorem State.tick_inst (s : State) : (s.tick).inst = s.inst.tick := rfl
@[simp] theorem State.tick_after (s : State) : (s.tick).after = s.after.map Instance.tick := rfl
@[simp] theorem State.tick_host (s : State) : (s.tick).host = s.host := rfl
@[simp] theorem State.tick_reads (s : State) : (s.tick).reads = s.reads := rfl
@[simp] theorem State.tick_draws (s : State) : (s.tick).draws = s.draws := rfl
@[simp] theorem State.answered_cfg (s : State) (rest : List HostOp) (vs : List Word) : (s.answered rest vs).cfg = s.cfg := rfl
@[simp] theorem State.answered_before (s : State) (rest : List HostOp) (vs : List Word) : (s.answered rest vs).before = s.before := rfl
@[simp] theorem State.answered_inst (s : State) (rest : List HostOp) (vs : List Word) : (s.answered rest vs).inst = s.inst := rfl
@[simp] theorem State.answered_after (s : State) (rest : List HostOp) (vs : List Word) : (s.answered rest vs).after = s.after := rfl
@[simp] theorem State.answered_host (s : State) (rest : List HostOp) (vs : List Word) : (s.answered rest vs).host = rest := rfl
@[simp] theorem State.answered_reads (s : State) (rest : List HostOp) (vs : List Word) : (s.answered rest vs).reads = s.reads ++ vs := rfl
@[simp] theorem State.answered_draws (s : State) (rest : List HostOp) (vs : List Word) : (s.answered rest vs).draws = s.draws + 1 := rfl

/-! ### Instance: commands and the bus -/

@[simp] theorem resetInstance_inputRing (nmax n : Nat) (u : Instance) : (resetInstance nmax n u).inputRing = List.replicate 1024 0 := rfl
@[simp] theorem resetInstance_count (nmax n : Nat) (u : Instance) : (resetInstance nmax n u).count = 768 := rfl
@[simp] theorem resetInstance_analytic (nmax n : Nat) (u : Instance) : (resetInstance nmax n u).analytic = List.replicate 1024 C64.zero := rfl
@[simp] theorem resetInstance_accum (nmax n : Nat) (u : Instance) : (resetInstance nmax n u).accum = List.replicate 2048 C64.zero := rfl
@[simp] theorem resetInstance_outStage (nmax n : Nat) (u : Instance) : (resetInstance nmax n u).outStage = List.replicate 1024 C64.zero := rfl
@[simp] theorem resetInstance_outdata (nmax n : Nat) (u : Instance) : (resetInstance nmax n u).outdata = List.replicate nmax C64.zero := rfl
@[simp] theorem resetInstance_rawOut (nmax n : Nat) (u : Instance) : (resetInstance nmax n u).rawOut = List.replicate nmax 0 := rfl
@[simp] theorem resetInstance_fracFreq (nmax n : Nat) (u : Instance) : (resetInstance nmax n u).fracFreq = 0 := rfl
@[simp] theorem resetInstance_inc (nmax n : Nat) (u : Instance) : (resetInstance nmax n u).inc = 0 := rfl
@[simp] theorem resetInstance_sign (nmax n : Nat) (u : Instance) : (resetInstance nmax n u).sign = 0 := rfl
@[simp] theorem resetInstance_current (nmax n : Nat) (u : Instance) : (resetInstance nmax n u).current = List.replicate 16 0 := rfl
@[simp] theorem resetInstance_target (nmax n : Nat) (u : Instance) : (resetInstance nmax n u).target = List.replicate 16 0 := rfl
@[simp] theorem resetInstance_nch (nmax n : Nat) (u : Instance) : (resetInstance nmax n u).nch = n := rfl
@[simp] theorem resetInstance_status (nmax n : Nat) (u : Instance) : (resetInstance nmax n u).status = { u.status with init := true } := rfl
@[simp] theorem resetInstance_freqLo (nmax n : Nat) (u : Instance) : (resetInstance nmax n u).freqLo = u.freqLo := rfl
@[simp] theorem resetInstance_freqHi (nmax n : Nat) (u : Instance) : (resetInstance nmax n u).freqHi = u.freqHi := rfl
@[simp] theorem resetInstance_gainData (nmax n : Nat) (u : Instance) : (resetInstance nmax n u).gainData = u.gainData := rfl
@[simp] theorem resetInstance_pcmd (nmax n : Nat) (u : Instance) : (resetInstance nmax n u).pcmd = u.pcmd := rfl
@[simp] theorem resetInstance_pfreq (nmax n : Nat) (u : Instance) : (resetInstance nmax n u).pfreq = u.pfreq := rfl
@[simp] theorem resetInstance_pgain (nmax n : Nat) (u : Instance) : (resetInstance nmax n u).pgain = u.pgain := rfl
@[simp] theorem resetInstance_mem (nmax n : Nat) (u : Instance) : (resetInstance nmax n u).mem = u.mem := rfl
@[simp] theorem resetInstance_delay (nmax n : Nat) (u : Instance) : (resetInstance nmax n u).delay = u.delay := rfl
@[simp] theorem accept_inputRing (d : Nat) (w : Word) (u : Instance) : (accept d w u).inputRing = u.inputRing := rfl
@[simp] theorem accept_count (d : Nat) (w : Word) (u : Instance) : (accept d w u).count = u.count := rfl
@[simp] theorem accept_analytic (d : Nat) (w : Word) (u : Instance) : (accept d w u).analytic = u.analytic := rfl
@[simp] theorem accept_accum (d : Nat) (w : Word) (u : Instance) : (accept d w u).accum = u.accum := rfl
@[simp] theorem accept_outStage (d : Nat) (w : Word) (u : Instance) : (accept d w u).outStage = u.outStage := rfl
@[simp] theorem accept_outdata (d : Nat) (w : Word) (u : Instance) : (accept d w u).outdata = u.outdata := rfl
@[simp] theorem accept_rawOut (d : Nat) (w : Word) (u : Instance) : (accept d w u).rawOut = u.rawOut := rfl
@[simp] theorem accept_fracFreq (d : Nat) (w : Word) (u : Instance) : (accept d w u).fracFreq = u.fracFreq := rfl
@[simp] theorem accept_inc (d : Nat) (w : Word) (u : Instance) : (accept d w u).inc = u.inc := rfl
@[simp] theorem accept_sign (d : Nat) (w : Word) (u : Instance) : (accept d w u).sign = u.sign := rfl
@[simp] theorem accept_current (d : Nat) (w : Word) (u : Instance) : (accept d w u).current = u.current := rfl
@[simp] theorem accept_target (d : Nat) (w : Word) (u : Instance) : (accept d w u).target = u.target := rfl
@[simp] theorem accept_nch (d : Nat) (w : Word) (u : Instance) : (accept d w u).nch = u.nch := rfl
@[simp] theorem accept_status (d : Nat) (w : Word) (u : Instance) : (accept d w u).status = { u.status with busy := true } := rfl
@[simp] theorem accept_freqLo (d : Nat) (w : Word) (u : Instance) : (accept d w u).freqLo = u.freqLo := rfl
@[simp] theorem accept_freqHi (d : Nat) (w : Word) (u : Instance) : (accept d w u).freqHi = u.freqHi := rfl
@[simp] theorem accept_gainData (d : Nat) (w : Word) (u : Instance) : (accept d w u).gainData = u.gainData := rfl
@[simp] theorem accept_pcmd (d : Nat) (w : Word) (u : Instance) : (accept d w u).pcmd = w := rfl
@[simp] theorem accept_pfreq (d : Nat) (w : Word) (u : Instance) : (accept d w u).pfreq = u.freqHi ++ u.freqLo := rfl
@[simp] theorem accept_pgain (d : Nat) (w : Word) (u : Instance) : (accept d w u).pgain = u.gainData := rfl
@[simp] theorem accept_mem (d : Nat) (w : Word) (u : Instance) : (accept d w u).mem = u.mem := rfl
@[simp] theorem accept_delay (d : Nat) (w : Word) (u : Instance) : (accept d w u).delay = d := rfl
@[simp] theorem Instance.tick_inputRing (u : Instance) : (u.tick).inputRing = u.inputRing := rfl
@[simp] theorem Instance.tick_count (u : Instance) : (u.tick).count = u.count := rfl
@[simp] theorem Instance.tick_analytic (u : Instance) : (u.tick).analytic = u.analytic := rfl
@[simp] theorem Instance.tick_accum (u : Instance) : (u.tick).accum = u.accum := rfl
@[simp] theorem Instance.tick_outStage (u : Instance) : (u.tick).outStage = u.outStage := rfl
@[simp] theorem Instance.tick_outdata (u : Instance) : (u.tick).outdata = u.outdata := rfl
@[simp] theorem Instance.tick_rawOut (u : Instance) : (u.tick).rawOut = u.rawOut := rfl
@[simp] theorem Instance.tick_fracFreq (u : Instance) : (u.tick).fracFreq = u.fracFreq := rfl
@[simp] theorem Instance.tick_inc (u : Instance) : (u.tick).inc = u.inc := rfl
@[simp] theorem Instance.tick_sign (u : Instance) : (u.tick).sign = u.sign := rfl
@[simp] theorem Instance.tick_current (u : Instance) : (u.tick).current = u.current := rfl
@[simp] theorem Instance.tick_target (u : Instance) : (u.tick).target = u.target := rfl
@[simp] theorem Instance.tick_nch (u : Instance) : (u.tick).nch = u.nch := rfl
@[simp] theorem Instance.tick_status (u : Instance) : (u.tick).status = u.status := rfl
@[simp] theorem Instance.tick_freqLo (u : Instance) : (u.tick).freqLo = u.freqLo := rfl
@[simp] theorem Instance.tick_freqHi (u : Instance) : (u.tick).freqHi = u.freqHi := rfl
@[simp] theorem Instance.tick_gainData (u : Instance) : (u.tick).gainData = u.gainData := rfl
@[simp] theorem Instance.tick_pcmd (u : Instance) : (u.tick).pcmd = u.pcmd := rfl
@[simp] theorem Instance.tick_pfreq (u : Instance) : (u.tick).pfreq = u.pfreq := rfl
@[simp] theorem Instance.tick_pgain (u : Instance) : (u.tick).pgain = u.pgain := rfl
@[simp] theorem Instance.tick_mem (u : Instance) : (u.tick).mem = u.mem := rfl
@[simp] theorem Instance.tick_delay (u : Instance) : (u.tick).delay = u.delay - 1 := rfl

/-! ### Instance: the pipeline -/

@[simp] theorem window_inputRing (p : Params) (step k : Nat) (u : Instance) : (window p step k u).inputRing = u.inputRing := rfl
@[simp] theorem window_count (p : Params) (step k : Nat) (u : Instance) : (window p step k u).count = u.count := rfl
@[simp] theorem window_accum (p : Params) (step k : Nat) (u : Instance) : (window p step k u).accum = u.accum := rfl
@[simp] theorem window_outStage (p : Params) (step k : Nat) (u : Instance) : (window p step k u).outStage = u.outStage := rfl
@[simp] theorem window_outdata (p : Params) (step k : Nat) (u : Instance) : (window p step k u).outdata = u.outdata := rfl
@[simp] theorem window_rawOut (p : Params) (step k : Nat) (u : Instance) : (window p step k u).rawOut = u.rawOut := rfl
@[simp] theorem window_fracFreq (p : Params) (step k : Nat) (u : Instance) : (window p step k u).fracFreq = u.fracFreq := rfl
@[simp] theorem window_inc (p : Params) (step k : Nat) (u : Instance) : (window p step k u).inc = u.inc := rfl
@[simp] theorem window_sign (p : Params) (step k : Nat) (u : Instance) : (window p step k u).sign = u.sign := rfl
@[simp] theorem window_current (p : Params) (step k : Nat) (u : Instance) : (window p step k u).current = u.current := rfl
@[simp] theorem window_target (p : Params) (step k : Nat) (u : Instance) : (window p step k u).target = u.target := rfl
@[simp] theorem window_nch (p : Params) (step k : Nat) (u : Instance) : (window p step k u).nch = u.nch := rfl
@[simp] theorem window_status (p : Params) (step k : Nat) (u : Instance) : (window p step k u).status = u.status := rfl
@[simp] theorem window_freqLo (p : Params) (step k : Nat) (u : Instance) : (window p step k u).freqLo = u.freqLo := rfl
@[simp] theorem window_freqHi (p : Params) (step k : Nat) (u : Instance) : (window p step k u).freqHi = u.freqHi := rfl
@[simp] theorem window_gainData (p : Params) (step k : Nat) (u : Instance) : (window p step k u).gainData = u.gainData := rfl
@[simp] theorem window_pcmd (p : Params) (step k : Nat) (u : Instance) : (window p step k u).pcmd = u.pcmd := rfl
@[simp] theorem window_pfreq (p : Params) (step k : Nat) (u : Instance) : (window p step k u).pfreq = u.pfreq := rfl
@[simp] theorem window_pgain (p : Params) (step k : Nat) (u : Instance) : (window p step k u).pgain = u.pgain := rfl
@[simp] theorem window_mem (p : Params) (step k : Nat) (u : Instance) : (window p step k u).mem = u.mem := rfl
@[simp] theorem window_delay (p : Params) (step k : Nat) (u : Instance) : (window p step k u).delay = u.delay := rfl
@[simp] theorem hilbertStep_inputRing (p : Params) (step k : Nat) (u : Instance) : (hilbertStep p step k u).inputRing = u.inputRing := rfl
@[simp] theorem hilbertStep_count (p : Params) (step k : Nat) (u : Instance) : (hilbertStep p step k u).count = u.count := rfl
@[simp] theorem hilbertStep_analytic (p : Params) (step k : Nat) (u : Instance) : (hilbertStep p step k u).analytic = hilbert p step k u.analytic := rfl
@[simp] theorem hilbertStep_accum (p : Params) (step k : Nat) (u : Instance) : (hilbertStep p step k u).accum = u.accum := rfl
@[simp] theorem hilbertStep_outStage (p : Params) (step k : Nat) (u : Instance) : (hilbertStep p step k u).outStage = u.outStage := rfl
@[simp] theorem hilbertStep_outdata (p : Params) (step k : Nat) (u : Instance) : (hilbertStep p step k u).outdata = u.outdata := rfl
@[simp] theorem hilbertStep_rawOut (p : Params) (step k : Nat) (u : Instance) : (hilbertStep p step k u).rawOut = u.rawOut := rfl
@[simp] theorem hilbertStep_fracFreq (p : Params) (step k : Nat) (u : Instance) : (hilbertStep p step k u).fracFreq = u.fracFreq := rfl
@[simp] theorem hilbertStep_inc (p : Params) (step k : Nat) (u : Instance) : (hilbertStep p step k u).inc = u.inc := rfl
@[simp] theorem hilbertStep_sign (p : Params) (step k : Nat) (u : Instance) : (hilbertStep p step k u).sign = u.sign := rfl
@[simp] theorem hilbertStep_current (p : Params) (step k : Nat) (u : Instance) : (hilbertStep p step k u).current = u.current := rfl
@[simp] theorem hilbertStep_target (p : Params) (step k : Nat) (u : Instance) : (hilbertStep p step k u).target = u.target := rfl
@[simp] theorem hilbertStep_nch (p : Params) (step k : Nat) (u : Instance) : (hilbertStep p step k u).nch = u.nch := rfl
@[simp] theorem hilbertStep_status (p : Params) (step k : Nat) (u : Instance) : (hilbertStep p step k u).status = u.status := rfl
@[simp] theorem hilbertStep_freqLo (p : Params) (step k : Nat) (u : Instance) : (hilbertStep p step k u).freqLo = u.freqLo := rfl
@[simp] theorem hilbertStep_freqHi (p : Params) (step k : Nat) (u : Instance) : (hilbertStep p step k u).freqHi = u.freqHi := rfl
@[simp] theorem hilbertStep_gainData (p : Params) (step k : Nat) (u : Instance) : (hilbertStep p step k u).gainData = u.gainData := rfl
@[simp] theorem hilbertStep_pcmd (p : Params) (step k : Nat) (u : Instance) : (hilbertStep p step k u).pcmd = u.pcmd := rfl
@[simp] theorem hilbertStep_pfreq (p : Params) (step k : Nat) (u : Instance) : (hilbertStep p step k u).pfreq = u.pfreq := rfl
@[simp] theorem hilbertStep_pgain (p : Params) (step k : Nat) (u : Instance) : (hilbertStep p step k u).pgain = u.pgain := rfl
@[simp] theorem hilbertStep_mem (p : Params) (step k : Nat) (u : Instance) : (hilbertStep p step k u).mem = u.mem := rfl
@[simp] theorem hilbertStep_delay (p : Params) (step k : Nat) (u : Instance) : (hilbertStep p step k u).delay = u.delay := rfl
@[simp] theorem accumulate_inputRing (p : Params) (step k : Nat) (u : Instance) : (accumulate p step k u).inputRing = u.inputRing := rfl
@[simp] theorem accumulate_count (p : Params) (step k : Nat) (u : Instance) : (accumulate p step k u).count = u.count := rfl
@[simp] theorem accumulate_analytic (p : Params) (step k : Nat) (u : Instance) : (accumulate p step k u).analytic = u.analytic := rfl
@[simp] theorem accumulate_outStage (p : Params) (step k : Nat) (u : Instance) : (accumulate p step k u).outStage = u.outStage := rfl
@[simp] theorem accumulate_outdata (p : Params) (step k : Nat) (u : Instance) : (accumulate p step k u).outdata = u.outdata := rfl
@[simp] theorem accumulate_rawOut (p : Params) (step k : Nat) (u : Instance) : (accumulate p step k u).rawOut = u.rawOut := rfl
@[simp] theorem accumulate_fracFreq (p : Params) (step k : Nat) (u : Instance) : (accumulate p step k u).fracFreq = u.fracFreq := rfl
@[simp] theorem accumulate_inc (p : Params) (step k : Nat) (u : Instance) : (accumulate p step k u).inc = u.inc := rfl
@[simp] theorem accumulate_sign (p : Params) (step k : Nat) (u : Instance) : (accumulate p step k u).sign = u.sign := rfl
@[simp] theorem accumulate_current (p : Params) (step k : Nat) (u : Instance) : (accumulate p step k u).current = u.current := rfl
@[simp] theorem accumulate_target (p : Params) (step k : Nat) (u : Instance) : (accumulate p step k u).target = u.target := rfl
@[simp] theorem accumulate_nch (p : Params) (step k : Nat) (u : Instance) : (accumulate p step k u).nch = u.nch := rfl
@[simp] theorem accumulate_status (p : Params) (step k : Nat) (u : Instance) : (accumulate p step k u).status = u.status := rfl
@[simp] theorem accumulate_freqLo (p : Params) (step k : Nat) (u : Instance) : (accumulate p step k u).freqLo = u.freqLo := rfl
@[simp] theorem accumulate_freqHi (p : Params) (step k : Nat) (u : Instance) : (accumulate p step k u).freqHi = u.freqHi := rfl
@[simp] theorem accumulate_gainData (p : Params) (step k : Nat) (u : Instance) : (accumulate p step k u).gainData = u.gainData := rfl
@[simp] theorem accumulate_pcmd (p : Params) (step k : Nat) (u : Instance) : (accumulate p step k u).pcmd = u.pcmd := rfl
@[simp] theorem accumulate_pfreq (p : Params) (step k : Nat) (u : Instance) : (accumulate p step k u).pfreq = u.pfreq := rfl
@[simp] theorem accumulate_pgain (p : Params) (step k : Nat) (u : Instance) : (accumulate p step k u).pgain = u.pgain := rfl
@[simp] theorem accumulate_mem (p : Params) (step k : Nat) (u : Instance) : (accumulate p step k u).mem = u.mem := rfl
@[simp] theorem accumulate_delay (p : Params) (step k : Nat) (u : Instance) : (accumulate p step k u).delay = u.delay := rfl
@[simp] theorem outStageStep_inputRing (u : Instance) : (outStageStep u).inputRing = u.inputRing := rfl
@[simp] theorem outStageStep_count (u : Instance) : (outStageStep u).count = u.count := rfl
@[simp] theorem outStageStep_analytic (u : Instance) : (outStageStep u).analytic = u.analytic := rfl
@[simp] theorem outStageStep_accum (u : Instance) : (outStageStep u).accum = u.accum := rfl
@[simp] theorem outStageStep_outdata (u : Instance) : (outStageStep u).outdata = u.outdata := rfl
@[simp] theorem outStageStep_rawOut (u : Instance) : (outStageStep u).rawOut = u.rawOut := rfl
@[simp] theorem outStageStep_fracFreq (u : Instance) : (outStageStep u).fracFreq = u.fracFreq := rfl
@[simp] theorem outStageStep_inc (u : Instance) : (outStageStep u).inc = u.inc := rfl
@[simp] theorem outStageStep_sign (u : Instance) : (outStageStep u).sign = u.sign := rfl
@[simp] theorem outStageStep_current (u : Instance) : (outStageStep u).current = u.current := rfl
@[simp] theorem outStageStep_target (u : Instance) : (outStageStep u).target = u.target := rfl
@[simp] theorem outStageStep_nch (u : Instance) : (outStageStep u).nch = u.nch := rfl
@[simp] theorem outStageStep_status (u : Instance) : (outStageStep u).status = u.status := rfl
@[simp] theorem outStageStep_freqLo (u : Instance) : (outStageStep u).freqLo = u.freqLo := rfl
@[simp] theorem outStageStep_freqHi (u : Instance) : (outStageStep u).freqHi = u.freqHi := rfl
@[simp] theorem outStageStep_gainData (u : Instance) : (outStageStep u).gainData = u.gainData := rfl
@[simp] theorem outStageStep_pcmd (u : Instance) : (outStageStep u).pcmd = u.pcmd := rfl
@[simp] theorem outStageStep_pfreq (u : Instance) : (outStageStep u).pfreq = u.pfreq := rfl
@[simp] theorem outStageStep_pgain (u : Instance) : (outStageStep u).pgain = u.pgain := rfl
@[simp] theorem outStageStep_mem (u : Instance) : (outStageStep u).mem = u.mem := rfl
@[simp] theorem outStageStep_delay (u : Instance) : (outStageStep u).delay = u.delay := rfl
@[simp] theorem accShift_inputRing (u : Instance) : (accShift u).inputRing = u.inputRing := rfl
@[simp] theorem accShift_count (u : Instance) : (accShift u).count = u.count := rfl
@[simp] theorem accShift_analytic (u : Instance) : (accShift u).analytic = u.analytic := rfl
@[simp] theorem accShift_outStage (u : Instance) : (accShift u).outStage = u.outStage := rfl
@[simp] theorem accShift_outdata (u : Instance) : (accShift u).outdata = u.outdata := rfl
@[simp] theorem accShift_rawOut (u : Instance) : (accShift u).rawOut = u.rawOut := rfl
@[simp] theorem accShift_fracFreq (u : Instance) : (accShift u).fracFreq = u.fracFreq := rfl
@[simp] theorem accShift_inc (u : Instance) : (accShift u).inc = u.inc := rfl
@[simp] theorem accShift_sign (u : Instance) : (accShift u).sign = u.sign := rfl
@[simp] theorem accShift_current (u : Instance) : (accShift u).current = u.current := rfl
@[simp] theorem accShift_target (u : Instance) : (accShift u).target = u.target := rfl
@[simp] theorem accShift_nch (u : Instance) : (accShift u).nch = u.nch := rfl
@[simp] theorem accShift_status (u : Instance) : (accShift u).status = u.status := rfl
@[simp] theorem accShift_freqLo (u : Instance) : (accShift u).freqLo = u.freqLo := rfl
@[simp] theorem accShift_freqHi (u : Instance) : (accShift u).freqHi = u.freqHi := rfl
@[simp] theorem accShift_gainData (u : Instance) : (accShift u).gainData = u.gainData := rfl
@[simp] theorem accShift_pcmd (u : Instance) : (accShift u).pcmd = u.pcmd := rfl
@[simp] theorem accShift_pfreq (u : Instance) : (accShift u).pfreq = u.pfreq := rfl
@[simp] theorem accShift_pgain (u : Instance) : (accShift u).pgain = u.pgain := rfl
@[simp] theorem accShift_mem (u : Instance) : (accShift u).mem = u.mem := rfl
@[simp] theorem accShift_delay (u : Instance) : (accShift u).delay = u.delay := rfl
@[simp] theorem ringShift_count (u : Instance) : (ringShift u).count = u.count := rfl
@[simp] theorem ringShift_analytic (u : Instance) : (ringShift u).analytic = u.analytic := rfl
@[simp] theorem ringShift_accum (u : Instance) : (ringShift u).accum = u.accum := rfl
@[simp] theorem ringShift_outStage (u : Instance) : (ringShift u).outStage = u.outStage := rfl
@[simp] theorem ringShift_outdata (u : Instance) : (ringShift u).outdata = u.outdata := rfl
@[simp] theorem ringShift_rawOut (u : Instance) : (ringShift u).rawOut = u.rawOut := rfl
@[simp] theorem ringShift_fracFreq (u : Instance) : (ringShift u).fracFreq = u.fracFreq := rfl
@[simp] theorem ringShift_inc (u : Instance) : (ringShift u).inc = u.inc := rfl
@[simp] theorem ringShift_sign (u : Instance) : (ringShift u).sign = u.sign := rfl
@[simp] theorem ringShift_current (u : Instance) : (ringShift u).current = u.current := rfl
@[simp] theorem ringShift_target (u : Instance) : (ringShift u).target = u.target := rfl
@[simp] theorem ringShift_nch (u : Instance) : (ringShift u).nch = u.nch := rfl
@[simp] theorem ringShift_status (u : Instance) : (ringShift u).status = u.status := rfl
@[simp] theorem ringShift_freqLo (u : Instance) : (ringShift u).freqLo = u.freqLo := rfl
@[simp] theorem ringShift_freqHi (u : Instance) : (ringShift u).freqHi = u.freqHi := rfl
@[simp] theorem ringShift_gainData (u : Instance) : (ringShift u).gainData = u.gainData := rfl
@[simp] theorem ringShift_pcmd (u : Instance) : (ringShift u).pcmd = u.pcmd := rfl
@[simp] theorem ringShift_pfreq (u : Instance) : (ringShift u).pfreq = u.pfreq := rfl
@[simp] theorem ringShift_pgain (u : Instance) : (ringShift u).pgain = u.pgain := rfl
@[simp] theorem ringShift_mem (u : Instance) : (ringShift u).mem = u.mem := rfl
@[simp] theorem ringShift_delay (u : Instance) : (ringShift u).delay = u.delay := rfl
@[simp] theorem boundary_count (p : Params) (step k : Nat) (u : Instance) : (boundary p step k u).count = 768 := rfl
@[simp] theorem boundary_outdata (p : Params) (step k : Nat) (u : Instance) : (boundary p step k u).outdata = u.outdata := rfl
@[simp] theorem boundary_rawOut (p : Params) (step k : Nat) (u : Instance) : (boundary p step k u).rawOut = u.rawOut := rfl
@[simp] theorem boundary_fracFreq (p : Params) (step k : Nat) (u : Instance) : (boundary p step k u).fracFreq = u.fracFreq := rfl
@[simp] theorem boundary_inc (p : Params) (step k : Nat) (u : Instance) : (boundary p step k u).inc = u.inc := rfl
@[simp] theorem boundary_sign (p : Params) (step k : Nat) (u : Instance) : (boundary p step k u).sign = u.sign := rfl
@[simp] theorem boundary_current (p : Params) (step k : Nat) (u : Instance) : (boundary p step k u).current = u.current := rfl
@[simp] theorem boundary_target (p : Params) (step k : Nat) (u : Instance) : (boundary p step k u).target = u.target := rfl
@[simp] theorem boundary_nch (p : Params) (step k : Nat) (u : Instance) : (boundary p step k u).nch = u.nch := rfl
@[simp] theorem boundary_status (p : Params) (step k : Nat) (u : Instance) : (boundary p step k u).status = u.status := rfl
@[simp] theorem boundary_freqLo (p : Params) (step k : Nat) (u : Instance) : (boundary p step k u).freqLo = u.freqLo := rfl
@[simp] theorem boundary_freqHi (p : Params) (step k : Nat) (u : Instance) : (boundary p step k u).freqHi = u.freqHi := rfl
@[simp] theorem boundary_gainData (p : Params) (step k : Nat) (u : Instance) : (boundary p step k u).gainData = u.gainData := rfl
@[simp] theorem boundary_pcmd (p : Params) (step k : Nat) (u : Instance) : (boundary p step k u).pcmd = u.pcmd := rfl
@[simp] theorem boundary_pfreq (p : Params) (step k : Nat) (u : Instance) : (boundary p step k u).pfreq = u.pfreq := rfl
@[simp] theorem boundary_pgain (p : Params) (step k : Nat) (u : Instance) : (boundary p step k u).pgain = u.pgain := rfl
@[simp] theorem boundary_mem (p : Params) (step k : Nat) (u : Instance) : (boundary p step k u).mem = u.mem := rfl
@[simp] theorem boundary_delay (p : Params) (step k : Nat) (u : Instance) : (boundary p step k u).delay = u.delay := rfl
@[simp] theorem pushSample_inputRing (k : Nat) (x : F32) (u : Instance) : (pushSample k x u).inputRing = u.inputRing.set u.count x := rfl
@[simp] theorem pushSample_count (k : Nat) (x : F32) (u : Instance) : (pushSample k x u).count = u.count + 1 := rfl
@[simp] theorem pushSample_analytic (k : Nat) (x : F32) (u : Instance) : (pushSample k x u).analytic = u.analytic := rfl
@[simp] theorem pushSample_accum (k : Nat) (x : F32) (u : Instance) : (pushSample k x u).accum = u.accum := rfl
@[simp] theorem pushSample_outStage (k : Nat) (x : F32) (u : Instance) : (pushSample k x u).outStage = u.outStage := rfl
@[simp] theorem pushSample_outdata (k : Nat) (x : F32) (u : Instance) : (pushSample k x u).outdata = u.outdata.set k (cget u.outStage (u.count - 768)) := rfl
@[simp] theorem pushSample_rawOut (k : Nat) (x : F32) (u : Instance) : (pushSample k x u).rawOut = u.rawOut := rfl
@[simp] theorem pushSample_fracFreq (k : Nat) (x : F32) (u : Instance) : (pushSample k x u).fracFreq = u.fracFreq := rfl
@[simp] theorem pushSample_inc (k : Nat) (x : F32) (u : Instance) : (pushSample k x u).inc = u.inc := rfl
@[simp] theorem pushSample_sign (k : Nat) (x : F32) (u : Instance) : (pushSample k x u).sign = u.sign := rfl
@[simp] theorem pushSample_current (k : Nat) (x : F32) (u : Instance) : (pushSample k x u).current = u.current := rfl
@[simp] theorem pushSample_target (k : Nat) (x : F32) (u : Instance) : (pushSample k x u).target = u.target := rfl
@[simp] theorem pushSample_nch (k : Nat) (x : F32) (u : Instance) : (pushSample k x u).nch = u.nch := rfl
@[simp] theorem pushSample_status (k : Nat) (x : F32) (u : Instance) : (pushSample k x u).status = u.status := rfl
@[simp] theorem pushSample_freqLo (k : Nat) (x : F32) (u : Instance) : (pushSample k x u).freqLo = u.freqLo := rfl
@[simp] theorem pushSample_freqHi (k : Nat) (x : F32) (u : Instance) : (pushSample k x u).freqHi = u.freqHi := rfl
@[simp] theorem pushSample_gainData (k : Nat) (x : F32) (u : Instance) : (pushSample k x u).gainData = u.gainData := rfl
@[simp] theorem pushSample_pcmd (k : Nat) (x : F32) (u : Instance) : (pushSample k x u).pcmd = u.pcmd := rfl
@[simp] theorem pushSample_pfreq (k : Nat) (x : F32) (u : Instance) : (pushSample k x u).pfreq = u.pfreq := rfl
@[simp] theorem pushSample_pgain (k : Nat) (x : F32) (u : Instance) : (pushSample k x u).pgain = u.pgain := rfl
@[simp] theorem pushSample_mem (k : Nat) (x : F32) (u : Instance) : (pushSample k x u).mem = u.mem := rfl
@[simp] theorem pushSample_delay (k : Nat) (x : F32) (u : Instance) : (pushSample k x u).delay = u.delay := rfl
@[simp] theorem modulate_inputRing (p : Params) (step k : Nat) (u : Instance) : (modulate p step k u).inputRing = u.inputRing := rfl
@[simp] theorem modulate_count (p : Params) (step k : Nat) (u : Instance) : (modulate p step k u).count = u.count := rfl
@[simp] theorem modulate_analytic (p : Params) (step k : Nat) (u : Instance) : (modulate p step k u).analytic = u.analytic := rfl
@[simp] theorem modulate_accum (p : Params) (step k : Nat) (u : Instance) : (modulate p step k u).accum = u.accum := rfl
@[simp] theorem modulate_outStage (p : Params) (step k : Nat) (u : Instance) : (modulate p step k u).outStage = u.outStage := rfl
@[simp] theorem modulate_outdata (p : Params) (step k : Nat) (u : Instance) : (modulate p step k u).outdata = u.outdata := rfl
@[simp] theorem modulate_rawOut (p : Params) (step k : Nat) (u : Instance) : (modulate p step k u).rawOut = u.rawOut.set k (rotate p step k u.sign (wrapPhase step k u.inc) (cget u.outdata k)) := rfl
@[simp] theorem modulate_fracFreq (p : Params) (step k : Nat) (u : Instance) : (modulate p step k u).fracFreq = u.fracFreq := rfl
@[simp] theorem modulate_inc (p : Params) (step k : Nat) (u : Instance) : (modulate p step k u).inc = advance step k (wrapPhase step k u.inc) u.fracFreq := rfl
@[simp] theorem modulate_sign (p : Params) (step k : Nat) (u : Instance) : (modulate p step k u).sign = u.sign := rfl
@[simp] theorem modulate_current (p : Params) (step k : Nat) (u : Instance) : (modulate p step k u).current = u.current := rfl
@[simp] theorem modulate_target (p : Params) (step k : Nat) (u : Instance) : (modulate p step k u).target = u.target := rfl
@[simp] theorem modulate_nch (p : Params) (step k : Nat) (u : Instance) : (modulate p step k u).nch = u.nch := rfl
@[simp] theorem modulate_status (p : Params) (step k : Nat) (u : Instance) : (modulate p step k u).status = u.status := rfl
@[simp] theorem modulate_freqLo (p : Params) (step k : Nat) (u : Instance) : (modulate p step k u).freqLo = u.freqLo := rfl
@[simp] theorem modulate_freqHi (p : Params) (step k : Nat) (u : Instance) : (modulate p step k u).freqHi = u.freqHi := rfl
@[simp] theorem modulate_gainData (p : Params) (step k : Nat) (u : Instance) : (modulate p step k u).gainData = u.gainData := rfl
@[simp] theorem modulate_pcmd (p : Params) (step k : Nat) (u : Instance) : (modulate p step k u).pcmd = u.pcmd := rfl
@[simp] theorem modulate_pfreq (p : Params) (step k : Nat) (u : Instance) : (modulate p step k u).pfreq = u.pfreq := rfl
@[simp] theorem modulate_pgain (p : Params) (step k : Nat) (u : Instance) : (modulate p step k u).pgain = u.pgain := rfl
@[simp] theorem modulate_mem (p : Params) (step k : Nat) (u : Instance) : (modulate p step k u).mem = u.mem := rfl
@[simp] theorem modulate_delay (p : Params) (step k : Nat) (u : Instance) : (modulate p step k u).delay = u.delay := rfl
@[simp] theorem mix_inputRing (step n c : Nat) (u : Instance) : (mix step n c u).inputRing = u.inputRing := rfl
@[simp] theorem mix_count (step n c : Nat) (u : Instance) : (mix step n c u).count = u.count := rfl
@[simp] theorem mix_analytic (step n c : Nat) (u : Instance) : (mix step n c u).analytic = u.analytic := rfl
@[simp] theorem mix_accum (step n c : Nat) (u : Instance) : (mix step n c u).accum = u.accum := rfl
@[simp] theorem mix_outStage (step n c : Nat) (u : Instance) : (mix step n c u).outStage = u.outStage := rfl
@[simp] theorem mix_outdata (step n c : Nat) (u : Instance) : (mix step n c u).outdata = u.outdata := rfl
@[simp] theorem mix_rawOut (step n c : Nat) (u : Instance) : (mix step n c u).rawOut = u.rawOut := rfl
@[simp] theorem mix_fracFreq (step n c : Nat) (u : Instance) : (mix step n c u).fracFreq = u.fracFreq := rfl
@[simp] theorem mix_inc (step n c : Nat) (u : Instance) : (mix step n c u).inc = u.inc := rfl
@[simp] theorem mix_sign (step n c : Nat) (u : Instance) : (mix step n c u).sign = u.sign := rfl
@[simp] theorem mix_current (step n c : Nat) (u : Instance) : (mix step n c u).current = u.current.set c (u.target.getD c 0) := rfl
@[simp] theorem mix_target (step n c : Nat) (u : Instance) : (mix step n c u).target = u.target := rfl
@[simp] theorem mix_nch (step n c : Nat) (u : Instance) : (mix step n c u).nch = u.nch := rfl
@[simp] theorem mix_status (step n c : Nat) (u : Instance) : (mix step n c u).status = u.status := rfl
@[simp] theorem mix_freqLo (step n c : Nat) (u : Instance) : (mix step n c u).freqLo = u.freqLo := rfl
@[simp] theorem mix_freqHi (step n c : Nat) (u : Instance) : (mix step n c u).freqHi = u.freqHi := rfl
@[simp] theorem mix_gainData (step n c : Nat) (u : Instance) : (mix step n c u).gainData = u.gainData := rfl
@[simp] theorem mix_pcmd (step n c : Nat) (u : Instance) : (mix step n c u).pcmd = u.pcmd := rfl
@[simp] theorem mix_pfreq (step n c : Nat) (u : Instance) : (mix step n c u).pfreq = u.pfreq := rfl
@[simp] theorem mix_pgain (step n c : Nat) (u : Instance) : (mix step n c u).pgain = u.pgain := rfl
@[simp] theorem mix_mem (step n c : Nat) (u : Instance) : (mix step n c u).mem = forUp (mixSample step n c u) n u.mem := rfl
@[simp] theorem mix_delay (step n c : Nat) (u : Instance) : (mix step n c u).delay = u.delay := rfl

end Sys2Proof.Machine
end

