-- ==== Sys2Proof/Laws/Exec.lean ====
section
/-! SUPPORT. What each meaning, an engine step, a step of the machine and a host transaction can answer: one lemma for each. -/

namespace Sys2Proof.Machine

open Sys2Proof Sys2Proof.Config

/-- `buffersWritten` is the premise it computes. -/
theorem buffersWritten_iff (m : Memory) (n nch : Nat) :
    buffersWritten m n nch = true ↔
      ∀ k, k < n → (Memory.word m (inAddr k)).isSome ∧ ∀ c, c < nch → (Memory.word m (outAddr c k)).isSome := by
  simp [buffersWritten, allBelow_iff]

/-- RESET refuses the operand, draws a failure, or resets. -/
theorem execReset_cases {nch : Nat} {s t : State} (h : execReset nch s = .next t) :
    ((nch = 0 ∨ 16 < nch) ∧ t = s.raise .badNch) ∨
    (1 ≤ nch ∧ nch ≤ 16 ∧ resetFails s = true ∧ t = s.drawn.setFatal.raise .initFailed) ∨
    (1 ≤ nch ∧ nch ≤ 16 ∧ resetFails s = false ∧
      t = (if resetMayFail s then s.drawn else s).complete (resetInstance s.cfg.nmax nch s.inst)) := by
  simp only [execReset, checkNch] at h
  by_cases hn : nch = 0 ∨ 16 < nch
  · simp only [hn, if_true] at h
    cases h
    exact .inl ⟨hn, rfl⟩
  · simp only [hn, if_false] at h
    by_cases hf : resetFails s = true
    · have hm : resetMayFail s = true := by
        simp only [resetFails, Bool.and_eq_true] at hf; exact hf.1
      simp only [hf, hm, if_true] at h
      cases h
      exact .inr (.inl ⟨by omega, by omega, hf, rfl⟩)
    · rw [if_neg hf] at h
      cases h
      exact .inr (.inr ⟨by omega, by omega, by simpa using hf, rfl⟩)

/-- SET_SHIFT refuses by one error, or changes the modulator's parameters. -/
theorem execSetShift_cases {dir : Dir} {s t : State} (h : execSetShift dir s = .next t) :
    (∃ e, requireInit s.inst.status (checkShift dir s.inst.pfreq) = some e ∧ t = s.raise e) ∨
    (requireInit s.inst.status (checkShift dir s.inst.pfreq) = none ∧ t = s.complete (shiftInstance dir s.inst)) := by
  simp only [execSetShift] at h
  split at h
  · next e he => cases h; exact .inl ⟨e, he, rfl⟩
  · next he => cases h; exact .inr ⟨he, rfl⟩

/-- SET_GAIN refuses by one error, or changes one target. -/
theorem execSetGain_cases {ch : Nat} {s t : State} (h : execSetGain ch s = .next t) :
    (∃ e, requireInit s.inst.status (checkGain ch s.inst.nch s.inst.pgain) = some e ∧ t = s.raise e) ∨
    (requireInit s.inst.status (checkGain ch s.inst.nch s.inst.pgain) = none ∧
      t = s.complete { s.inst with target := s.inst.target.set ch s.inst.pgain }) := by
  simp only [execSetGain] at h
  split at h
  · next e he => cases h; exact .inl ⟨e, he, rfl⟩
  · next he => cases h; exact .inr ⟨he, rfl⟩

/-- PROCESS refuses by one error, or runs the block. -/
theorem execProcess_cases {n : Nat} {s t : State} (h : execProcess n s = .next t) :
    (∃ e, requireInit s.inst.status (checkLength n s.cfg.nmax) = some e ∧ t = s.raise e) ∨
    (requireInit s.inst.status (checkLength n s.cfg.nmax) = none ∧
      buffersWritten s.inst.mem n s.inst.nch = true ∧
      t = s.drawn.complete (processBlock s.cfg s.draws n s.inst)) := by
  simp only [execProcess] at h
  split at h
  · next e he => cases h; exact .inl ⟨e, he, rfl⟩
  · next he =>
    split at h
    · next hb => cases h; exact .inr ⟨he, hb, rfl⟩
    · cases h

/-- An engine step refuses the word by its decoding error, or executes the command it spells. -/
theorem engineStep_cases (s : State) :
    (decode s.inst.pcmd = .illegalOpcode ∧ engineStep s = .next (s.raise .illegalOpcode)) ∨
    (decode s.inst.pcmd = .reservedBits ∧ engineStep s = .next (s.raise .reservedBits)) ∨
    (∃ i, decode s.inst.pcmd = .cmd i ∧ engineStep s = exec i s) := by
  simp only [engineStep]
  split
  · next h => exact .inl ⟨h, rfl⟩
  · next h => exact .inr (.inl ⟨h, rfl⟩)
  · next i h => exact .inr (.inr ⟨i, h, rfl⟩)

/-- A step is an engine step of some instance, a host transaction, or nothing. -/
theorem step_cases (s : State) :
    (∃ s', s.nextEngine = some s' ∧ step s = engineStep s') ∨
    (∃ op rest, s.nextEngine = none ∧ s.host = op :: rest ∧ step s = hostStep op rest s) ∨
    (s.nextEngine = none ∧ s.host = [] ∧ step s = .next s) := by
  simp only [step]
  split
  · next s' h => exact .inl ⟨s', h, rfl⟩
  · next h =>
    split
    · next h' => exact .inr (.inr ⟨h, h', rfl⟩)
    · next op rest h' => exact .inr (.inl ⟨op, rest, h, h', rfl⟩)

/-- Serving another instance keeps the instances, in their order. -/
theorem focus_spec {s t : State} {i : Nat} (h : s.focus i = some t) :
    t.instances = s.instances ∧ s.instances[i]? = some t.inst ∧
      t.cfg = s.cfg ∧ t.host = s.host ∧ t.reads = s.reads ∧ t.draws = s.draws := by
  simp only [State.focus] at h
  split at h
  · cases h
  · next u hu =>
    cases h
    refine ⟨?_, hu, rfl, rfl, rfl, rfl⟩
    obtain ⟨hlt, rfl⟩ := List.getElem?_eq_some_iff.mp hu
    have e : List.take i s.instances ++ (s.instances[i] :: List.drop (i + 1) s.instances) = s.instances := by
      rw [← List.drop_eq_getElem_cons hlt, List.take_append_drop]
    exact e

/-- The instance an engine step serves is ready, and is one of the machine's. -/
theorem nextEngine_spec {s t : State} (h : s.nextEngine = some t) :
    t.instances = s.instances ∧ t.cfg = s.cfg ∧ t.host = s.host ∧ t.reads = s.reads ∧ t.draws = s.draws ∧
      s.ready t.inst = true := by
  simp only [State.nextEngine] at h
  split at h
  · next hr => cases h; exact ⟨rfl, rfl, rfl, rfl, rfl, hr⟩
  · obtain ⟨h1, h2, h3, h4, h5, h6⟩ := focus_spec h
    refine ⟨h1, h3, h4, h5, h6, ?_⟩
    obtain ⟨hlt, e⟩ := List.getElem?_eq_some_iff.mp h2
    rw [← e]
    exact List.findIdx_getElem

theorem ready_iff (s : State) (u : Instance) :
    s.ready u = true ↔ u.status.busy = true ∧ (u.delay = 0 ∨ s.host = []) := by
  simp [State.ready]

/-- No engine step is due exactly when no instance is ready. -/
theorem nextEngine_none_iff (s : State) : s.nextEngine = none ↔ ∀ u ∈ s.instances, s.ready u = false := by
  simp only [State.nextEngine]
  constructor
  · intro h u hu
    split at h
    · cases h
    · by_contra hr
      rw [Bool.not_eq_false] at hr
      have hlt : s.instances.findIdx s.ready < s.instances.length := List.findIdx_lt_length_of_exists ⟨u, hu, hr⟩
      simp only [State.focus, List.getElem?_eq_getElem hlt] at h
      cases h
  · intro h
    have hi : s.ready s.inst = false := h _ (by simp [State.instances])
    have hn : s.instances[s.instances.findIdx s.ready]? = none := by
      rw [List.findIdx_eq_length_of_false h]
      exact List.getElem?_eq_none (Nat.le_refl _)
    rw [if_neg (by rw [hi]; decide), State.focus, hn]

/-! ## Host transactions -/

@[simp] theorem State.tick_instances (s : State) : s.tick.instances = s.instances.map Instance.tick := by
  simp [State.instances, State.tick]

/-- Serving instance `i`, if there is one. -/
theorem focus_some {s : State} {i : Nat} {u : Instance} (h : s.instances[i]? = some u) :
    s.focus i = some { s with before := s.instances.take i, inst := u, after := s.instances.drop (i + 1) } := by
  rw [State.focus, h]

/-- An address of a register space selects its instance and offset. -/
theorem address_split (base i off : Nat) (h : off < 0x40000) :
    ¬ base + i * 0x40000 + off < base ∧ instanceOf base (base + i * 0x40000 + off) = i ∧
      offsetOf base (base + i * 0x40000 + off) = off := by
  refine ⟨by omega, ?_, ?_⟩ <;> simp only [instanceOf, offsetOf] <;> omega

/-- A transaction at an offset of instance `i` serves that instance. -/
theorem select_of_address {s : State} {i off : Nat} {u : Instance} (ho : off < 0x40000) (h : s.instances[i]? = some u) :
    s.select (s.cfg.base + i * 0x40000 + off) =
      .ok { s with before := s.instances.take i, inst := u, after := s.instances.drop (i + 1) } := by
  obtain ⟨h1, h2, -⟩ := address_split s.cfg.base i off ho
  rw [State.select, if_neg h1, h2, focus_some h]

/-- An address outside every register space is the model's own fault (log 17). -/
theorem select_outside {s : State} {addr : Nat}
    (h : addr < s.cfg.base ∨ s.instances.length ≤ (addr - s.cfg.base) / 0x40000) : s.select addr = .error .noInstance := by
  rw [State.select]
  split
  · rfl
  · next hn =>
    have hlen := h.resolve_left hn
    rw [State.focus, instanceOf, List.getElem?_eq_none hlen]

/-- A read looks at nothing the count of transactions changes. -/
theorem busRead_tick (nmax step off size : Nat) (u : Instance) :
    busRead nmax step off size u.tick = busRead nmax step off size u := by
  simp only [busRead]
  split
  · rfl
  · next t _ => cases t <;> rfl

/-- What a host read of an instance answers. -/
theorem hostStep_read {s : State} {i off size : Nat} {u : Instance} (rest : List HostOp) (ho : off < 0x40000)
    (h : s.instances[i]? = some u) :
    hostStep (.read (s.cfg.base + i * 0x40000 + off) size) rest s =
      match busRead s.cfg.nmax s.draws off size u with
      | .error f => .fault f
      | .ok v => .next
          { s with before := s.tick.instances.take i, inst := u.tick, after := s.tick.instances.drop (i + 1),
                   host := rest, reads := s.reads ++ [v], draws := s.draws + 1 } := by
  have ht : s.tick.instances[i]? = some u.tick := by rw [State.tick_instances, List.getElem?_map, h]; rfl
  have hs := select_of_address (s := s.tick) ho ht
  rw [State.tick_cfg] at hs
  simp only [hostStep, State.hostRead, State.tick_cfg, State.tick_draws, hs, (address_split s.cfg.base i off ho).2.2,
    busRead_tick]
  cases busRead s.cfg.nmax s.draws off size u <;> rfl

/-- What a host write to an instance leaves. -/
theorem hostStep_write {s : State} {i off size : Nat} {u : Instance} (v : Word) (rest : List HostOp) (ho : off < 0x40000)
    (h : s.instances[i]? = some u) :
    hostStep (.write (s.cfg.base + i * 0x40000 + off) size v) rest s =
      match busWrite s.cfg.nmax s.draws off size v u.tick with
      | .error f => .fault f
      | .ok u' => .next
          { s with before := s.tick.instances.take i, inst := u', after := s.tick.instances.drop (i + 1),
                   host := rest, reads := s.reads ++ [], draws := s.draws + 1 } := by
  have ht : s.tick.instances[i]? = some u.tick := by rw [State.tick_instances, List.getElem?_map, h]; rfl
  have hs := select_of_address (s := s.tick) ho ht
  rw [State.tick_cfg] at hs
  simp only [hostStep, State.hostWrite, State.tick_cfg, State.tick_draws, hs, (address_split s.cfg.base i off ho).2.2]
  cases busWrite s.cfg.nmax s.draws off size v u.tick <;> rfl

/-- A transaction outside every register space. -/
theorem hostStep_outside {s : State} {addr : Nat} (size : Nat) (v : Word) (rest : List HostOp)
    (h : addr < s.cfg.base ∨ s.instances.length ≤ (addr - s.cfg.base) / 0x40000) :
    hostStep (.read addr size) rest s = .fault .noInstance ∧ hostStep (.write addr size v) rest s = .fault .noInstance := by
  have hs : s.tick.select addr = .error .noInstance := select_outside (by
    rw [State.tick_instances, List.length_map, State.tick_cfg]; exact h)
  constructor <;> simp only [hostStep, State.hostRead, State.hostWrite, hs]

end Sys2Proof.Machine
end

