-- ==== Sys2Proof/Laws/Float.lean ====
section
/-! SUPPORT. The rounding of spec/00_scope.md R8: a representable value rounds to itself, and rounding is monotone. With
them, what the phase accumulator's operations need. -/

namespace Sys2Proof.Machine

open Sys2Proof Sys2Proof.Config

theorem rneNat_mul (q den : Nat) (h : 0 < den) : rneNat (q * den) den = q := by
  simp only [rneNat, Nat.mul_div_cancel _ h, Nat.mul_mod_left]
  rw [if_neg (by omega)]

theorem rneNat_one (n : Nat) : rneNat n 1 = n := by simpa using rneNat_mul n 1 Nat.one_pos

theorem le_rneNat (num den : Nat) : num / den ≤ rneNat num den := by
  simp only [rneNat]; split <;> omega

theorem rneNat_le (num den : Nat) : rneNat num den ≤ num / den + 1 := by
  simp only [rneNat]; split <;> omega

/-- What lies at or below an integer rounds at or below it. -/
theorem rneNat_le_of_le (num den q : Nat) (hd : 0 < den) (h : num ≤ q * den) : rneNat num den ≤ q := by
  rcases Nat.lt_or_ge (num / den) q with hlt | hge
  · exact (rneNat_le ..).trans hlt
  · have : num = q * den := le_antisymm h ((Nat.mul_le_mul_right den hge).trans (Nat.div_mul_le_self ..))
    rw [this, rneNat_mul q den hd]

theorem rneNat_mono (a b den : Nat) (h : a ≤ b) : rneNat a den ≤ rneNat b den := by
  have hq : a / den ≤ b / den := Nat.div_le_div_right h
  rcases hq.lt_or_eq with hlt | heq
  · exact ((rneNat_le ..).trans hlt).trans (le_rneNat ..)
  · have ha := Nat.div_add_mod a den
    have hb := Nat.div_add_mod b den
    have hr : a % den ≤ b % den := by rw [heq] at ha; omega
    simp only [rneNat, heq]
    split <;> split <;> omega

/-! ## Magnitudes and codes -/

theorem magOf_small (f : Fmt) (c : Nat) (h : c < 2 ^ f.frac) : Fmt.magOf f c = c := by
  simp only [Fmt.magOf, Nat.shiftRight_eq_div_pow, Nat.div_eq_of_lt h, if_true]

theorem magOf_normal (f : Fmt) (e r : Nat) (h : r < 2 ^ f.frac) :
    Fmt.magOf f ((e + 1) * 2 ^ f.frac + r) = (2 ^ f.frac + r) * 2 ^ e := by
  have hd : ((e + 1) * 2 ^ f.frac + r) / 2 ^ f.frac = e + 1 := by
    rw [Nat.add_comm, Nat.add_mul_div_right _ _ (Nat.two_pow_pos _), Nat.div_eq_of_lt h, Nat.zero_add]
  have hm : ((e + 1) * 2 ^ f.frac + r) % 2 ^ f.frac = r := by
    rw [Nat.add_comm, Nat.add_mul_mod_self_right, Nat.mod_eq_of_lt h]
  simp only [Fmt.magOf, Nat.shiftRight_eq_div_pow, hd, hm, Nat.shiftLeft_eq, Nat.add_sub_cancel]
  rfl

/-- Every code is a small one, or an exponent and a fraction. -/
theorem code_cases (f : Fmt) (c : Nat) :
    c < 2 ^ f.frac ∨ ∃ e r, r < 2 ^ f.frac ∧ c = (e + 1) * 2 ^ f.frac + r := by
  rcases Nat.lt_or_ge c (2 ^ f.frac) with h | h
  · exact .inl h
  · have hp := Nat.two_pow_pos f.frac
    have h1 : 1 ≤ c / 2 ^ f.frac := (Nat.le_div_iff_mul_le hp).mpr (by omega)
    refine .inr ⟨c / 2 ^ f.frac - 1, c % 2 ^ f.frac, Nat.mod_lt _ hp, ?_⟩
    rw [Nat.sub_add_cancel h1, Nat.mul_comm]
    exact (Nat.div_add_mod c _).symm

/-- The exponent part of a rounding of `num/den`: 0, or the place that makes the significand `frac + 1` bits long. -/
theorem roundCode_bounds (f : Fmt) (num den : Nat) (hd : 0 < den) (e : Nat) (he : e = Nat.log2 (num / den) - f.frac) :
    rneNat num (den <<< e) ≤ 2 ^ (f.frac + 1) ∧ (0 < e → 2 ^ f.frac ≤ rneNat num (den <<< e)) := by
  have hde : 0 < den <<< e := by rw [Nat.shiftLeft_eq]; exact Nat.mul_pos hd (Nat.two_pow_pos _)
  constructor
  · apply rneNat_le_of_le _ _ _ hde
    have hlt : num / den < 2 ^ (f.frac + 1 + e) := by
      rcases Nat.eq_zero_or_pos (num / den) with h0 | h0
      · rw [h0]; exact Nat.two_pow_pos _
      · calc num / den < 2 ^ (Nat.log2 (num / den) + 1) := Nat.lt_log2_self
          _ ≤ 2 ^ (f.frac + 1 + e) := Nat.pow_le_pow_right (by omega) (by omega)
    have h2 := (Nat.div_lt_iff_lt_mul hd).mp hlt
    rw [Nat.shiftLeft_eq, Nat.mul_comm den, ← Nat.mul_assoc, ← Nat.pow_add]
    omega
  · intro hpos
    refine le_trans ?_ (le_rneNat ..)
    rw [Nat.shiftLeft_eq, ← Nat.div_div_eq_div_mul, Nat.le_div_iff_mul_le (Nat.two_pow_pos _), ← Nat.pow_add]
    have h0 : num / den ≠ 0 := by
      intro h0
      rw [h0] at he
      simp at he
      omega
    have hL : f.frac + e = Nat.log2 (num / den) := by omega
    rw [hL]
    exact Nat.log2_self_le h0

/-- Rounding is monotone in the numerator. -/
theorem roundCode_mono (f : Fmt) (a b den : Nat) (hd : 0 < den) (h : a ≤ b) :
    Fmt.roundCode f a den ≤ Fmt.roundCode f b den := by
  simp only [Fmt.roundCode]
  refine min_le_min_right _ ?_
  have hq : a / den ≤ b / den := Nat.div_le_div_right h
  have hL : Nat.log2 (a / den) ≤ Nat.log2 (b / den) := by
    rcases Nat.eq_zero_or_pos (a / den) with h0 | h0
    · rw [h0]; simp
    · rw [Nat.le_log2 (by omega)]
      exact (Nat.log2_self_le (by omega)).trans hq
  obtain ⟨ua, -⟩ := roundCode_bounds f a den hd _ rfl
  obtain ⟨-, lb⟩ := roundCode_bounds f b den hd _ rfl
  generalize hea : Nat.log2 (a / den) - f.frac = ea at *
  generalize heb : Nat.log2 (b / den) - f.frac = eb at *
  have hle : ea ≤ eb := by omega
  rcases hle.lt_or_eq with hlt | rfl
  · have lb := lb (by omega)
    have hs : ∀ x, x <<< f.frac = x * 2 ^ f.frac := fun x => Nat.shiftLeft_eq ..
    rw [hs, hs]
    have h1 : (ea + 1) * 2 ^ f.frac ≤ eb * 2 ^ f.frac := Nat.mul_le_mul_right _ hlt
    have h2 : 2 ^ (f.frac + 1) = 2 * 2 ^ f.frac := by rw [Nat.pow_succ, Nat.mul_comm]
    rw [Nat.add_mul] at h1
    omega
  · exact Nat.add_le_add_left (rneNat_mono a b _ h) _

/-- A representable magnitude rounds to its own code. -/
theorem roundCode_magOf (f : Fmt) (c : Nat) (h : c < Fmt.infCode f) : Fmt.roundCode f (Fmt.magOf f c) 1 = c := by
  have key : ∀ n e, Nat.log2 n - f.frac = e →
      Fmt.roundCode f n 1 = min (e * 2 ^ f.frac + rneNat n (2 ^ e)) (Fmt.infCode f) := by
    intro n e he
    simp [Fmt.roundCode, he, Nat.shiftLeft_eq]
  rcases code_cases f c with hs | ⟨e, r, hr, rfl⟩
  · rw [magOf_small f c hs, key c 0 (by
      rcases Nat.eq_zero_or_pos c with rfl | h0
      · simp
      · have := (Nat.log2_lt (by omega)).mpr hs; omega)]
    simp [rneNat_one]; omega
  · rw [magOf_normal f e r hr, key _ e (by
      have hp := Nat.two_pow_pos f.frac
      have hL : Nat.log2 ((2 ^ f.frac + r) * 2 ^ e) = f.frac + e := by
        rw [Nat.log2_eq_iff (Nat.mul_ne_zero (by omega) (Nat.two_pow_pos _).ne')]
        constructor
        · rw [Nat.pow_add]; exact Nat.mul_le_mul_right _ (by omega)
        · rw [Nat.add_right_comm, Nat.pow_add, Nat.pow_succ]
          exact Nat.mul_lt_mul_of_pos_right (by omega) (Nat.two_pow_pos _)
      omega), rneNat_mul _ _ (Nat.two_pow_pos _)]
    have : e * 2 ^ f.frac + (2 ^ f.frac + r) = (e + 1) * 2 ^ f.frac + r := by rw [Nat.add_mul]; omega
    rw [this]
    omega

/-- Codes and magnitudes are in the same order. -/
theorem magOf_lt (f : Fmt) (c d : Nat) (h : c < d) : Fmt.magOf f c < Fmt.magOf f d := by
  have hp := Nat.two_pow_pos f.frac
  rcases code_cases f c with hc | ⟨e, r, hr, rfl⟩ <;> rcases code_cases f d with hd | ⟨e', r', hr', rfl⟩
  · rwa [magOf_small f c hc, magOf_small f d hd]
  · rw [magOf_small f c hc, magOf_normal f e' r' hr']
    calc c < 2 ^ f.frac := hc
      _ ≤ (2 ^ f.frac + r') * 1 := by omega
      _ ≤ _ := Nat.mul_le_mul_left _ (Nat.two_pow_pos _)
  · have h1 : 1 * 2 ^ f.frac ≤ (e + 1) * 2 ^ f.frac := Nat.mul_le_mul_right _ (by omega)
    omega
  · rw [magOf_normal f e r hr, magOf_normal f e' r' hr']
    have hee : e ≤ e' := by
      by_contra hcon
      have : (e' + 1 + 1) * 2 ^ f.frac ≤ (e + 1) * 2 ^ f.frac := Nat.mul_le_mul_right _ (by omega)
      rw [Nat.add_mul (e' + 1)] at this
      omega
    rcases hee.lt_or_eq with hlt | rfl
    · calc (2 ^ f.frac + r) * 2 ^ e < (2 ^ f.frac * 2) * 2 ^ e := Nat.mul_lt_mul_of_pos_right (by omega) (Nat.two_pow_pos _)
        _ = 2 ^ f.frac * 2 ^ (e + 1) := by rw [Nat.pow_succ, Nat.mul_assoc, Nat.mul_comm 2]
        _ ≤ (2 ^ f.frac + r') * 2 ^ e' := Nat.mul_le_mul (by omega) (Nat.pow_le_pow_right (by omega) hlt)
    · exact Nat.mul_lt_mul_of_pos_right (by omega) (Nat.two_pow_pos _)

theorem magOf_le (f : Fmt) (c d : Nat) (h : c ≤ d) : Fmt.magOf f c ≤ Fmt.magOf f d := by
  rcases h.lt_or_eq with h | rfl
  · exact (magOf_lt f c d h).le
  · rfl

/-! ## What a rounded result denotes -/

theorem infCode_lt (f : Fmt) : Fmt.infCode f < 2 ^ Fmt.signPos f := by
  rw [Fmt.infCode, Nat.shiftLeft_eq, Fmt.signPos, Nat.pow_add]
  exact Nat.mul_lt_mul_of_pos_right (Nat.sub_lt (Nat.two_pow_pos _) Nat.one_pos) (Nat.two_pow_pos _)

theorem roundCode_le (f : Fmt) (num den : Nat) : Fmt.roundCode f num den ≤ Fmt.infCode f := Nat.min_le_right ..

/-- A sign and a code below or at infinity's, viewed. -/
theorem view_withSign (f : Fmt) (neg : Bool) (c : Nat) (h : c ≤ Fmt.infCode f) :
    Fmt.view f (Fmt.withSign f neg c) = if c < Fmt.infCode f then .fin neg (Fmt.magOf f c) else .inf neg := by
  have hlt : c < 2 ^ Fmt.signPos f := h.trans_lt (infCode_lt f)
  have hm : Fmt.withSign f neg c % 2 ^ Fmt.signPos f = c := by
    cases neg <;> simp [Fmt.withSign, Nat.mod_eq_of_lt hlt]
  have ht : (Fmt.withSign f neg c).testBit (Fmt.signPos f) = neg := by
    cases neg
    · simpa [Fmt.withSign] using Nat.testBit_lt_two_pow hlt
    · simp [Fmt.withSign, Nat.testBit_two_pow_add_eq, Nat.testBit_lt_two_pow hlt]
  simp only [Fmt.view, hm, ht]
  split
  · rfl
  · rw [if_pos (by omega)]

theorem withSign_lt64 (neg : Bool) (c : Nat) (h : c ≤ Fmt.infCode .b64) : Fmt.withSign .b64 neg c < 2 ^ 64 := by
  have := infCode_lt .b64
  have h2 : Fmt.signPos .b64 = 63 := rfl
  rw [h2] at this
  cases neg <;> simp [Fmt.withSign, h2] <;> omega

theorem withSign_lt32 (neg : Bool) (c : Nat) (h : c ≤ Fmt.infCode .b32) : Fmt.withSign .b32 neg c < 2 ^ 32 := by
  have := infCode_lt .b32
  have h2 : Fmt.signPos .b32 = 31 := rfl
  rw [h2] at this
  cases neg <;> simp [Fmt.withSign, h2] <;> omega

/-- A rational result, rounded to binary64 and viewed. -/
theorem view64_finish (d : Draw) (neg : Bool) (num den : Nat) :
    view64 (finish64 d (.rat neg num den)) =
      if Fmt.roundCode .b64 num den < Fmt.infCode .b64 then .fin neg (Fmt.magOf .b64 (Fmt.roundCode .b64 num den))
      else .inf neg := by
  rw [view64, finish64, Fmt.finish, BitVec.toNat_ofNat, Nat.mod_eq_of_lt (withSign_lt64 _ _ (roundCode_le ..)),
    view_withSign _ _ _ (roundCode_le ..)]

/-- A rational result, rounded to binary32 and viewed. -/
theorem view32_finish (d : Draw) (neg : Bool) (num den : Nat) :
    view32 (finish32 d (.rat neg num den)) =
      if Fmt.roundCode .b32 num den < Fmt.infCode .b32 then .fin neg (Fmt.magOf .b32 (Fmt.roundCode .b32 num den))
      else .inf neg := by
  rw [view32, finish32, Fmt.finish, BitVec.toNat_ofNat, Nat.mod_eq_of_lt (withSign_lt32 _ _ (roundCode_le ..)),
    view_withSign _ _ _ (roundCode_le ..)]

/-- The magnitude of a finite binary64 is that of a code below infinity's. -/
theorem view64_fin {x : F64} {neg : Bool} {m : Nat} (h : view64 x = .fin neg m) :
    ∃ c, c < Fmt.infCode .b64 ∧ m = Fmt.magOf .b64 c := by
  simp only [view64, Fmt.view] at h
  split at h
  · next hc => cases h; exact ⟨_, hc, rfl⟩
  · split at h <;> cases h

theorem Fp.add_pos (m n : Nat) : Fp.add (.fin false m) (.fin false n) = .rat false (m + n) 1 := by
  simp only [Fp.add, signed, Bool.false_eq_true, if_false, Bool.and_self]
  by_cases h0 : m + n = 0
  · rw [if_pos (by omega), h0]
  · rw [if_neg (by omega), decide_eq_false (by omega)]
    congr 1

theorem Fp.sub_pos (m n : Nat) (h : n ≤ m) : Fp.add (.fin false m) (Fp.neg (.fin false n)) = .rat false (m - n) 1 := by
  simp only [Fp.neg, Fp.add, signed, Bool.not_false, if_true, Bool.false_eq_true, if_false, Bool.false_and]
  by_cases h0 : m = n
  · rw [if_pos (by omega), h0, Nat.sub_self]
  · rw [if_neg (by omega), decide_eq_false (by omega)]
    congr 1; omega

theorem Fp.ge_pos (m n : Nat) : Fp.ge (.fin false m) (.fin false n) = decide (n ≤ m) := by
  simp [Fp.ge, signed]

/-- Below 1.0 a magnitude is at most that of the greatest binary64 below 1.0. -/
theorem mag_lt_one {x : F64} {neg : Bool} {m : Nat} (h : view64 x = .fin neg m) (hm : m < 2 ^ 1074) :
    m ≤ 2 ^ 1074 - 2 ^ 1021 := by
  obtain ⟨c, -, rfl⟩ := view64_fin h
  have h1 : Fmt.magOf .b64 0x3FF0000000000000 = 2 ^ 1074 := by decide +kernel
  have h2 : Fmt.magOf .b64 0x3FEFFFFFFFFFFFFF = 2 ^ 1074 - 2 ^ 1021 := by decide +kernel
  have hc : c < 0x3FF0000000000000 := by
    by_contra hcon
    have := magOf_le .b64 _ c (Nat.le_of_not_lt hcon)
    omega
  exact (magOf_le .b64 c 0x3FEFFFFFFFFFFFFF (by omega)).trans_eq h2

/-- The rounding of what is at most `2 - 2^-52` is below 2.0 (spec/43_modulator_mixer.md R184). -/
theorem round_lt_two (n : Nat) (h : n ≤ 2 ^ 1075 - 2 ^ 1022) :
    Fmt.roundCode .b64 n 1 < Fmt.infCode .b64 ∧ Fmt.magOf .b64 (Fmt.roundCode .b64 n 1) < 2 ^ 1075 := by
  have h1 : Fmt.magOf .b64 0x3FFFFFFFFFFFFFFF = 2 ^ 1075 - 2 ^ 1022 := by decide +kernel
  have h2 : Fmt.magOf .b64 0x4000000000000000 = 2 ^ 1075 := by decide +kernel
  have hinf : Fmt.infCode .b64 = 0x7FF0000000000000 := by decide
  have hle := roundCode_mono .b64 n (2 ^ 1075 - 2 ^ 1022) 1 Nat.one_pos h
  rw [← h1, roundCode_magOf .b64 0x3FFFFFFFFFFFFFFF (by rw [hinf]; omega)] at hle
  refine ⟨by rw [hinf]; omega, ?_⟩
  rw [← h2]
  exact magOf_lt .b64 _ _ (by omega)

/-- The phase MODULATE uses is in [0, 1) (R184). -/
theorem wrapPhase_inUnit (step k : Nat) {v : F64} (h : InTwo v) : InUnit (wrapPhase step k v) := by
  obtain ⟨m, hv, hm⟩ := h
  have h1 : view64 one64 = .fin false (2 ^ 1074) := by decide +kernel
  have hge : ge64 v one64 = decide (2 ^ 1074 ≤ m) := by rw [ge64, hv, h1, Fp.ge_pos]
  simp only [wrapPhase, hge]
  by_cases hc : 2 ^ 1074 ≤ m
  · simp only [hc, decide_true, if_true]
    -- the difference, a multiple of the unit in the last place of [1, 2), is exact
    obtain ⟨c, -, rfl⟩ := view64_fin hv
    have hlt : Fmt.magOf .b64 c - 2 ^ 1074 ≤ 2 ^ 1074 - 2 ^ 1022 := by
      have h3 : Fmt.magOf .b64 0x3FFFFFFFFFFFFFFF = 2 ^ 1075 - 2 ^ 1022 := by decide +kernel
      have h4 : Fmt.magOf .b64 0x4000000000000000 = 2 ^ 1075 := by decide +kernel
      have hcc : c < 0x4000000000000000 := by
        by_contra hcon
        have := magOf_le .b64 _ c (Nat.le_of_not_lt hcon)
        omega
      have := magOf_le .b64 c 0x3FFFFFFFFFFFFFFF (by omega)
      omega
    have hex : Fp.add (view64 v) (Fp.neg (view64 one64)) = .rat false (Fmt.magOf .b64 c - 2 ^ 1074) 1 := by
      rw [hv, h1, Fp.sub_pos _ _ hc]
    have hz : Fmt.magOf .b64 0x3FEFFFFFFFFFFFFF = 2 ^ 1074 - 2 ^ 1021 := by decide +kernel
    have hinf : Fmt.infCode .b64 = 0x7FF0000000000000 := by decide
    have hle := roundCode_mono .b64 (Fmt.magOf .b64 c - 2 ^ 1074) (2 ^ 1074 - 2 ^ 1021) 1 Nat.one_pos (by omega)
    rw [← hz, roundCode_magOf .b64 0x3FEFFFFFFFFFFFFF (by rw [hinf]; omega)] at hle
    refine ⟨Fmt.magOf .b64 (Fmt.roundCode .b64 (Fmt.magOf .b64 c - 2 ^ 1074) 1), ?_, ?_⟩
    · rw [sub64, hex, view64_finish, if_pos (by rw [hinf]; omega)]
    · have := magOf_le .b64 _ _ hle
      omega
  · simp only [hc, decide_false, Bool.false_eq_true, if_false]
    exact ⟨m, hv, by omega⟩

/-- The stored phase stays in [0, 2) (R184). -/
theorem advance_inTwo (step k : Nat) {u f : F64} (hu : InUnit u) (hf : InUnit f) : InTwo (advance step k u f) := by
  obtain ⟨m, hum, hm⟩ := hu
  obtain ⟨n, hfn, hn⟩ := hf
  have hm' := mag_lt_one hum hm
  have hn' := mag_lt_one hfn hn
  have hex : Fp.add (view64 u) (view64 f) = .rat false (m + n) 1 := by
    rw [hum, hfn, Fp.add_pos]
  obtain ⟨h1, h2⟩ := round_lt_two (m + n) (by omega)
  exact ⟨_, by rw [advance, add64, hex, view64_finish, if_pos h1], h2⟩

end Sys2Proof.Machine
end

