-- ==== Sys2Proof/Laws/Memory.lean ====
section
/-! SUPPORT. The buffer memory: a write keeps the canonical form, a read after a write gives the value written, and every
other byte and word is left alone. -/

namespace Sys2Proof.Machine

open Sys2Proof

theorem Memory.get_set (m : Memory) (a b : Nat) (v : BitVec 8) (h : Memory.Wf m) :
    Memory.get (Memory.set m a v) b = if a = b then some v else Memory.get m b := by
  induction m with
  | nil => simp [Memory.set, Memory.get]
  | cons e m ih =>
    obtain ⟨k, c⟩ := e
    simp only [Memory.Wf, List.map_cons, List.pairwise_cons] at h
    have ih := ih h.2
    simp only [Memory.set]
    split
    · simp only [Memory.get]
    · split
      · next h1 h2 =>
        subst h2
        simp only [Memory.get]
        split <;> simp_all
      · simp only [Memory.get, ih]
        by_cases hk : k = b
        · have : a ≠ b := by omega
          simp [hk, this]
        · simp [hk]

theorem Memory.mem_set_keys (m : Memory) (a : Nat) (v : BitVec 8) :
    ∀ x ∈ (Memory.set m a v).map Prod.fst, x = a ∨ x ∈ m.map Prod.fst := by
  induction m with
  | nil => simp [Memory.set]
  | cons e m ih =>
    obtain ⟨k, c⟩ := e
    simp only [Memory.set]
    split
    · simp
    · split
      · simp_all
      · intro x hx
        simp only [List.map_cons, List.mem_cons] at hx ⊢
        rcases hx with rfl | hx
        · simp
        · rcases ih x hx with h | h <;> simp [h]

theorem Memory.wf_set (m : Memory) (a : Nat) (v : BitVec 8) (h : Memory.Wf m) : Memory.Wf (Memory.set m a v) := by
  induction m with
  | nil => simp [Memory.set, Memory.Wf]
  | cons e m ih =>
    obtain ⟨k, c⟩ := e
    have hall : Memory.Wf ((k, c) :: m) := h
    simp only [Memory.Wf, List.map_cons, List.pairwise_cons] at h
    simp only [Memory.set]
    split
    · next hlt =>
      simp only [Memory.Wf, List.map_cons, List.pairwise_cons, List.mem_cons]
      refine ⟨fun x hx => ?_, h⟩
      rcases hx with rfl | hx
      · exact hlt
      · exact hlt.trans (h.1 x hx)
    · split
      · next h1 h2 => subst h2; simpa [Memory.Wf] using h
      · next h1 h2 =>
        simp only [Memory.Wf, List.map_cons, List.pairwise_cons]
        refine ⟨fun x hx => ?_, ih h.2⟩
        rcases Memory.mem_set_keys m a v x hx with rfl | hx
        · omega
        · exact h.1 x hx

theorem Memory.wf_setWord (m : Memory) (a : Nat) (v : Word) (h : Memory.Wf m) : Memory.Wf (Memory.setWord m a v) :=
  Memory.wf_set _ _ _ (Memory.wf_set _ _ _ (Memory.wf_set _ _ _ (Memory.wf_set _ _ _ h)))

/-- Writing a byte leaves every other byte as it was, in a memory of any form. -/
theorem Memory.get_set_ne (m : Memory) {a b : Nat} (v : BitVec 8) (h : a ≠ b) :
    Memory.get (Memory.set m a v) b = Memory.get m b := by
  induction m with
  | nil => simp [Memory.set, Memory.get, h]
  | cons e m ih =>
    obtain ⟨k, c⟩ := e
    simp only [Memory.set]
    split
    · rw [Memory.get, if_neg h]
    · split
      · next hk => rw [Memory.get, if_neg h, Memory.get, if_neg (by omega)]
      · rw [Memory.get, Memory.get, ih]

/-- Writing a word leaves every other byte as it was, in a memory of any form. -/
theorem Memory.get_setWord_ne (m : Memory) {a b : Nat} (v : Word) (h : ¬ (a ≤ b ∧ b ≤ a + 3)) :
    Memory.get (Memory.setWord m a v) b = Memory.get m b := by
  rw [Memory.setWord, Memory.get_set_ne _ _ (by omega), Memory.get_set_ne _ _ (by omega), Memory.get_set_ne _ _ (by omega),
    Memory.get_set_ne _ _ (by omega)]

/-- Reading a byte after a word was written. -/
theorem Memory.get_setWord (m : Memory) (a b : Nat) (v : Word) (h : Memory.Wf m) :
    Memory.get (Memory.setWord m a v) b =
      if a + 3 = b then some (v.extractLsb' 24 8)
      else if a + 2 = b then some (v.extractLsb' 16 8)
      else if a + 1 = b then some (v.extractLsb' 8 8)
      else if a = b then some (v.extractLsb' 0 8)
      else Memory.get m b := by
  have h0 := Memory.wf_set m a (v.extractLsb' 0 8) h
  have h1 := Memory.wf_set _ (a + 1) (v.extractLsb' 8 8) h0
  have h2 := Memory.wf_set _ (a + 2) (v.extractLsb' 16 8) h1
  rw [Memory.setWord, Memory.get_set _ _ _ _ h2, Memory.get_set _ _ _ _ h1, Memory.get_set _ _ _ _ h0,
    Memory.get_set _ _ _ _ h]

/-- A byte outside the four bytes written reads as before. -/
theorem Memory.get_setWord_of_ne (m : Memory) (a b : Nat) (v : Word) (h : Memory.Wf m) (hb : b < a ∨ a + 3 < b) :
    Memory.get (Memory.setWord m a v) b = Memory.get m b := by
  rw [Memory.get_setWord m a b v h]
  repeat rw [if_neg (by omega)]

/-- The four bytes of a word, put together again. -/
theorem append_extract_bytes (v : Word) :
    (v.extractLsb' 24 8 ++ v.extractLsb' 16 8 ++ v.extractLsb' 8 8 ++ v.extractLsb' 0 8 : BitVec 32) = v := by
  apply BitVec.eq_of_getLsbD_eq
  intro i hi
  simp only [BitVec.getLsbD_append, BitVec.getLsbD_extractLsb']
  by_cases h0 : i < 8
  · simp [h0]
  · by_cases h1 : i < 16
    · simp [h0, show i - 8 < 8 by omega, show 8 + (i - 8) = i by omega]
    · by_cases h2 : i < 24
      · simp [h0, show ¬ i - 8 < 8 by omega, show i - 8 - 8 < 8 by omega, show 16 + (i - 8 - 8) = i by omega]
      · simp [h0, show ¬ i - 8 < 8 by omega, show ¬ i - 8 - 8 < 8 by omega, show i - 8 - 8 - 8 < 8 by omega,
          show 24 + (i - 8 - 8 - 8) = i by omega]

/-- A word read after it was written is the word written. -/
theorem Memory.word_setWord (m : Memory) (a : Nat) (v : Word) (h : Memory.Wf m) :
    Memory.word (Memory.setWord m a v) a = some v := by
  simp only [Memory.word, Memory.get_setWord m a _ v h]
  simp [append_extract_bytes]

/-- A word that shares no byte with the one written reads as before. -/
theorem Memory.word_setWord_of_ne (m : Memory) (a b : Nat) (v : Word) (h : Memory.Wf m) (hb : b + 3 < a ∨ a + 3 < b) :
    Memory.word (Memory.setWord m a v) b = Memory.word m b := by
  simp only [Memory.word]
  repeat rw [Memory.get_setWord_of_ne m a _ v h (by omega)]

/-- Every memory the mix of a channel builds is in the canonical form. -/
theorem wf_mixSamples (step n c : Nat) (u : Instance) (k : Nat) (m : Memory) (h : Memory.Wf m) :
    Memory.Wf (forUp (mixSample step n c u) k m) := by
  induction k with
  | zero => exact h
  | succ k ih => exact Memory.wf_setWord _ _ _ ih

/-- Memory at power-on has the canonical form. -/
theorem wf_reset : Memory.Wf State.reset.inst.mem := List.Pairwise.nil

end Sys2Proof.Machine
end

