-- ==== Sys2Proof/Laws/Window.lean ====
section
/-! SUPPORT. Every window word is a finite binary64, never a negative zero, and small: what the exact delay of the in-phase
path rests on. The bound is far from tight; it is enough that windowing keeps a finite sample finite. -/

namespace Sys2Proof.Machine

open Sys2Proof Sys2Proof.Config

/-! ## Rounding below a representable value -/

theorem rneNat_scale (a b k : Nat) (hk : 0 < k) : rneNat (a * k) (b * k) = rneNat a b := by
  simp only [rneNat, Nat.mul_div_mul_right a b hk, Nat.mul_mod_mul_right]
  have h1 : (b * k < 2 * (a % b * k)) = (b < 2 * (a % b)) := by
    rw [← Nat.mul_assoc]; exact propext (Nat.mul_lt_mul_right hk)
  have h2 : (2 * (a % b * k) = b * k) = (2 * (a % b) = b) := by
    rw [← Nat.mul_assoc]; exact propext (Nat.mul_left_inj (by omega))
  simp only [h1, h2]

/-- A fraction written with a common factor rounds as the integer it is. -/
theorem roundCode_scale (f : Fmt) (n den : Nat) (hd : 0 < den) : Fmt.roundCode f (n * den) den = Fmt.roundCode f n 1 := by
  simp only [Fmt.roundCode, Nat.mul_div_cancel _ hd, Nat.div_one, Nat.shiftLeft_eq, Nat.one_mul]
  rw [Nat.mul_comm den, rneNat_scale _ _ _ hd]

/-- What is at most a representable magnitude rounds to at most its code. -/
theorem roundCode_le_of_le (f : Fmt) (num den c : Nat) (hd : 0 < den) (hc : c < Fmt.infCode f)
    (h : num ≤ Fmt.magOf f c * den) : Fmt.roundCode f num den ≤ c := by
  have := roundCode_mono f num _ den hd h
  rwa [roundCode_scale f _ den hd, roundCode_magOf f c hc] at this

theorem shiftLeft_le (a b c : Nat) (h : a ≤ b) : a <<< c ≤ b * 2 ^ c := by
  rw [Nat.shiftLeft_eq]; exact Nat.mul_le_mul_right _ h

theorem two_pow_1074_pos : 0 < 2 ^ 1074 := by decide +kernel

/-- A finite binary64 whose magnitude is at most that of a code. -/
def Small (c : Nat) (x : F64) : Prop := ∃ s m, view64 x = .fin s m ∧ m ≤ Fmt.magOf .b64 c

theorem small_finish (d : Draw) (neg : Bool) (num den c : Nat) (hd : 0 < den) (hc : c < Fmt.infCode .b64)
    (h : num ≤ Fmt.magOf .b64 c * den) : ∃ m, view64 (finish64 d (.rat neg num den)) = .fin neg m ∧ m ≤ Fmt.magOf .b64 c := by
  have hle := roundCode_le_of_le .b64 num den c hd hc h
  exact ⟨_, by rw [view64_finish, if_pos (hle.trans_lt hc)], magOf_le .b64 _ _ hle⟩

theorem small_mul (d : Draw) {x y : F64} {a b : Nat} (c : Nat) (hc : c < Fmt.infCode .b64) (hx : Small a x) (hy : Small b y)
    (h : Fmt.magOf .b64 a * Fmt.magOf .b64 b ≤ Fmt.magOf .b64 c * 2 ^ 1074) :
    ∃ s m t n k, view64 x = .fin s m ∧ view64 y = .fin t n ∧ view64 (mul64 d x y) = .fin (s ^^ t) k ∧
      k ≤ Fmt.magOf .b64 c := by
  obtain ⟨s, m, hm, hm'⟩ := hx
  obtain ⟨t, n, hn, hn'⟩ := hy
  obtain ⟨k, hk, hk'⟩ := small_finish d (s ^^ t) (m * n) (2 ^ 1074) c two_pow_1074_pos hc
    ((Nat.mul_le_mul hm' hn').trans h)
  exact ⟨s, m, t, n, k, hm, hn, by rw [mul64, hm, hn, Fp.mul]; exact hk, hk'⟩

theorem lt_infCode {c : Nat} (h : c < 0x7FF0000000000000) : c < Fmt.infCode .b64 := by
  have hinf : Fmt.infCode .b64 = 0x7FF0000000000000 := by decide
  rw [hinf]; exact h

/-! ## The reference sine on a small argument -/

/-- The series never exceeds three times its first term while the square of the argument is at most 4. -/
theorem taylor_bound (x2 K : Nat) (hx : x2 ≤ 4 * 2 ^ (2 * K)) :
    ∀ fuel k t, 1 ≤ k → (taylor x2 K fuel k t).natAbs ≤ 3 * t
  | 0, _, _, _ => by simp [taylor]
  | fuel + 1, k, t, hk => by
    rw [taylor]
    split
    · simp
    · have ih := taylor_bound x2 K hx fuel (k + 2) ((t * x2 / ((k + 1) * (k + 2))) >>> (2 * K)) (by omega)
      generalize hu : (t * x2 / ((k + 1) * (k + 2))) >>> (2 * K) = u at *
      have h6 : 6 ≤ (k + 1) * (k + 2) := Nat.mul_le_mul (show 2 ≤ k + 1 by omega) (show 3 ≤ k + 2 by omega)
      have h1 : u * 2 ^ (2 * K) ≤ t * x2 / 6 := by
        rw [← hu, Nat.shiftRight_eq_div_pow]
        exact (Nat.div_mul_le_self ..).trans (Nat.div_le_div_left h6 (by decide))
      have h2 : u * 2 ^ (2 * K) * 6 ≤ t * (4 * 2 ^ (2 * K)) :=
        (Nat.mul_le_mul_right 6 h1).trans ((Nat.div_mul_le_self ..).trans (Nat.mul_le_mul_left t hx))
      have h3 : 6 * u ≤ 4 * t := by
        refine Nat.le_of_mul_le_mul_right (c := 2 ^ (2 * K)) ?_ (Nat.two_pow_pos _)
        calc 6 * u * 2 ^ (2 * K) = u * 2 ^ (2 * K) * 6 := by rw [Nat.mul_comm 6 u, Nat.mul_right_comm]
          _ ≤ t * (4 * 2 ^ (2 * K)) := h2
          _ = 4 * t * 2 ^ (2 * K) := by rw [← Nat.mul_assoc, Nat.mul_comm t 4]
      omega

theorem agreed_aux {lo hi v : F64} (h : (if lo = hi then some lo else none) = some v) : v = lo := by
  by_cases he : lo = hi
  · rw [if_pos he] at h; exact (Option.some.inj h).symm
  · rw [if_neg he] at h; cases h

theorem even_aux (lo hi : F64) : (if lo.toNat % 2 = 0 then lo else hi) = lo ∨ (if lo.toNat % 2 = 0 then lo else hi) = hi := by
  by_cases he : lo.toNat % 2 = 0
  · exact .inl (if_pos he)
  · exact .inr (if_neg he)

theorem agreed_def (b : Ball) (K : Nat) : b.agreed K =
    if roundInt64 (b.c - b.r) K = roundInt64 (b.c + b.r) K then some (roundInt64 (b.c - b.r) K) else none := by
  rw [Ball.agreed]

theorem even_def (b : Ball) (K : Nat) : b.even K =
    if (roundInt64 (b.c - b.r) K).toNat % 2 = 0 then roundInt64 (b.c - b.r) K else roundInt64 (b.c + b.r) K := by
  rw [Ball.even]

/-- What holds of the roundings of both ends of an enclosure holds of the value chosen. -/
theorem agreed_ends {P : F64 → Prop} {b : Ball} {K : Nat} {v : F64} (h : b.agreed K = some v)
    (h1 : P (roundInt64 (b.c - b.r) K)) : P v := by
  rw [agreed_def] at h
  generalize roundInt64 (b.c - b.r) K = lo at h h1
  generalize roundInt64 (b.c + b.r) K = hi at h
  rw [agreed_aux h]; exact h1

theorem even_ends {P : F64 → Prop} {b : Ball} {K : Nat} (h1 : P (roundInt64 (b.c - b.r) K))
    (h2 : P (roundInt64 (b.c + b.r) K)) : P (b.even K) := by
  rw [even_def]
  generalize roundInt64 (b.c - b.r) K = lo at *
  generalize roundInt64 (b.c + b.r) K = hi at *
  rcases even_aux lo hi with he | he <;> rw [he] <;> assumption

/-- What holds of the roundings of both ends of every enclosure holds of the value chosen. -/
theorem roundBall_induction {P : F64 → Prop} (enclose : Nat → Ball) : ∀ l : List Nat, l ≠ [] →
    (∀ K ∈ l, P (roundInt64 ((enclose K).c - (enclose K).r) K) ∧ P (roundInt64 ((enclose K).c + (enclose K).r) K)) →
    P (roundBall enclose l)
  | [], h, _ => absurd rfl h
  | [K], _, h => by
    obtain ⟨h1, h2⟩ := h K (List.mem_singleton.mpr rfl)
    rw [roundBall]
    rcases ha : (enclose K).agreed K with _ | v
    · exact even_ends (P := P) h1 h2
    · exact agreed_ends (P := P) ha h1
  | K :: K' :: Ks, _, h => by
    have ih := roundBall_induction enclose (K' :: Ks) (by simp) fun J hJ => h J (List.mem_cons_of_mem _ hJ)
    rw [roundBall]
    rcases ha : (enclose K).agreed K with _ | v
    · exact ih
    · exact agreed_ends (P := P) ha (h K (List.mem_cons_self ..)).1

theorem rne64_eq (d : Draw) (neg : Bool) (num den : Nat) :
    rne64 neg num den = finish64 d (.rat neg (num <<< 1074) den) := by
  rw [rne64, finish64, Fmt.finish]

theorem roundInt64_eq (d : Draw) (c : Int) (K : Nat) :
    roundInt64 c K = finish64 d (.rat (decide (c < 0)) (c.natAbs <<< 1074) (2 ^ K)) := by
  unfold roundInt64; exact rne64_eq d _ _ _

/-- An integer below 8 units of 1 rounds to at most 8.0. -/
theorem small_roundInt (c : Int) (K : Nat) (h : c.natAbs ≤ 8 * 2 ^ K) : Small 0x4020000000000000 (roundInt64 c K) := by
  have e : Fmt.magOf .b64 0x4020000000000000 = 8 * 2 ^ 1074 := by decide +kernel
  have hle : c.natAbs <<< 1074 ≤ Fmt.magOf .b64 0x4020000000000000 * 2 ^ K := by
    rw [e, Nat.mul_right_comm]
    exact shiftLeft_le _ _ _ h
  obtain ⟨m, hm, hm'⟩ := small_finish ⟨0, .rom, 0, 0⟩ (decide (c < 0)) _ _ _ (Nat.two_pow_pos K) (lt_infCode (by decide)) hle
  rw [roundInt64_eq ⟨0, .rom, 0, 0⟩]
  exact ⟨_, m, hm, hm'⟩

/-- The reference sine of an argument of at most 2 is at most 8 (a bound, not the value). -/
theorem small_sinRef (d : Draw) {x : F64} (hx : Small 0x4000000000000000 x) : Small 0x4020000000000000 (sinRef d x) := by
  obtain ⟨s, m, hv, hm⟩ := hx
  have e2 : Fmt.magOf .b64 0x4000000000000000 = 2 * 2 ^ 1074 := by decide +kernel
  simp only [sinRef, hv]
  by_cases ht : m < tinyMag
  · rw [if_pos ht]
    exact ⟨s, m, hv, hm.trans (magOf_le .b64 _ _ (by decide))⟩
  · rw [if_neg ht]
    refine roundBall_induction (P := Small 0x4020000000000000) _ trigLadder (by decide) fun K hK => ?_
    have h48 : 2 ^ 48 ≤ 2 ^ K := Nat.pow_le_pow_right (by omega) (by
      simp only [trigLadder, List.mem_cons, List.not_mem_nil, or_false] at hK; omega)
    have hr : reduceArg K m ≤ 2 * 2 ^ K := by
      rw [reduceArg, if_pos (hm.trans_lt (by rw [e2]; exact Nat.mul_lt_mul_of_pos_right (by decide) two_pow_1074_pos)),
        Nat.shiftLeft_eq, Nat.shiftRight_eq_div_pow]
      refine Nat.div_le_of_le_mul ?_
      rw [e2] at hm
      calc m * 2 ^ K ≤ 2 * 2 ^ 1074 * 2 ^ K := Nat.mul_le_mul_right _ hm
        _ = 2 ^ 1074 * (2 * 2 ^ K) := by rw [Nat.mul_comm 2 (2 ^ 1074), Nat.mul_assoc]
    have hsq : reduceArg K m * reduceArg K m ≤ 4 * 2 ^ (2 * K) := by
      refine (Nat.mul_le_mul hr hr).trans_eq ?_
      rw [Nat.two_mul K, Nat.pow_add, Nat.mul_mul_mul_comm]
    have hb := taylor_bound _ K hsq K 1 (reduceArg K m) le_rfl
    generalize hc : taylor (reduceArg K m * reduceArg K m) K K 1 (reduceArg K m) = c at hb
    have hball : sinBall K (reduceArg K m) = ⟨c, 2 ^ 48⟩ := by rw [sinBall, hc]
    generalize hP : 2 ^ K = P at h48 hr
    have h48' : (2 : Int) ^ 48 ≤ P := by exact_mod_cast h48
    cases s
    · simp only [hball]
      constructor <;>
      · apply small_roundInt
        rw [hP]
        push_cast
        omega
    · simp only [hball]
      constructor <;>
      · apply small_roundInt
        rw [hP]
        push_cast
        omega

/-! ## The window words -/

/-- Every word of the reference table is a finite non-negative binary64. -/
theorem windowRefHalf_range (i : Nat) (h : i < 512) :
    ∃ m, view64 (windowRefHalf i) = .fin false m ∧ m ≤ 64 * 2 ^ 1074 := by
  have e512 : Fmt.magOf .b64 0x4080000000000000 = 512 * 2 ^ 1074 := by decide +kernel
  have e64 : Fmt.magOf .b64 0x4050000000000000 = 64 * 2 ^ 1074 := by decide +kernel
  have hi : Small 0x4080000000000000 (rne64 false i 1) := by
    obtain ⟨m, hm, hm'⟩ := small_finish ⟨0, .rom, 0, 0⟩ false (i <<< 1074) 1 0x4080000000000000 Nat.one_pos
      (lt_infCode (by decide)) (by
        rw [e512, Nat.mul_one]
        exact shiftLeft_le _ _ _ h.le)
    rw [rne64_eq ⟨0, .rom, 0, 0⟩]
    exact ⟨false, m, hm, hm'⟩
  have hs : Small 0x3F692845659D947D windowScale :=
    ⟨false, Fmt.magOf .b64 0x3F692845659D947D, by decide +kernel, le_rfl⟩
  have ht : Small 0x4000000000000000 (mul64 ⟨0, .rom, i, 1⟩ (rne64 false i 1) windowScale) := by
    obtain ⟨_, _, _, _, k, -, -, hk, hk'⟩ := small_mul ⟨0, .rom, i, 1⟩ 0x4000000000000000 (lt_infCode (by decide)) hi hs
      (by decide +kernel)
    exact ⟨_, k, hk, hk'⟩
  have hv := small_sinRef ⟨0, .rom, i, 2⟩ ht
  obtain ⟨s, m, t, n, k, h1, h2, hk, hk'⟩ := small_mul ⟨0, .rom, i, 3⟩ 0x4050000000000000 (lt_infCode (by decide)) hv hv
    (by decide +kernel)
  obtain ⟨rfl, -⟩ := Fp.fin.inj (h1.symm.trans h2)
  rw [Bool.xor_self] at hk
  rw [e64] at hk'
  exact ⟨k, hk, hk'⟩

/-- WREAD answers a finite binary64, never a negative zero, for every table (spec/40_window_table.md R121). -/
theorem wread_range (p : Impl) (i : Nat) (h : i < 1024) :
    ∃ m, view64 (wread p i) = .fin false m ∧ m ≤ 64 * 2 ^ 1074 := by
  have ref : ∀ j, j < 512 → ∃ m, view64 (windowRefTable.getD j 0) = .fin false m ∧ m ≤ 64 * 2 ^ 1074 := fun j hj => by
    rw [windowRefTable, getD_tabulate_of_lt _ _ hj]
    exact windowRefHalf_range j hj
  have half : ∀ j, j < 512 → ∃ m, view64 (windowHalf p j) = .fin false m ∧ m ≤ 64 * 2 ^ 1074 := fun j hj => by
    cases p with
    | reference => exact ref j hj
    | other id =>
      simp only [windowHalf]
      split
      · exact ⟨0, by decide +kernel, Nat.zero_le _⟩
      · split
        · next ha =>
          simp only [windowAccepts, Bool.and_eq_true, Bool.not_eq_true', decide_eq_true_eq] at ha
          obtain ⟨⟨⟨hf, hneg⟩, hle⟩, -⟩ := ha
          generalize rawWindow id j = w at *
          rcases hv : view64 w with _ | _ | ⟨s, m⟩
          · simp [isFinite64, hv] at hf
          · simp [isFinite64, hv] at hf
          · have hs : s = false := by
              have h1 : s = w.toNat.testBit 63 := by
                simp only [view64, Fmt.view] at hv
                split at hv
                · exact (Fp.fin.inj hv).1.symm
                · split at hv <;> cases hv
              rw [h1, ← hneg, BitVec.msb_eq_getLsbD_last]
              rfl
            subst hs
            refine ⟨m, rfl, ?_⟩
            have h2 : (int64Of w).natAbs = m := by rw [int64Of, hv]; rfl
            rw [h2] at hle
            exact hle.trans (Nat.le_mul_of_pos_left (2 ^ 1074) (by decide))
        · exact ref j hj
  simp only [wread]
  split
  · exact half i ‹_›
  · exact half _ (by omega)

end Sys2Proof.Machine
end

