-- ==== Sys2Proof/Laws/Rounding.lean ====
section
/-! SUPPORT. The rounding of a real number through an enclosure: where both ends of the enclosure round alike the number
rounds so too, ends with no half-integer between them do round alike, and a rounded end is near the number. -/

namespace Sys2Proof.Machine

set_option Elab.async false

open Sys2Proof Sys2Proof.Config

/-! ## Rounding a fraction does not depend on how it is written -/

theorem roundCode_cancel (f : Fmt) (n d k : Nat) (hk : 0 < k) : Fmt.roundCode f (n * k) (d * k) = Fmt.roundCode f n d := by
  simp only [Fmt.roundCode, Nat.mul_div_mul_right n d hk, Nat.shiftLeft_eq]
  rw [Nat.mul_right_comm d k, rneNat_scale _ _ _ hk]

/-- Rounding is monotone in the fraction. -/
theorem roundCode_mono_frac (f : Fmt) (a b c d : Nat) (hb : 0 < b) (hd : 0 < d) (h : a * d ≤ c * b) :
    Fmt.roundCode f a b ≤ Fmt.roundCode f c d := by
  rw [← roundCode_cancel f a b d hd, ← roundCode_cancel f c d b hb, Nat.mul_comm d b]
  exact roundCode_mono f _ _ _ (Nat.mul_pos hb hd) h

/-- A fraction strictly between two neighbouring half-integers rounds by the lower one alone. -/
theorem roundCode_between (f : Fmt) (x d h : Nat) (hd : 0 < d) (h1 : h * d < 2 * x) (h2 : 2 * x < (h + 1) * d) :
    Fmt.roundCode f x d =
      let e := Nat.log2 (h / 2) - f.frac
      let q := h / 2 / 2 ^ e
      min (e * 2 ^ f.frac + if 2 ^ e * (2 * q + 1) ≤ h then q + 1 else q) (Fmt.infCode f) := by
  have hq : x / d = h / 2 := by
    rw [Nat.div_eq_iff hd]
    have e1 : h / 2 * d * 2 ≤ h * d := by
      calc h / 2 * d * 2 = h / 2 * 2 * d := by ring
        _ ≤ h * d := Nat.mul_le_mul_right _ (Nat.div_mul_le_self ..)
    have e2 : (h + 1) * d ≤ (h / 2 + 1) * 2 * d := Nat.mul_le_mul_right _ (by omega)
    have e3 : (h / 2 + 1) * 2 * d = h / 2 * d * 2 + 2 * d := by ring
    omega
  simp only [Fmt.roundCode, hq, Nat.shiftLeft_eq]
  congr 2
  generalize Nat.log2 (h / 2) - f.frac = e
  have hD : 0 < d * 2 ^ e := Nat.mul_pos hd (Nat.two_pow_pos _)
  have hQ : x / (d * 2 ^ e) = h / 2 / 2 ^ e := by rw [← Nat.div_div_eq_div_mul, hq]
  simp only [rneNat, hQ]
  generalize hq' : h / 2 / 2 ^ e = q at hQ
  have hx := Nat.div_add_mod x (d * 2 ^ e)
  rw [hQ] at hx
  have key : d * 2 ^ e + 2 * (d * 2 ^ e * q) = 2 ^ e * (2 * q + 1) * d := by ring
  -- twice the remainder is above or below the divisor, never at it
  by_cases hc : 2 ^ e * (2 * q + 1) ≤ h
  · have := Nat.mul_le_mul_right d hc
    rw [if_pos hc, if_pos (.inl (by omega))]
  · have : (h + 1) * d ≤ 2 ^ e * (2 * q + 1) * d := Nat.mul_le_mul_right d (by omega)
    rw [if_neg hc, if_neg (by omega)]

/-- Fractions with no half-integer between them round alike. -/
theorem roundCode_eq_of_no_half (f : Fmt) (a b d : Nat) (hd : 0 < d) (hab : a ≤ b)
    (hno : ∀ h : Nat, ¬ (2 * a ≤ h * d ∧ h * d ≤ 2 * b)) : Fmt.roundCode f a d = Fmt.roundCode f b d := by
  have h0 := Nat.div_mul_le_self (2 * a) d
  have h1 : 2 * a < (2 * a / d + 1) * d := by rw [Nat.add_mul, Nat.one_mul]; exact Nat.lt_div_mul_add hd
  have n0 := hno (2 * a / d)
  have n1 := hno (2 * a / d + 1)
  rw [roundCode_between f a d (2 * a / d) hd (by omega) h1, roundCode_between f b d (2 * a / d) hd (by omega) (by omega)]

/-! ## Rounding an end of an enclosure -/

theorem roundInt64_def (c : Int) (K : Nat) : roundInt64 c K =
    BitVec.ofNat 64 (Fmt.withSign .b64 (decide (c < 0)) (Fmt.roundCode .b64 (c.natAbs <<< 1074) (2 ^ K))) := by
  unfold roundInt64 rne64; rfl

theorem withSign_inj {n m : Bool} {a b : Nat} (ha : a ≤ Fmt.infCode .b64) (hb : b ≤ Fmt.infCode .b64)
    (h : BitVec.ofNat 64 (Fmt.withSign .b64 n a) = BitVec.ofNat 64 (Fmt.withSign .b64 m b)) : n = m ∧ a = b := by
  have h' := congrArg BitVec.toNat h
  rw [BitVec.toNat_ofNat, BitVec.toNat_ofNat, Nat.mod_eq_of_lt (withSign_lt64 _ _ ha),
    Nat.mod_eq_of_lt (withSign_lt64 _ _ hb)] at h'
  have hi := infCode_lt .b64
  simp only [Fmt.withSign] at h'
  generalize 2 ^ Fmt.signPos Fmt.b64 = P at hi h'
  cases n <;> cases m <;> simp only [Bool.false_eq_true, if_false, if_true, true_and, reduceCtorEq, false_and] at h' ⊢ <;>
    omega

theorem Ball.lo_le {K : Nat} {b : Ball} {v : ℝ} (h : b.Encloses K v) : ((b.c - b.r : ℤ) : ℝ) ≤ 2 ^ K * v := by
  rw [Ball.Encloses, abs_le] at h
  push_cast
  linarith [h.2]

theorem Ball.le_hi {K : Nat} {b : Ball} {v : ℝ} (h : b.Encloses K v) : 2 ^ K * v ≤ ((b.c + b.r : ℤ) : ℝ) := by
  rw [Ball.Encloses, abs_le] at h
  push_cast
  linarith [h.1]

/-- A magnitude between two that round alike has that code. -/
theorem between_rounded {u : ℝ} {lo hi D code : Nat} (hD : 0 < D) (h1 : (lo : ℝ) ≤ u * D) (h2 : u * D ≤ hi)
    (e1 : Fmt.roundCode .b64 lo D = code) (e2 : Fmt.roundCode .b64 hi D = code) (num den : Nat) (hden : 0 < den) :
    ((num : ℝ) ≤ u * den → Fmt.roundCode .b64 num den ≤ code) ∧
    (u * den ≤ (num : ℝ) → code ≤ Fmt.roundCode .b64 num den) := by
  have hDr : (0 : ℝ) < D := by exact_mod_cast hD
  have hdr : (0 : ℝ) < den := by exact_mod_cast hden
  constructor
  · intro h
    rw [← e2]
    refine roundCode_mono_frac _ _ _ _ _ hden hD ?_
    have : (num : ℝ) * D ≤ hi * den := by
      calc (num : ℝ) * D ≤ u * den * D := mul_le_mul_of_nonneg_right h hDr.le
        _ = u * D * den := by ring
        _ ≤ hi * den := mul_le_mul_of_nonneg_right h2 hdr.le
    exact_mod_cast this
  · intro h
    rw [← e1]
    refine roundCode_mono_frac _ _ _ _ _ hD hden ?_
    have : (lo : ℝ) * den ≤ num * D := by
      calc (lo : ℝ) * den ≤ u * D * den := mul_le_mul_of_nonneg_right h1 hdr.le
        _ = u * den * D := by ring
        _ ≤ num * D := mul_le_mul_of_nonneg_right h hDr.le
    exact_mod_cast this

/-- Where both ends of an enclosure round alike, every number it holds rounds so. -/
theorem Ball.agreed_roundsTo {K : Nat} {b : Ball} {w : ℝ} {x : F64} (henc : b.Encloses K w) (h : b.agreed K = some x) :
    RoundsTo (w * 2 ^ 1074) x := by
  have hl := Ball.lo_le henc
  have hh := Ball.le_hi henc
  rw [agreed_def, roundInt64_def, roundInt64_def] at h
  generalize b.c - (b.r : ℤ) = lo at *
  generalize b.c + (b.r : ℤ) = hi at *
  have hP : (0 : ℝ) < 2 ^ 1074 := by positivity
  have hK : (0 : ℝ) < 2 ^ K := by positivity
  have hcast : ∀ n : ℤ, ((n.natAbs <<< 1074 : ℕ) : ℝ) = |(n : ℝ)| * 2 ^ 1074 := by
    intro n
    rw [Nat.shiftLeft_eq, Nat.cast_mul, Nat.cast_natAbs, Nat.cast_pow, Nat.cast_ofNat, Int.cast_abs]
  have hcastK : ((2 ^ K : ℕ) : ℝ) = 2 ^ K := by rw [Nat.cast_pow, Nat.cast_ofNat]
  generalize hP' : (2 : ℝ) ^ 1074 = P at *
  split at h
  · next he =>
    obtain ⟨hs, hc⟩ := withSign_inj (roundCode_le ..) (roundCode_le ..) he
    obtain rfl := Option.some.inj h
    refine ⟨decide (lo < 0), _, rfl, ?_, ?_⟩
    · rw [decide_eq_true_iff]
      constructor
      · intro h0
        have h1 : hi < 0 := decide_eq_true_iff.mp (hs ▸ decide_eq_true h0)
        have h2 : (hi : ℝ) < 0 := by exact_mod_cast h1
        have h3 : w < 0 := by
          by_contra hw
          have := mul_nonneg hK.le (not_lt.mp hw)
          linarith
        exact mul_neg_of_neg_of_pos h3 hP
      · intro h0
        have h1 : w < 0 := by
          by_contra hw
          have := mul_nonneg (not_lt.mp hw) hP.le
          linarith
        have h2 : (lo : ℝ) < 0 := lt_of_le_of_lt hl (mul_neg_of_pos_of_neg hK h1)
        exact_mod_cast h2
    · rcases lt_or_ge lo 0 with h0 | h0
      · have h1 : hi < 0 := decide_eq_true_iff.mp (hs ▸ decide_eq_true h0)
        have h0' : (lo : ℝ) < 0 := by exact_mod_cast h0
        have h1' : (hi : ℝ) < 0 := by exact_mod_cast h1
        have hw : w ≤ 0 := by
          by_contra hw
          have := mul_pos hK (not_le.mp hw)
          linarith
        refine between_rounded (Nat.two_pow_pos K) ?_ ?_ hc.symm rfl
        · rw [hcast, hcastK, abs_of_neg h1', abs_mul, abs_of_nonpos hw, abs_of_pos hP]
          calc -(hi : ℝ) * P ≤ -(2 ^ K * w) * P := mul_le_mul_of_nonneg_right (by linarith) hP.le
            _ = -w * P * 2 ^ K := by ring
        · rw [hcast, hcastK, abs_of_neg h0', abs_mul, abs_of_nonpos hw, abs_of_pos hP]
          calc -w * P * 2 ^ K = -(2 ^ K * w) * P := by ring
            _ ≤ -(lo : ℝ) * P := mul_le_mul_of_nonneg_right (by linarith) hP.le
      · have h1 : 0 ≤ hi := by
          by_contra hn
          have : decide (lo < 0) = true := hs ▸ decide_eq_true (not_le.mp hn)
          exact absurd (decide_eq_true_iff.mp this) (not_lt.mpr h0)
        have h0' : (0 : ℝ) ≤ lo := by exact_mod_cast h0
        have h1' : (0 : ℝ) ≤ hi := by exact_mod_cast h1
        have hw : 0 ≤ w := by
          by_contra hw
          have := mul_neg_of_pos_of_neg hK (not_le.mp hw)
          linarith
        refine between_rounded (Nat.two_pow_pos K) ?_ ?_ rfl hc.symm
        · rw [hcast, hcastK, abs_of_nonneg h0', abs_mul, abs_of_nonneg hw, abs_of_pos hP]
          calc (lo : ℝ) * P ≤ (2 ^ K * w) * P := mul_le_mul_of_nonneg_right hl hP.le
            _ = w * P * 2 ^ K := by ring
        · rw [hcast, hcastK, abs_of_nonneg h1', abs_mul, abs_of_nonneg hw, abs_of_pos hP]
          calc w * P * 2 ^ K = (2 ^ K * w) * P := by ring
            _ ≤ (hi : ℝ) * P := mul_le_mul_of_nonneg_right hh hP.le
  · cases h

/-- An enclosure in smallest subnormals, at `K` places, is one of the number at `K + 1074` places. -/
theorem Ball.encloses_subnormals {K : Nat} {b : Ball} {v : ℝ} (h : b.Encloses K v) :
    b.Encloses (K + 1074) (v / 2 ^ 1074) := by
  have hP : (0 : ℝ) < 2 ^ 1074 := by positivity
  rw [Ball.Encloses, pow_add]
  generalize (2 : ℝ) ^ 1074 = P at *
  rw [mul_assoc, mul_div_cancel₀ v hP.ne']
  exact h

theorem Ball.agreed_roundsTo_subnormals {K : Nat} {b : Ball} {v : ℝ} {x : F64} (henc : b.Encloses K v)
    (h : b.agreed (K + 1074) = some x) : RoundsTo v x := by
  have hP : (0 : ℝ) < 2 ^ 1074 := by positivity
  have := Ball.agreed_roundsTo (Ball.encloses_subnormals henc) h
  generalize (2 : ℝ) ^ 1074 = P at *
  rwa [div_mul_cancel₀ v hP.ne'] at this

theorem roundCode_shift (f : Fmt) (n K s : Nat) : Fmt.roundCode f (n <<< s) (2 ^ (K + s)) = Fmt.roundCode f n (2 ^ K) := by
  rw [Nat.shiftLeft_eq, Nat.pow_add, roundCode_cancel _ _ _ _ (Nat.two_pow_pos _)]

/-- The code and the sign of an integer number of units of `2^-K` smallest subnormals. -/
theorem roundInt64_subnormals (c : Int) (K : Nat) : roundInt64 c (K + 1074) =
    BitVec.ofNat 64 (Fmt.withSign .b64 (decide (c < 0)) (Fmt.roundCode .b64 c.natAbs (2 ^ K))) := by
  rw [roundInt64_def]
  exact congrArg (fun n => BitVec.ofNat 64 (Fmt.withSign .b64 (decide (c < 0)) n)) (roundCode_shift .b64 _ K 1074)

/-- Numbers of smallest subnormals with no half-integer between them round alike. -/
theorem roundInt64_eq_of_no_half (lo hi : Int) (K : Nat) (hle : lo ≤ hi)
    (hno : ∀ h : Int, ¬ (2 * lo ≤ h * 2 ^ K ∧ h * 2 ^ K ≤ 2 * hi)) :
    roundInt64 lo (K + 1074) = roundInt64 hi (K + 1074) := by
  have hcast : ∀ h : Nat, ((h * 2 ^ K : ℕ) : ℤ) = (h : ℤ) * 2 ^ K := by intro h; push_cast; ring
  rw [roundInt64_subnormals, roundInt64_subnormals]
  have h0 := hno 0
  rw [Int.zero_mul] at h0
  have hsign : decide (lo < 0) = decide (hi < 0) := by
    by_cases h : lo < 0
    · rw [decide_eq_true h, decide_eq_true (by omega)]
    · rw [decide_eq_false h, decide_eq_false (by omega)]
  suffices hc : Fmt.roundCode .b64 lo.natAbs (2 ^ K) = Fmt.roundCode .b64 hi.natAbs (2 ^ K) by rw [hsign, hc]
  rcases lt_or_ge lo 0 with hl | hl
  · refine (roundCode_eq_of_no_half _ _ _ _ (Nat.two_pow_pos _) (by omega) fun h hh => ?_).symm
    have := hno (-(h : ℤ))
    have e := hcast h
    rw [Int.neg_mul] at this
    omega
  · refine roundCode_eq_of_no_half _ _ _ _ (Nat.two_pow_pos _) (by omega) fun h hh => ?_
    have := hno h
    have e := hcast h
    omega

/-- An enclosure decides the rounding of a number of smallest subnormals that is farther than its width from every
half-integer. -/
theorem Ball.agreed_of_far {K : Nat} {b : Ball} {v : ℝ} (henc : b.Encloses K v)
    (hfar : ∀ h : ℤ, 2 * (b.r : ℝ) < 2 ^ K * |v - h / 2|) : ∃ x, b.agreed (K + 1074) = some x := by
  have he : roundInt64 (b.c - b.r) (K + 1074) = roundInt64 (b.c + b.r) (K + 1074) := by
    refine roundInt64_eq_of_no_half _ _ K (by omega) fun h ⟨h1, h2⟩ => ?_
    have h1' : 2 * ((b.c : ℝ) - b.r) ≤ h * 2 ^ K := by exact_mod_cast h1
    have h2' : (h : ℝ) * 2 ^ K ≤ 2 * (b.c + b.r) := by exact_mod_cast h2
    have hK : (0 : ℝ) < 2 ^ K := by positivity
    have := hfar h
    rw [← abs_of_pos hK, ← abs_mul, mul_sub] at this
    have hr : |2 ^ K * v - 2 ^ K * ((h : ℝ) / 2)| ≤ 2 * b.r := by
      rw [Ball.Encloses, abs_le] at henc
      rw [abs_le]
      constructor <;> linarith [henc.1, henc.2]
    linarith
  exact ⟨_, by rw [agreed_def, if_pos he]⟩

/-! ## How far a rounded number is from the number -/

theorem rneNat_error (num den : Nat) (hd : 0 < den) :
    2 * (((rneNat num den * den : ℕ) : ℤ) - num).natAbs ≤ den := by
  have h := Nat.div_add_mod num den
  have hlt := Nat.mod_lt num hd
  simp only [rneNat]
  rw [Nat.mul_comm] at h
  split
  · rw [Nat.add_mul, Nat.one_mul]; omega
  · omega

/-- The magnitude of a code put together from a place and a significand that reaches it. -/
theorem magOf_compose (f : Fmt) (e s : Nat) (h1 : s ≤ 2 ^ (f.frac + 1)) (h2 : 0 < e → 2 ^ f.frac ≤ s) :
    Fmt.magOf f (e * 2 ^ f.frac + s) = s * 2 ^ e := by
  have hp := Nat.two_pow_pos f.frac
  rw [Nat.pow_succ] at h1
  rcases Nat.lt_or_ge s (2 ^ f.frac) with hs | hs
  · obtain rfl : e = 0 := by by_contra h0; have := h2 (by omega); omega
    rw [Nat.zero_mul, Nat.zero_add, magOf_small f s hs, Nat.pow_zero, Nat.mul_one]
  · rcases Nat.lt_or_ge s (2 ^ f.frac * 2) with hs2 | hs2
    · have e1 : e * 2 ^ f.frac + s = (e + 1) * 2 ^ f.frac + (s - 2 ^ f.frac) := by rw [Nat.add_mul]; omega
      rw [e1, magOf_normal f e _ (by omega)]
      congr 1
      omega
    · have e1 : e * 2 ^ f.frac + s = (e + 1 + 1) * 2 ^ f.frac + 0 := by rw [Nat.add_mul, Nat.add_mul]; omega
      have e2 : s = 2 ^ f.frac * 2 := by omega
      rw [e1, magOf_normal f (e + 1) _ hp, e2, Nat.pow_succ]
      ring

/-- A finite rounding is within half a subnormal, or within half a unit in the last place, of the fraction. -/
theorem roundCode_error (f : Fmt) (num den : Nat) (hd : 0 < den) (hfin : Fmt.roundCode f num den < Fmt.infCode f) :
    let err := (((Fmt.magOf f (Fmt.roundCode f num den) * den : ℕ) : ℤ) - num).natAbs
    2 * err ≤ den ∨ 2 ^ (f.frac + 1) * err ≤ num := by
  obtain ⟨hu, hl⟩ := roundCode_bounds f num den hd _ rfl
  have hcode : Fmt.roundCode f num den = (Nat.log2 (num / den) - f.frac) * 2 ^ f.frac +
      rneNat num (den <<< (Nat.log2 (num / den) - f.frac)) := by
    rw [Fmt.roundCode, Nat.shiftLeft_eq] at hfin ⊢
    omega
  rw [hcode, magOf_compose f _ _ hu hl]
  have hpos : 0 < den <<< (Nat.log2 (num / den) - f.frac) := by
    rw [Nat.shiftLeft_eq]; exact Nat.mul_pos hd (Nat.two_pow_pos _)
  have herr := rneNat_error num _ hpos
  generalize he : Nat.log2 (num / den) - f.frac = e at *
  rw [Nat.shiftLeft_eq] at herr ⊢
  generalize rneNat num (den * 2 ^ e) = s at *
  have e1 : s * 2 ^ e * den = s * (den * 2 ^ e) := by ring
  rw [e1]
  dsimp only
  rcases Nat.eq_zero_or_pos e with h0 | h0
  · left
    rw [h0, Nat.pow_zero, Nat.mul_one] at herr ⊢
    exact herr
  · right
    have hq : num / den ≠ 0 := by rintro h; rw [h] at he; simp at he; omega
    have h2 : 2 ^ (f.frac + e) ≤ num / den := by
      have : f.frac + e = Nat.log2 (num / den) := by omega
      rw [this]; exact Nat.log2_self_le hq
    have h3 := (Nat.le_div_iff_mul_le hd).mp h2
    generalize (((s * (den * 2 ^ e) : ℕ) : ℤ) - num).natAbs = err at *
    calc 2 ^ (f.frac + 1) * err = 2 ^ f.frac * (2 * err) := by rw [Nat.pow_succ]; ring
      _ ≤ 2 ^ f.frac * (den * 2 ^ e) := Nat.mul_le_mul_left _ herr
      _ = 2 ^ (f.frac + e) * den := by rw [Nat.pow_add]; ring
      _ ≤ num := h3

/-- The bound of `roundCode_error` for a fraction near a real number `u`. -/
theorem roundCode_near {num den : Nat} {u : ℝ} (hd : 0 < den) (hfin : Fmt.roundCode .b64 num den < Fmt.infCode .b64)
    (hnear : |(num : ℝ) / den - u| ≤ 1 / den) :
    |(Fmt.magOf .b64 (Fmt.roundCode .b64 num den) : ℝ) - u| ≤ max (1 / 2) (u / 2 ^ 53) + 2 / den := by
  have hdr : (0 : ℝ) < den := by exact_mod_cast hd
  have herr := roundCode_error .b64 num den hd hfin
  generalize Fmt.magOf .b64 (Fmt.roundCode .b64 num den) = M at *
  have hcast : (((((M * den : ℕ) : ℤ) - num).natAbs : ℕ) : ℝ) = |(M : ℝ) * den - num| := by
    rw [Nat.cast_natAbs, Int.cast_abs]; push_cast; rfl
  have hM : |(M : ℝ) - num / den| * den = |(M : ℝ) * den - num| := by
    rw [← abs_of_pos hdr, ← abs_mul, abs_of_pos hdr, sub_mul, div_mul_cancel₀ _ hdr.ne']
  have hdiv : 0 ≤ 1 / (den : ℝ) := by positivity
  have hmain : |(M : ℝ) - num / den| ≤ max (1 / 2) (u / 2 ^ 53) + 1 / den := by
    rcases herr with h | h
    · have h' : 2 * |(M : ℝ) * den - num| ≤ den := by rw [← hcast]; exact_mod_cast h
      rw [← hM] at h'
      have : |(M : ℝ) - num / den| ≤ 1 / 2 := le_of_mul_le_mul_right (by linarith) hdr
      linarith [le_max_left (1 / 2 : ℝ) (u / 2 ^ 53)]
    · have h' : 2 ^ 53 * |(M : ℝ) * den - num| ≤ num := by rw [← hcast]; exact_mod_cast h
      rw [← hM] at h'
      have h1 : |(M : ℝ) - num / den| ≤ num / den / 2 ^ 53 := by
        rw [div_div, le_div_iff₀ (by positivity)]
        linarith
      have h2 : (num : ℝ) / den ≤ u + 1 / den := by linarith [(abs_le.mp hnear).2]
      have h3 : (num : ℝ) / den / 2 ^ 53 ≤ u / 2 ^ 53 + 1 / den := by
        calc (num : ℝ) / den / 2 ^ 53 ≤ (u + 1 / den) / 2 ^ 53 := by gcongr
          _ = u / 2 ^ 53 + 1 / den / 2 ^ 53 := by ring
          _ ≤ u / 2 ^ 53 + 1 / den := by linarith [div_le_self hdiv (by norm_num : (1 : ℝ) ≤ 2 ^ 53)]
      linarith [le_max_right (1 / 2 : ℝ) (u / 2 ^ 53)]
  have e : (M : ℝ) - u = (M - num / den) + (num / den - u) := by ring
  rw [e]
  refine (abs_add_le ..).trans ((add_le_add hmain hnear).trans (le_of_eq ?_))
  ring

/-- A number of at most `2^2097` smallest subnormals rounds to a finite binary64, within half a subnormal or `2^-53` of
it. -/
theorem RoundsTo.error {v : ℝ} {x : F64} (h : RoundsTo v x) (hv : |v| ≤ 2 ^ 2097) :
    isFinite64 x = true ∧ |(int64Of x : ℝ) - v| ≤ max (1 / 2) (|v| / 2 ^ 53) := by
  obtain ⟨neg, code, hx, hneg, hcode⟩ := h
  set u := |v| with hu
  have hu0 : 0 ≤ u := abs_nonneg v
  have htop : Fmt.roundCode .b64 (2 ^ 2097 + 1) 1 < Fmt.infCode .b64 := by decide +kernel
  have hcast : ((2 ^ 2097 : ℕ) : ℝ) = 2 ^ 2097 := by rw [Nat.cast_pow, Nat.cast_ofNat]
  generalize 2 ^ 2097 = T at htop hcast
  rw [← hcast] at hv
  have hfin : code < Fmt.infCode .b64 := by
    refine lt_of_le_of_lt ((hcode (T + 1) 1 Nat.one_pos).2 ?_) htop
    push_cast
    linarith
  have hM : |(Fmt.magOf .b64 code : ℝ) - u| ≤ max (1 / 2) (u / 2 ^ 53) := by
    refine le_of_forall_pos_le_add fun ε hε => ?_
    obtain ⟨n, hn⟩ := exists_nat_gt (2 / ε)
    have hn0 : (0 : ℝ) < n := (by positivity : (0 : ℝ) < 2 / ε).trans hn
    have hd : 0 < n := by exact_mod_cast hn0
    have hsmall : 2 / (n : ℝ) ≤ ε := by
      rw [div_le_iff₀ hn0]
      rw [div_lt_iff₀ hε] at hn
      linarith
    have f1 : (⌊u * n⌋₊ : ℝ) ≤ u * n := Nat.floor_le (by positivity)
    have f2 : u * n ≤ (⌊u * n⌋₊ + 1 : ℕ) := by push_cast; exact (Nat.lt_floor_add_one _).le
    generalize ⌊u * n⌋₊ = num at f1 f2
    have c1 := (hcode num n hd).1 f1
    have c2 := (hcode (num + 1) n hd).2 f2
    have fin2 : Fmt.roundCode .b64 (num + 1) n < Fmt.infCode .b64 := by
      refine lt_of_le_of_lt (roundCode_mono_frac _ _ _ _ _ hd Nat.one_pos ?_) htop
      have h1 : (num : ℝ) ≤ T * n := f1.trans (mul_le_mul_of_nonneg_right hv hn0.le)
      have h2 : num ≤ T * n := by exact_mod_cast h1
      rw [Nat.mul_one, Nat.add_mul, Nat.one_mul]
      omega
    have fin1 : Fmt.roundCode .b64 num n < Fmt.infCode .b64 := c1.trans_lt hfin
    have n1 := roundCode_near (u := u) hd fin1 (by
      rw [abs_le]
      have g1 : (num : ℝ) / n ≤ u := by rw [div_le_iff₀ hn0]; exact f1
      have g2 : u ≤ num / n + 1 / n := by
        rw [← add_div, le_div_iff₀ hn0]; push_cast at f2; exact f2
      have : 0 ≤ 1 / (n : ℝ) := by positivity
      constructor <;> linarith)
    have n2 := roundCode_near (u := u) hd fin2 (by
      rw [abs_le]
      have g1 : ((num + 1 : ℕ) : ℝ) / n ≤ u + 1 / n := by
        rw [← sub_le_iff_le_add, ← sub_div, div_le_iff₀ hn0]; push_cast; linarith
      have g2 : u ≤ ((num + 1 : ℕ) : ℝ) / n := by rw [le_div_iff₀ hn0]; exact f2
      have : 0 ≤ 1 / (n : ℝ) := by positivity
      constructor <;> linarith)
    have m1 : (Fmt.magOf .b64 (Fmt.roundCode .b64 num n) : ℝ) ≤ Fmt.magOf .b64 code := by
      exact_mod_cast magOf_le .b64 _ _ c1
    have m2 : (Fmt.magOf .b64 code : ℝ) ≤ Fmt.magOf .b64 (Fmt.roundCode .b64 (num + 1) n) := by
      exact_mod_cast magOf_le .b64 _ _ c2
    rw [abs_le] at n1 n2 ⊢
    constructor <;> linarith [n1.1, n2.2]
  have hview : view64 x = .fin neg (Fmt.magOf .b64 code) := by
    rw [hx, view64, BitVec.toNat_ofNat, Nat.mod_eq_of_lt (withSign_lt64 _ _ hfin.le), view_withSign _ _ _ hfin.le,
      if_pos hfin]
  refine ⟨by rw [isFinite64, hview], ?_⟩
  rw [int64Of, hview]
  dsimp only
  rcases neg with _ | _
  · have h0 : 0 ≤ v := by by_contra h0; exact absurd (hneg.mpr (not_le.mp h0)) (by decide)
    have e : ((signed false (Fmt.magOf .b64 code) : ℤ) : ℝ) = Fmt.magOf .b64 code := by rw [signed]; simp
    rw [e]
    rw [hu, abs_of_nonneg h0] at hM ⊢
    exact hM
  · have h0 : v < 0 := hneg.mp rfl
    have e : ((signed true (Fmt.magOf .b64 code) : ℤ) : ℝ) = -Fmt.magOf .b64 code := by rw [signed]; simp
    rw [e]
    rw [hu, abs_of_neg h0] at hM ⊢
    have e2 : -(Fmt.magOf .b64 code : ℝ) - v = -(Fmt.magOf .b64 code - -v) := by ring
    rw [e2, abs_neg]
    exact hM

end Sys2Proof.Machine
end

