-- ==== Sys2Proof/Laws/Quadrature.lean ====
section
/-! SUPPORT. The quadrature component of the Hilbert step: the enclosed sum encloses the sum of spec/42_hilbert.md R162 (2),
and that sum written in sines. -/

namespace Sys2Proof.Machine

set_option Elab.async false

open Sys2Proof Sys2Proof.Config

/-! ## The enclosed sum -/

/-- `Σ d·h[j]` over pairs `(j, d)`. -/
noncomputable def tapSum (terms : List (Nat × Int)) : ℝ := (terms.map fun t => (t.2 : ℝ) * tapValue t.1).sum

/-- `Σ |d|` over pairs `(j, d)`. -/
def tapWeight (terms : List (Nat × Int)) : Nat := (terms.map fun t => t.2.natAbs).sum

@[simp] theorem tapSum_cons (t : Nat × Int) (ts : List (Nat × Int)) : tapSum (t :: ts) = t.2 * tapValue t.1 + tapSum ts := by
  simp [tapSum]

@[simp] theorem tapWeight_cons (t : Nat × Int) (ts : List (Nat × Int)) :
    tapWeight (t :: ts) = t.2.natAbs + tapWeight ts := by simp [tapWeight]

/-- Every index of the pairs is that of a tap. -/
def TapIndices (terms : List (Nat × Int)) : Prop := ∀ t ∈ terms, t.1 % 2 = 1 ∧ t.1 < 512

theorem tapsAt_get (K j : Nat) (d : Ball) (ho : j % 2 = 1) (hj : j < 512) : (tapsAt K).getD (j / 2) d = tapBall K j := by
  have h : (tapsAt K).getD (j / 2) d = (tabulate 256 fun m => tapBall K (2 * m + 1)).getD (j / 2) d := by
    rw [tapsAt, Array.getD_eq_getD_getElem?, List.getElem?_toArray, List.getD]
  rw [h, getD_tabulate_of_lt _ _ (by omega)]
  congr 1
  omega

theorem tapBall_radius (K j : Nat) : (tapBall K j).r = 2 ^ 32 * (K + 1) := rfl

/-- One pass of `quadratureBall`. -/
def quadratureStep (taps : Array Ball) (acc : Ball) (t : Nat × Int) : Ball :=
  ⟨acc.c - t.2 * (taps.getD (t.1 / 2) ⟨0, 0⟩).c, acc.r + t.2.natAbs * (taps.getD (t.1 / 2) ⟨0, 0⟩).r⟩

theorem quadratureBall_eq (taps : Array Ball) (terms : List (Nat × Int)) :
    quadratureBall taps terms = terms.foldl (quadratureStep taps) ⟨0, 0⟩ := rfl

theorem quadratureFold_encloses {K : Nat} (hK : 192 ≤ K) : ∀ (terms : List (Nat × Int)) (acc : Ball) (v : ℝ),
    TapIndices terms → acc.Encloses K v →
    (terms.foldl (quadratureStep (tapsAt K)) acc).Encloses K (v - tapSum terms) ∧
    (terms.foldl (quadratureStep (tapsAt K)) acc).r = acc.r + tapWeight terms * (2 ^ 32 * (K + 1))
  | [], acc, v, _, h => by simpa [tapSum, tapWeight] using h
  | t :: ts, acc, v, hidx, h => by
    obtain ⟨ho, hj⟩ := hidx t (List.mem_cons_self ..)
    have htap := tapBall_encloses hK (by omega : 1 ≤ t.1) hj
    have hget := tapsAt_get K t.1 ⟨0, 0⟩ ho hj
    have hstep : (quadratureStep (tapsAt K) acc t).Encloses K (v - t.2 * tapValue t.1) := by
      simp only [Ball.Encloses, quadratureStep, hget] at htap h ⊢
      have hd : ((t.2.natAbs : ℕ) : ℝ) = |(t.2 : ℝ)| := by rw [Nat.cast_natAbs, Int.cast_abs]
      push_cast
      rw [hd]
      have e : (acc.c : ℝ) - t.2 * (tapBall K t.1).c - 2 ^ K * (v - t.2 * tapValue t.1) =
          (acc.c - 2 ^ K * v) - t.2 * ((tapBall K t.1).c - 2 ^ K * tapValue t.1) := by ring
      rw [e]
      refine (abs_sub ..).trans (add_le_add h ?_)
      rw [abs_mul]
      exact mul_le_mul_of_nonneg_left htap (abs_nonneg _)
    obtain ⟨h1, h2⟩ := quadratureFold_encloses hK ts _ _ (fun u hu => hidx u (List.mem_cons_of_mem _ hu)) hstep
    rw [List.foldl_cons, tapSum_cons, tapWeight_cons]
    refine ⟨by rw [← sub_sub]; exact h1, ?_⟩
    rw [h2]
    simp only [quadratureStep, hget, tapBall_radius]
    ring

/-- The enclosed sum encloses `-Σ d·h[j]`, with the radius of a tap for each unit of weight. -/
theorem quadratureBall_encloses {K : Nat} (hK : 192 ≤ K) {terms : List (Nat × Int)} (hidx : TapIndices terms) :
    (quadratureBall (tapsAt K) terms).Encloses K (-tapSum terms) ∧
    (quadratureBall (tapsAt K) terms).r = tapWeight terms * (2 ^ 32 * (K + 1)) := by
  obtain ⟨h1, h2⟩ := quadratureFold_encloses hK terms ⟨0, 0⟩ 0 hidx (by simp [Ball.Encloses])
  rw [quadratureBall_eq]
  exact ⟨by simpa using h1, by simpa using h2⟩

/-! ## The sum over the taps is the sum of R162 -/

theorem tapTerms_indices (a : Nat → Int) (n : Nat) : TapIndices (tapTerms a n) := by
  intro t ht
  have h := (List.mem_filter.mp ht).1
  unfold oddTaps tabulate at h
  simp only [List.map_map, List.mem_map, List.mem_range, Function.comp] at h
  obtain ⟨m, hm, rfl⟩ := h
  dsimp only
  omega

theorem sum_filter_ne {l : List (Nat × Int)} {g : Nat × Int → ℝ} (h : ∀ t, t.2 = 0 → g t = 0) :
    ((l.filter fun t => decide (t.2 ≠ 0)).map g).sum = (l.map g).sum := by
  induction l with
  | nil => rfl
  | cons t ts ih =>
    by_cases h0 : t.2 = 0
    · rw [List.filter_cons_of_neg (by simpa using h0), ih, List.map_cons, List.sum_cons, h t h0, zero_add]
    · rw [List.filter_cons_of_pos (by simpa using h0), List.map_cons, List.sum_cons, ih, List.map_cons, List.sum_cons]

theorem sum_map_range (g : Nat → ℝ) (n : Nat) : ((List.range n).map g).sum = ∑ m ∈ Finset.range n, g m := by
  induction n with
  | zero => rfl
  | succ n ih => rw [List.range_succ, List.map_append, List.sum_append, ih, Finset.sum_range_succ]; simp

theorem tapSum_tapTerms (a : Nat → Int) (n : Nat) : tapSum (tapTerms a n) =
    ∑ m ∈ Finset.range 256, ((a ((n + 1024 - (2 * m + 1)) % 1024) - a ((n + (2 * m + 1)) % 1024) : ℤ) : ℝ) *
      tapValue (2 * m + 1) := by
  rw [tapSum, tapTerms, sum_filter_ne (by intro t h; rw [h]; simp), oddTaps]
  unfold tabulate
  rw [List.map_map, List.map_map, sum_map_range]
  rfl

theorem kernelTap_odd (m : Nat) : kernelTap (2 * m + 1) = tapValue (2 * m + 1) := by
  rw [kernelTap, if_pos (by omega), tapValue, Real.cot_eq_cos_div_sin]
  ring

theorem kernelTap_reflect (m : Nat) (h : m < 256) : kernelTap (1024 - (2 * m + 1)) = -tapValue (2 * m + 1) := by
  have e : Real.pi * ((1024 - (2 * m + 1) : ℕ) : ℝ) / 1024 = Real.pi - Real.pi * ((2 * m + 1 : ℕ) : ℝ) / 1024 := by
    rw [Nat.cast_sub (by omega)]; push_cast; ring
  rw [kernelTap, if_pos (by omega), e, Real.cot_eq_cos_div_sin, Real.cos_pi_sub, Real.sin_pi_sub, tapValue]
  ring

theorem kernelTap_even (j : Nat) (h : j % 2 = 0) : kernelTap j = 0 := by rw [kernelTap, if_neg (by omega)]

/-- The sum over `p` is the sum over the offset `q = n - p`. -/
theorem quadrature_offset (a : Nat → Int) (n : Nat) (hn : n < 1024) : quadrature a n =
    -∑ q ∈ Finset.range 1024, kernelTap q * a ((n + 1024 - q) % 1024) := by
  rw [quadrature, neg_inj]
  refine Finset.sum_nbij' (fun p => (n + 1024 - p) % 1024) (fun q => (n + 1024 - q) % 1024) ?_ ?_ ?_ ?_ ?_
  · intro p hp; exact Finset.mem_range.mpr (Nat.mod_lt _ (by omega))
  · intro p hp; exact Finset.mem_range.mpr (Nat.mod_lt _ (by omega))
  · intro p hp; have := Finset.mem_range.mp hp; omega
  · intro p hp; have := Finset.mem_range.mp hp; omega
  · intro p hp
    have := Finset.mem_range.mp hp
    have e : (n + 1024 - (n + 1024 - p) % 1024) % 1024 = p := by omega
    rw [e]

/-- A sum over 1024 places by quarters: even places, and odd ones from both ends. -/
theorem sum_by_parity (f : Nat → ℝ) : ∑ q ∈ Finset.range 1024, f q =
    ∑ m ∈ Finset.range 512, f (2 * m) + ∑ m ∈ Finset.range 256, (f (2 * m + 1) + f (1024 - (2 * m + 1))) := by
  have h1 : ∀ N, ∑ q ∈ Finset.range (2 * N), f q =
      ∑ m ∈ Finset.range N, f (2 * m) + ∑ m ∈ Finset.range N, f (2 * m + 1) := by
    intro N
    induction N with
    | zero => simp
    | succ N ih =>
      rw [show 2 * (N + 1) = 2 * N + 1 + 1 by ring, Finset.sum_range_succ, Finset.sum_range_succ, ih, Finset.sum_range_succ,
        Finset.sum_range_succ]
      ring
  rw [h1 512, add_right_inj, show (512 : ℕ) = 256 + 256 from rfl, Finset.sum_range_add, Finset.sum_add_distrib, add_right_inj,
    ← Finset.sum_range_reflect]
  refine Finset.sum_congr rfl fun m hm => ?_
  have := Finset.mem_range.mp hm
  exact congrArg f (by omega)

/-- R162 (2) over the odd `j` below 512. -/
theorem quadrature_eq (a : Nat → Int) (n : Nat) (hn : n < 1024) : quadrature a n = -tapSum (tapTerms a n) := by
  rw [quadrature_offset a n hn, tapSum_tapTerms, sum_by_parity, neg_inj,
    Finset.sum_eq_zero (fun m _ => by rw [kernelTap_even _ (by omega), zero_mul]), zero_add]
  refine Finset.sum_congr rfl fun m hm => ?_
  have := Finset.mem_range.mp hm
  have e : (n + 1024 - (1024 - (2 * m + 1))) % 1024 = (n + (2 * m + 1)) % 1024 := by omega
  rw [kernelTap_odd, kernelTap_reflect m this, e]
  push_cast
  ring

/-! ## The sum in sines -/

/-- `sin(2π·r/1024)`. -/
noncomputable def gridSine (r : ℕ) : ℝ := Real.sin (2 * Real.pi * r / 1024)

/-- The sign with which `sin(2π·r/1024)` is the sine at the place `m`, or 0. -/
def sineSign (m r : Nat) : Int :=
  if m = r ∨ m + r = 512 then 1 else if m + r = 1024 ∨ m = r + 512 then -1 else 0

theorem sineCount_eq (j r : Nat) : sineCount j r = ∑ k ∈ Finset.range 511, sineSign (j * (k + 1) % 1024) r := by
  have h : ∀ n, forUp (fun k acc =>
      let m := j * (k + 1) % 1024
      if m = r ∨ m + r = 512 then acc + 1
      else if m + r = 1024 ∨ m = r + 512 then acc - 1
      else acc) n (0 : Int) = ∑ k ∈ Finset.range n, sineSign (j * (k + 1) % 1024) r := by
    intro n
    induction n with
    | zero => rfl
    | succ n ih =>
      rw [forUp_succ, ih, Finset.sum_range_succ, sineSign]
      dsimp only
      split
      · rfl
      · split <;> omega
  exact h 511

theorem gridSine_mod (m : ℕ) : gridSine (m % 1024) = gridSine m := by
  have e : 2 * Real.pi * m / 1024 = 2 * Real.pi * (m % 1024 : ℕ) / 1024 + (m / 1024 : ℕ) * (2 * Real.pi) := by
    have : (m : ℝ) = 1024 * (m / 1024 : ℕ) + (m % 1024 : ℕ) := by exact_mod_cast (Nat.div_add_mod m 1024).symm
    rw [this]; ring
  rw [gridSine, gridSine, e, Real.sin_add_nat_mul_two_pi]

theorem gridSine_reflect (m : ℕ) (h : m ≤ 512) : gridSine (512 - m) = gridSine m := by
  rw [gridSine, gridSine, ← Real.sin_pi_sub, Nat.cast_sub h]
  congr 1
  push_cast
  ring

theorem gridSine_half (m : ℕ) : gridSine (m + 512) = -gridSine m := by
  rw [gridSine, gridSine, ← Real.sin_add_pi]
  congr 1
  push_cast
  ring

theorem gridSine_zero : gridSine 0 = 0 := by simp [gridSine]

theorem gridSine_quarter : gridSine 256 = 1 := by
  rw [gridSine, ← Real.sin_pi_div_two]
  congr 1
  push_cast
  ring

theorem sum_single {r0 : ℕ} {g c : ℕ → ℝ} (h0 : 1 ≤ r0) (h1 : r0 ≤ 256) (hz : ∀ r, r ≠ r0 → 1 ≤ r → r ≤ 256 → c r = 0) :
    ∑ r ∈ Finset.range 256, c (r + 1) * g (r + 1) = c r0 * g r0 := by
  rw [Finset.sum_eq_single (r0 - 1), Nat.sub_add_cancel h0]
  · intro r hr hne
    have := Finset.mem_range.mp hr
    rw [hz (r + 1) (by omega) (by omega) (by omega), zero_mul]
  · intro h
    exact absurd (Finset.mem_range.mpr (by omega)) h

/-- Every sine of the grid is one of the first quarter, or its opposite, or 0. -/
theorem gridSine_eq_sum (m : ℕ) (hm : m < 1024) :
    gridSine m = ∑ r ∈ Finset.range 256, (sineSign m (r + 1) : ℝ) * gridSine (r + 1) := by
  have zero : (∀ r, 1 ≤ r → r ≤ 256 → sineSign m r = 0) →
      ∑ r ∈ Finset.range 256, (sineSign m (r + 1) : ℝ) * gridSine (r + 1) = 0 := fun h =>
    Finset.sum_eq_zero fun r hr => by
      have := Finset.mem_range.mp hr
      rw [h (r + 1) (by omega) (by omega), Int.cast_zero, zero_mul]
  have single : ∀ (r0 : ℕ) (v : ℤ), 1 ≤ r0 → r0 ≤ 256 → sineSign m r0 = v →
      (∀ r, r ≠ r0 → 1 ≤ r → r ≤ 256 → sineSign m r = 0) →
      ∑ r ∈ Finset.range 256, (sineSign m (r + 1) : ℝ) * gridSine (r + 1) = v * gridSine r0 := by
    intro r0 v h0 h1 hv hz
    rw [sum_single (c := fun r => (sineSign m r : ℝ)) h0 h1 (fun r a b c => by rw [hz r a b c, Int.cast_zero]), hv]
  rcases Nat.eq_zero_or_pos m with rfl | h0
  · rw [zero fun r h1 h2 => by rw [sineSign, if_neg (by omega), if_neg (by omega)], gridSine_zero]
  rcases Nat.lt_or_ge 256 m with h1 | h1
  · rcases Nat.lt_or_ge m 512 with h2 | h2
    · rw [single (512 - m) 1 (by omega) (by omega) (by rw [sineSign, if_pos (by omega)])
        (fun r a b c => by rw [sineSign, if_neg (by omega), if_neg (by omega)]), gridSine_reflect m (by omega)]
      simp
    · obtain ⟨k, rfl⟩ : ∃ k, m = k + 512 := ⟨m - 512, by omega⟩
      rw [gridSine_half]
      rcases Nat.eq_zero_or_pos k with rfl | hk
      · rw [zero fun r h1 h2 => by rw [sineSign, if_neg (by omega), if_neg (by omega)], gridSine_zero, neg_zero]
      · rcases Nat.lt_or_ge 256 k with h3 | h3
        · rw [single (512 - k) (-1) (by omega) (by omega) (by rw [sineSign, if_neg (by omega), if_pos (by omega)])
            (fun r a b c => by rw [sineSign, if_neg (by omega), if_neg (by omega)]), gridSine_reflect k (by omega)]
          simp
        · rw [single k (-1) (by omega) (by omega) (by rw [sineSign, if_neg (by omega), if_pos (by omega)])
            (fun r a b c => by rw [sineSign, if_neg (by omega), if_neg (by omega)])]
          simp
  · rw [single m 1 (by omega) (by omega) (by rw [sineSign, if_pos (by omega)])
      (fun r a b c => by rw [sineSign, if_neg (by omega), if_neg (by omega)])]
    simp

theorem sum_sines (θ : ℝ) (n : ℕ) :
    2 * Real.sin (θ / 2) * ∑ k ∈ Finset.range n, Real.sin ((k + 1) * θ) = Real.cos (θ / 2) - Real.cos ((n + 1 / 2) * θ) := by
  induction n with
  | zero =>
    have : ((0 : ℕ) + 1 / 2) * θ = θ / 2 := by push_cast; ring
    rw [Finset.sum_range_zero, this]; ring
  | succ n ih =>
    have h1 := Real.cos_sub_cos ((n + 1 / 2) * θ) (((n + 1 : ℕ) + 1 / 2) * θ)
    have e1 : ((n + 1 / 2) * θ + ((n + 1 : ℕ) + 1 / 2) * θ) / 2 = (n + 1) * θ := by push_cast; ring
    have e2 : ((n + 1 / 2) * θ - ((n + 1 : ℕ) + 1 / 2) * θ) / 2 = -(θ / 2) := by push_cast; ring
    rw [e1, e2, Real.sin_neg] at h1
    rw [Finset.sum_range_succ, mul_add, ih]
    linarith

/-- The inner sum of R165's derivation: for an odd `j` it is the cotangent. -/
theorem sum_gridSine (j : ℕ) (ho : j % 2 = 1) (hj : j < 1024) :
    ∑ k ∈ Finset.range 511, gridSine (j * (k + 1)) = 512 * tapValue j := by
  have hj1 : (1 : ℝ) ≤ j := by exact_mod_cast (by omega : 1 ≤ j)
  have hj2 : (j : ℝ) < 1024 := by exact_mod_cast hj
  have h := sum_sines (2 * Real.pi * j / 1024) 511
  have e1 : 2 * Real.pi * j / 1024 / 2 = Real.pi * j / 1024 := by ring
  have e2 : (((511 : ℕ) : ℝ) + 1 / 2) * (2 * Real.pi * j / 1024) = j * Real.pi - Real.pi * j / 1024 := by push_cast; ring
  rw [e1, e2, Real.cos_nat_mul_pi_sub] at h
  have hsign : (-1 : ℝ) ^ j = -1 := Odd.neg_one_pow (Nat.odd_iff.mpr ho)
  rw [hsign] at h
  have hs : ∑ k ∈ Finset.range 511, gridSine (j * (k + 1)) =
      ∑ k ∈ Finset.range 511, Real.sin ((k + 1) * (2 * Real.pi * j / 1024)) := by
    refine Finset.sum_congr rfl fun k _ => ?_
    rw [gridSine]
    congr 1
    push_cast
    ring
  rw [hs]
  have hsin : Real.sin (Real.pi * j / 1024) ≠ 0 := by
    refine (Real.sin_pos_of_pos_of_lt_pi (by positivity) ?_).ne'
    rw [div_lt_iff₀ (by norm_num), mul_lt_mul_iff_right₀ Real.pi_pos]
    exact hj2
  rw [tapValue, mul_div_cancel₀ _ (by norm_num), eq_div_iff hsin]
  linarith

theorem tapValue_eq_sines (j : ℕ) (ho : j % 2 = 1) (hj : j < 1024) :
    512 * tapValue j = ∑ r ∈ Finset.range 256, (sineCount j (r + 1) : ℝ) * gridSine (r + 1) := by
  rw [← sum_gridSine j ho hj]
  simp only [sineCount_eq, Int.cast_sum, Finset.sum_mul]
  rw [Finset.sum_comm]
  refine Finset.sum_congr rfl fun k _ => ?_
  rw [← gridSine_mod, gridSine_eq_sum _ (Nat.mod_lt _ (by omega))]

theorem sineCoef_cons (t : Nat × Int) (ts : List (Nat × Int)) (r : Nat) :
    sineCoef (t :: ts) r = t.2 * sineCount t.1 r + sineCoef ts r := by
  have h : ∀ (l : List (Nat × Int)) (a : Int), l.foldl (fun acc t => acc + t.2 * sineCount t.1 r) a =
      a + l.foldl (fun acc t => acc + t.2 * sineCount t.1 r) 0 := by
    intro l
    induction l with
    | nil => intro a; simp
    | cons u us ih => intro a; rw [List.foldl_cons, List.foldl_cons, ih, ih (0 + _)]; ring
  rw [sineCoef, List.foldl_cons, h, sineCoef]
  ring

/-- The sum over the taps, in sines of the first quarter of the grid. -/
theorem tapSum_eq_sines : ∀ terms : List (Nat × Int), TapIndices terms →
    512 * tapSum terms = ∑ r ∈ Finset.range 256, (sineCoef terms (r + 1) : ℝ) * gridSine (r + 1)
  | [], _ => by simp [tapSum, sineCoef]
  | t :: ts, h => by
    obtain ⟨ho, hj⟩ := h t (List.mem_cons_self ..)
    have ih := tapSum_eq_sines ts fun u hu => h u (List.mem_cons_of_mem _ hu)
    rw [tapSum_cons, mul_add, ih, mul_left_comm, tapValue_eq_sines _ ho (by omega), Finset.mul_sum, ← Finset.sum_add_distrib]
    refine Finset.sum_congr rfl fun r _ => ?_
    rw [sineCoef_cons]
    push_cast
    ring

/-- Where `rationalQuadrature` answers, it answers 512 times the quadrature sum. -/
theorem rationalQuadrature_spec {terms : List (Nat × Int)} {v : Int} (hidx : TapIndices terms)
    (h : rationalQuadrature terms = some v) : (v : ℝ) = 512 * -tapSum terms := by
  rw [rationalQuadrature] at h
  split at h
  · next h0 =>
    obtain rfl := Option.some.inj h
    have hz : ∀ r, r ≠ 256 → 1 ≤ r → r ≤ 256 → (sineCoef terms r : ℝ) = 0 := by
      intro r h1 h2 h3
      have := (allBelow_iff _ _).mp h0 (r - 1) (by omega)
      rw [Nat.sub_add_cancel h2, beq_iff_eq] at this
      rw [this, Int.cast_zero]
    rw [mul_neg, tapSum_eq_sines terms hidx, sum_single (c := fun r => (sineCoef terms r : ℝ)) (by norm_num) le_rfl hz,
      gridSine_quarter, mul_one, Int.cast_neg]
  · cases h

end Sys2Proof.Machine
end

