-- ==== Sys2Proof/Laws/Norm.lean ====
section
/-! SUPPORT. How near an irrational quadrature sum can come to a rational number: a non-zero integer combination of the powers of
a primitive 1024th root of unity has a norm of at least 1, so it cannot be small while its 511 conjugates are bounded. -/

namespace Sys2Proof.Machine

set_option Elab.async false

open Sys2Proof Sys2Proof.Config Polynomial

/-! ## Integer combinations of roots of unity -/

/-- `exp(2πi/1024)`. -/
noncomputable def root : ℂ := Complex.exp (2 * Real.pi * Complex.I / (1024 : ℕ))

theorem root_primitive : IsPrimitiveRoot root 1024 := Complex.isPrimitiveRoot_exp 1024 (by norm_num)

theorem totient_1024 : Nat.totient 1024 = 512 := by
  have h := Nat.totient_prime_pow_succ Nat.prime_two 9
  norm_num at h
  exact h

/-- An integer polynomial's value at a point of the unit circle is at most the sum of its coefficients' magnitudes. -/
theorem norm_aeval_le {Q : ℤ[X]} {z : ℂ} {n : ℕ} (hz : ‖z‖ = 1) (hQ : Q.natDegree < n) :
    ‖aeval z Q‖ ≤ ∑ i ∈ Finset.range n, |(Q.coeff i : ℝ)| := by
  rw [aeval_eq_sum_range' hQ]
  refine (norm_sum_le ..).trans (Finset.sum_le_sum fun i _ => ?_)
  rw [zsmul_eq_mul, norm_mul, norm_pow, hz, one_pow, mul_one, Complex.norm_intCast]

/-- A non-zero integer polynomial of degree below 512 does not vanish at a primitive 1024th root of unity. -/
theorem aeval_ne_zero {F : Type} [Field F] [CharZero F] {z : F} (hz : IsPrimitiveRoot z 1024) {Q : ℤ[X]} (hQ : Q ≠ 0)
    (hd : Q.natDegree < 512) : aeval z Q ≠ 0 := by
  intro h0
  have hdvd := (cyclotomic_eq_minpoly hz (by norm_num)) ▸ minpoly.isIntegrallyClosed_dvd (hz.isIntegral (by norm_num)) h0
  have := natDegree_le_of_dvd hdvd hQ
  rw [natDegree_cyclotomic, totient_1024] at this
  omega

/-- The norm of a non-zero integer combination is at least 1. -/
theorem one_le_norm_mul {Q : ℤ[X]} (hQ : Q ≠ 0) (hd : Q.natDegree < 512) {B : ℝ}
    (hB : ∑ i ∈ Finset.range 512, |(Q.coeff i : ℝ)| ≤ B) : 1 ≤ ‖aeval root Q‖ * B ^ 511 := by
  classical
  let K := CyclotomicField 1024 ℚ
  have hne : NeZero ((1024 : ℕ) : ℚ) := ⟨by norm_num⟩
  have hcyc : IsCyclotomicExtension {1024} ℚ K := CyclotomicField.isCyclotomicExtension 1024 ℚ
  have hζ : IsPrimitiveRoot (IsCyclotomicExtension.zeta 1024 ℚ K) 1024 := IsCyclotomicExtension.zeta_spec 1024 ℚ K
  generalize IsCyclotomicExtension.zeta 1024 ℚ K = ζ at hζ
  have hirr : Irreducible (cyclotomic 1024 ℚ) := cyclotomic.irreducible_rat (by norm_num)
  have hfin : FiniteDimensional ℚ K := IsCyclotomicExtension.finiteDimensional {1024} ℚ K
  have hα : IsIntegral ℤ (aeval ζ Q) :=
    adjoin_le_integralClosure (hζ.isIntegral (by norm_num)) (aeval_mem_adjoin_singleton ℤ ζ)
  have hα0 : aeval ζ Q ≠ 0 := aeval_ne_zero hζ hQ hd
  -- the norm is a non-zero integer
  obtain ⟨N, hN⟩ := IsIntegrallyClosed.isIntegral_iff.mp (Algebra.isIntegral_norm ℚ hα)
  have hN0 : N ≠ 0 := by
    rintro rfl
    rw [map_zero] at hN
    exact hα0 (Algebra.norm_eq_zero_iff.mp hN.symm)
  have hprod := Algebra.norm_eq_prod_embeddings ℚ ℂ (aeval ζ Q)
  rw [← hN] at hprod
  have hone : (1 : ℝ) ≤ ∏ σ : K →ₐ[ℚ] ℂ, ‖σ (aeval ζ Q)‖ := by
    rw [← norm_prod, ← hprod]
    simp only [eq_intCast, map_intCast, Complex.norm_intCast]
    exact_mod_cast Int.one_le_abs hN0
  -- the conjugates
  have hσ : ∀ σ : K →ₐ[ℚ] ℂ, σ (aeval ζ Q) = aeval (σ ζ) Q := fun σ =>
    (aeval_algHom_apply (σ.restrictScalars ℤ) ζ Q).symm
  have hle : ∀ σ : K →ₐ[ℚ] ℂ, ‖σ (aeval ζ Q)‖ ≤ B := fun σ => by
    rw [hσ]
    refine (norm_aeval_le ?_ hd).trans hB
    exact Complex.norm_eq_one_of_pow_eq_one (n := 1024) (by rw [← map_pow, hζ.pow_eq_one, map_one]) (by norm_num)
  obtain ⟨σ₀, h₀⟩ : ∃ σ : K →ₐ[ℚ] ℂ, σ ζ = root := by
    let e := hζ.embeddingsEquivPrimitiveRoots ℂ hirr
    refine ⟨e.symm ⟨root, (mem_primitiveRoots (by norm_num)).mpr root_primitive⟩, ?_⟩
    exact congrArg Subtype.val (e.apply_symm_apply _)
  have hcard : Fintype.card (K →ₐ[ℚ] ℂ) = 512 := by
    rw [AlgHom.card, IsCyclotomicExtension.finrank K hirr, totient_1024]
  have hB0 : 0 ≤ B := (norm_nonneg _).trans (hle σ₀)
  rw [← Finset.mul_prod_erase _ _ (Finset.mem_univ σ₀), hσ, h₀] at hone
  refine hone.trans (mul_le_mul_of_nonneg_left ?_ (norm_nonneg _))
  refine (Finset.prod_le_prod (fun _ _ => norm_nonneg _) (fun σ _ => hle σ)).trans (le_of_eq ?_)
  rw [Finset.prod_const, Finset.card_erase_of_mem (Finset.mem_univ _), Finset.card_univ, hcard]

/-! ## Sums of sines -/

theorem root_pow (n : ℕ) : root ^ n = Complex.exp ((2 * Real.pi * n / 1024 : ℝ) * Complex.I) := by
  rw [root, ← Complex.exp_nat_mul]
  exact congrArg Complex.exp (by push_cast; ring)

theorem root_pow_quarter : root ^ 256 = Complex.I := by
  refine (root_pow 256).trans (Eq.trans (congrArg Complex.exp ?_) Complex.exp_pi_div_two_mul_I)
  push_cast
  ring

/-- Twice a sine of the grid, in powers of the root of unity. -/
theorem two_gridSine (r : ℕ) (hr : r ≤ 256) : ((2 * gridSine r : ℝ) : ℂ) = root ^ (256 - r) - root ^ (256 + r) := by
  have h1 : root ^ (256 - r) * root ^ r = Complex.I := by rw [← pow_add, Nat.sub_add_cancel hr, root_pow_quarter]
  have h2 : root ^ r ≠ 0 := pow_ne_zero _ (root_primitive.ne_zero (by norm_num))
  have h3 : root ^ (256 - r) = Complex.I * Complex.exp (-((2 * Real.pi * r / 1024 : ℝ) * Complex.I)) := by
    rw [Complex.exp_neg, ← root_pow, ← h1, mul_assoc, mul_inv_cancel₀ h2, mul_one]
  rw [h3, pow_add, root_pow_quarter, root_pow, gridSine, Complex.ofReal_mul, Complex.ofReal_sin, Complex.sin]
  push_cast
  ring_nf

/-- The coefficients of `k + Σ_{r=1}^{255} c_r·(X^(256-r) - X^(256+r))`. -/
def sineCoeff (c : ℕ → ℤ) (k : ℤ) (i : ℕ) : ℤ :=
  if i = 0 then k else if i < 256 then c (256 - i) else if i = 256 then 0 else -c (i - 256)

/-- `k + Σ_{r=1}^{255} c_r·(X^(256-r) - X^(256+r))`. -/
noncomputable def sinePoly (c : ℕ → ℤ) (k : ℤ) : ℤ[X] := ∑ i ∈ Finset.range 512, monomial i (sineCoeff c k i)

theorem sinePoly_coeff (c : ℕ → ℤ) (k : ℤ) (i : ℕ) (hi : i < 512) : (sinePoly c k).coeff i = sineCoeff c k i := by
  rw [sinePoly, finsetSum_coeff, Finset.sum_eq_single i]
  · rw [coeff_monomial, if_pos rfl]
  · intro j _ hj; rw [coeff_monomial, if_neg hj]
  · intro h; exact absurd (Finset.mem_range.mpr hi) h

theorem sinePoly_degree (c : ℕ → ℤ) (k : ℤ) : (sinePoly c k).natDegree < 512 := by
  refine Nat.lt_of_le_of_lt (natDegree_sum_le_of_forall_le _ _ (n := 511) fun i hi => ?_) (by norm_num)
  exact (natDegree_monomial_le _).trans (by have := Finset.mem_range.mp hi; omega)

/-- A sum over the 512 places: the first, those below the middle from its side, the middle, and those above it. -/
theorem sum_512 {M : Type} [AddCommMonoid M] (f : ℕ → M) : ∑ i ∈ Finset.range 512, f i =
    f 0 + f 256 + ∑ r ∈ Finset.range 255, (f (256 - (r + 1)) + f (256 + (r + 1))) := by
  rw [show (512 : ℕ) = 256 + 256 from rfl, Finset.sum_range_add, Finset.sum_add_distrib,
    show (256 : ℕ) = 255 + 1 from rfl, Finset.sum_range_succ', Finset.sum_range_succ' (fun x => f (255 + 1 + x))]
  have e : ∑ r ∈ Finset.range 255, f (255 + 1 - (r + 1)) = ∑ k ∈ Finset.range 255, f (k + 1) := by
    rw [← Finset.sum_range_reflect (fun k => f (k + 1))]
    refine Finset.sum_congr rfl fun m hm => ?_
    have := Finset.mem_range.mp hm
    exact congrArg f (by omega)
  rw [e]
  simp only [Nat.add_zero]
  abel

theorem sinePoly_value (c : ℕ → ℤ) (k : ℤ) : aeval root (sinePoly c k) =
    ((k + ∑ r ∈ Finset.range 255, c (r + 1) * (2 * gridSine (r + 1)) : ℝ) : ℂ) := by
  rw [sinePoly, map_sum, sum_512]
  have e0 : sineCoeff c k 0 = k := rfl
  have e1 : sineCoeff c k 256 = 0 := rfl
  rw [e0, e1, monomial_zero_left, monomial_zero_right, map_zero, add_zero, aeval_C, Complex.ofReal_add, Complex.ofReal_sum]
  refine congrArg₂ (· + ·) (by simp) (Finset.sum_congr rfl fun r hr => ?_)
  have := Finset.mem_range.mp hr
  have e2 : sineCoeff c k (256 - (r + 1)) = c (r + 1) := by
    rw [sineCoeff, if_neg (by omega), if_pos (by omega), (by omega : 256 - (256 - (r + 1)) = r + 1)]
  have e3 : sineCoeff c k (256 + (r + 1)) = -c (r + 1) := by
    rw [sineCoeff, if_neg (by omega), if_neg (by omega), if_neg (by omega), (by omega : 256 + (r + 1) - 256 = r + 1)]
  rw [e2, e3, aeval_monomial, aeval_monomial, Complex.ofReal_mul, two_gridSine _ (by omega)]
  simp only [eq_intCast, Int.cast_neg, Complex.ofReal_intCast]
  ring

theorem sinePoly_weight (c : ℕ → ℤ) (k : ℤ) : ∑ i ∈ Finset.range 512, |((sinePoly c k).coeff i : ℝ)| =
    |(k : ℝ)| + ∑ r ∈ Finset.range 255, 2 * |(c (r + 1) : ℝ)| := by
  rw [Finset.sum_congr rfl fun i hi => by rw [sinePoly_coeff c k i (Finset.mem_range.mp hi)], sum_512]
  have e0 : sineCoeff c k 0 = k := rfl
  have e1 : sineCoeff c k 256 = 0 := rfl
  rw [e0, e1, Int.cast_zero, abs_zero, add_zero]
  refine congrArg₂ (· + ·) rfl (Finset.sum_congr rfl fun r hr => ?_)
  have := Finset.mem_range.mp hr
  have e2 : sineCoeff c k (256 - (r + 1)) = c (r + 1) := by
    rw [sineCoeff, if_neg (by omega), if_pos (by omega), (by omega : 256 - (256 - (r + 1)) = r + 1)]
  have e3 : sineCoeff c k (256 + (r + 1)) = -c (r + 1) := by
    rw [sineCoeff, if_neg (by omega), if_neg (by omega), if_neg (by omega), (by omega : 256 + (r + 1) - 256 = r + 1)]
  rw [e2, e3, Int.cast_neg, abs_neg]
  ring

/-- An integer and an integer combination of the sines of the first quarter, not all of whose coefficients are 0, is not
small: the sines are linearly independent of each other and of 1, with this measure. -/
theorem sines_gap {c : ℕ → ℤ} {k : ℤ} {B : ℝ} {r : ℕ} (h1 : 1 ≤ r) (h2 : r ≤ 255) (hr : c r ≠ 0)
    (hB : |(k : ℝ)| + ∑ r ∈ Finset.range 255, 2 * |(c (r + 1) : ℝ)| ≤ B) :
    1 ≤ |k + ∑ r ∈ Finset.range 255, c (r + 1) * (2 * gridSine (r + 1))| * B ^ 511 := by
  have hQ : sinePoly c k ≠ 0 := by
    intro h0
    have := congrArg (fun Q => Q.coeff (256 - r)) h0
    rw [sinePoly_coeff c k _ (by omega), coeff_zero, sineCoeff, if_neg (by omega), if_pos (by omega),
      (by omega : 256 - (256 - r) = r)] at this
    exact hr this
  have := one_le_norm_mul hQ (sinePoly_degree c k) ((sinePoly_weight c k).trans_le hB)
  rwa [sinePoly_value, Complex.norm_real, Real.norm_eq_abs] at this

/-! ## The quadrature sum -/

theorem abs_sineCount_le (j r : Nat) : |(sineCount j r : ℝ)| ≤ 511 := by
  have h : ∀ m, |(sineSign m r : ℝ)| ≤ 1 := by
    intro m
    rw [sineSign]
    split
    · simp
    · split <;> simp
  rw [sineCount_eq, Int.cast_sum]
  refine (Finset.abs_sum_le_sum_abs ..).trans ((Finset.sum_le_sum fun k _ => h _).trans (le_of_eq ?_))
  rw [Finset.sum_const, Finset.card_range, nsmul_eq_mul, mul_one]
  norm_num

theorem abs_sineCoef_le : ∀ (terms : List (Nat × Int)) (r : Nat), |(sineCoef terms r : ℝ)| ≤ 511 * tapWeight terms
  | [], r => by simp [sineCoef, tapWeight]
  | t :: ts, r => by
    have ih := abs_sineCoef_le ts r
    have ht : |(t.2 : ℝ)| * |(sineCount t.1 r : ℝ)| ≤ |(t.2 : ℝ)| * 511 :=
      mul_le_mul_of_nonneg_left (abs_sineCount_le ..) (abs_nonneg _)
    have hd : ((t.2.natAbs : ℕ) : ℝ) = |(t.2 : ℝ)| := by rw [Nat.cast_natAbs, Int.cast_abs]
    rw [sineCoef_cons, tapWeight_cons]
    push_cast
    rw [hd]
    refine (abs_add_le ..).trans ?_
    rw [abs_mul]
    linarith

theorem exists_sineCoef {terms : List (Nat × Int)} (h : rationalQuadrature terms = none) :
    ∃ r, 1 ≤ r ∧ r ≤ 255 ∧ sineCoef terms r ≠ 0 := by
  rw [rationalQuadrature] at h
  split at h
  · cases h
  · next h0 =>
    by_contra hno
    refine h0 ((allBelow_iff _ _).mpr fun r hr => beq_iff_eq.mpr ?_)
    by_contra hne
    exact hno ⟨r + 1, by omega, by omega, hne⟩

/-- A quadrature sum that is not rational keeps its distance from every fraction `b/a`. -/
theorem quadrature_gap {terms : List (Nat × Int)} (hidx : TapIndices terms) (hnone : rationalQuadrature terms = none)
    {a b : ℤ} (ha : a ≠ 0) {B : ℝ} (hB : 2 ^ 18 * |(a : ℝ)| * tapWeight terms + 2 ^ 10 * |(b : ℝ)| ≤ B) :
    1 ≤ 2 ^ 10 * |a * -tapSum terms - b| * B ^ 511 := by
  obtain ⟨r, h1, h2, hr⟩ := exists_sineCoef hnone
  have hW : ∀ r, |(sineCoef terms r : ℝ)| ≤ 511 * tapWeight terms := abs_sineCoef_le terms
  have hsum : ((-2 * a * sineCoef terms 256 - 1024 * b : ℤ) : ℝ) +
      ∑ r ∈ Finset.range 255, ((-a * sineCoef terms (r + 1) : ℤ) : ℝ) * (2 * gridSine (r + 1)) =
      2 ^ 10 * (a * -tapSum terms - b) := by
    have h := tapSum_eq_sines terms hidx
    rw [show (256 : ℕ) = 255 + 1 from rfl, Finset.sum_range_succ, gridSine_quarter, mul_one] at h
    have e : ∑ r ∈ Finset.range 255, ((-a * sineCoef terms (r + 1) : ℤ) : ℝ) * (2 * gridSine (r + 1)) =
        -2 * a * ∑ r ∈ Finset.range 255, (sineCoef terms (r + 1) : ℝ) * gridSine (r + 1) := by
      rw [Finset.mul_sum]
      refine Finset.sum_congr rfl fun r _ => ?_
      push_cast
      ring
    have e' : ∑ r ∈ Finset.range 255, (sineCoef terms (r + 1) : ℝ) * gridSine (r + 1) =
        512 * tapSum terms - sineCoef terms 256 := by linarith
    rw [e, e']
    push_cast
    ring
  have := sines_gap (c := fun r => -a * sineCoef terms r) (k := -2 * a * sineCoef terms 256 - 1024 * b) (B := B) h1 h2
    (mul_ne_zero (neg_ne_zero.mpr ha) hr) ?_
  · rw [hsum, abs_mul, abs_of_pos (by positivity : (0 : ℝ) < 2 ^ 10)] at this
    exact this
  · refine le_trans ?_ hB
    have hc : ∑ r ∈ Finset.range 255, 2 * |((-a * sineCoef terms (r + 1) : ℤ) : ℝ)| ≤
        255 * (2 * (|(a : ℝ)| * (511 * tapWeight terms))) := by
      refine (Finset.sum_le_card_nsmul _ _ (2 * (|(a : ℝ)| * (511 * tapWeight terms))) fun r _ => ?_).trans (le_of_eq ?_)
      · rw [Int.cast_mul, Int.cast_neg, abs_mul, abs_neg]
        exact mul_le_mul_of_nonneg_left (mul_le_mul_of_nonneg_left (hW _) (abs_nonneg _)) (by norm_num)
      · rw [Finset.card_range, nsmul_eq_mul]; norm_num
    have hk : |((-2 * a * sineCoef terms 256 - 1024 * b : ℤ) : ℝ)| ≤
        2 * (|(a : ℝ)| * (511 * tapWeight terms)) + 1024 * |(b : ℝ)| := by
      push_cast
      refine (abs_sub ..).trans (add_le_add ?_ (le_of_eq ?_))
      · rw [abs_mul, abs_mul, abs_neg, abs_two, mul_assoc]
        exact mul_le_mul_of_nonneg_left (mul_le_mul_of_nonneg_left (hW _) (abs_nonneg _)) (by norm_num)
      · rw [abs_mul]; norm_num
    have hpos : 0 ≤ |(a : ℝ)| * (tapWeight terms : ℝ) := by positivity
    refine (add_le_add hk hc).trans ?_
    linarith

/-! ## The ladder decides -/

theorem abs_tapValue_le (j : Nat) (h0 : 1 ≤ j) (hj : j < 512) : |tapValue j| ≤ 1 := by
  have hj1 : (1 : ℝ) ≤ j := by exact_mod_cast h0
  have hj2 : (j : ℝ) ≤ 512 := by exact_mod_cast hj.le
  have hsin : 1 / 512 ≤ Real.sin (Real.pi * j / 1024) := by
    have h := Real.mul_le_sin (x := Real.pi * j / 1024) (by positivity)
      (by have := mul_le_mul_of_nonneg_left hj2 Real.pi_pos.le; linarith)
    have e : 2 / Real.pi * (Real.pi * j / 1024) = j / 512 := by field_simp; norm_num
    rw [e] at h
    linarith
  have hpos : 0 < Real.sin (Real.pi * j / 1024) := lt_of_lt_of_le (by norm_num) hsin
  have hcos := Real.abs_cos_le_one (Real.pi * j / 1024)
  rw [tapValue, abs_div, abs_div, abs_of_pos hpos, abs_of_pos (by norm_num : (0 : ℝ) < 512), div_div,
    div_le_one (by positivity)]
  linarith

theorem abs_tapSum_le : ∀ terms : List (Nat × Int), TapIndices terms → |tapSum terms| ≤ tapWeight terms
  | [], _ => by simp [tapSum, tapWeight]
  | t :: ts, h => by
    obtain ⟨ho, hj⟩ := h t (List.mem_cons_self ..)
    have ih := abs_tapSum_le ts fun u hu => h u (List.mem_cons_of_mem _ hu)
    have ht := mul_le_mul_of_nonneg_left (abs_tapValue_le t.1 (by omega) hj) (abs_nonneg (t.2 : ℝ))
    have hd : ((t.2.natAbs : ℕ) : ℝ) = |(t.2 : ℝ)| := by rw [Nat.cast_natAbs, Int.cast_abs]
    rw [tapSum_cons, tapWeight_cons]
    push_cast
    rw [hd]
    refine (abs_add_le ..).trans ?_
    rw [abs_mul]
    linarith

/-- A quadrature sum that is not rational keeps its distance from every half-integer. -/
theorem half_gap {terms : List (Nat × Int)} (hidx : TapIndices terms) (hnone : rationalQuadrature terms = none) (h : ℤ) :
    1 ≤ 2 ^ 11 * |-tapSum terms - h / 2| * (2 ^ 20 * tapWeight terms : ℝ) ^ 511 := by
  have hW : (1 : ℝ) ≤ tapWeight terms := by
    obtain ⟨r, -, -, hr⟩ := exists_sineCoef hnone
    have h1 := abs_sineCoef_le terms r
    have h2 : (1 : ℝ) ≤ |(sineCoef terms r : ℝ)| := by exact_mod_cast Int.one_le_abs hr
    have h3 : (0 : ℝ) < tapWeight terms := by linarith
    have h4 : 0 < tapWeight terms := by exact_mod_cast h3
    exact_mod_cast h4
  have e : 2 ^ 11 * |-tapSum terms - h / 2| = 2 ^ 10 * |(2 : ℤ) * -tapSum terms - h| := by
    have : ((2 : ℤ) : ℝ) * -tapSum terms - h = 2 * (-tapSum terms - h / 2) := by push_cast; ring
    rw [this, abs_mul, abs_two]
    ring
  rw [e]
  rcases le_or_gt 1 |(2 : ℤ) * -tapSum terms - (h : ℝ)| with hfar | hnear
  · have hB : (1 : ℝ) ≤ (2 ^ 20 * tapWeight terms) ^ 511 := one_le_pow₀ (by linarith)
    calc (1 : ℝ) ≤ 2 ^ 10 * 1 * 1 := by norm_num
      _ ≤ _ := by gcongr
  · have hs := abs_tapSum_le terms hidx
    have hh : |(h : ℝ)| ≤ 2 * tapWeight terms + 1 := by
      rw [abs_le] at hs
      rw [abs_lt] at hnear
      push_cast at hnear
      rw [abs_le]
      constructor <;> linarith [hs.1, hs.2, hnear.1, hnear.2]
    refine quadrature_gap hidx hnone (by norm_num) ?_
    have h2 : |((2 : ℤ) : ℝ)| = 2 := by norm_num
    rw [h2]
    linarith

/-- The enclosed sum decides the rounding of a sum that is not rational, with enough places for its weight. -/
theorem quadrature_decided {terms : List (Nat × Int)} (hidx : TapIndices terms) (hnone : rationalQuadrature terms = none)
    {w m K : Nat} (hw : tapWeight terms ≤ 2 ^ w) (hK : 512 * w + m + 11000 ≤ K) (hK' : K + 1 ≤ 2 ^ m) :
    ∃ x, (quadratureBall (tapsAt K) terms).agreed (K + 1074) = some x := by
  obtain ⟨henc, hr⟩ := quadratureBall_encloses (K := K) (by omega) hidx
  refine Ball.agreed_of_far henc fun h => ?_
  have hgap := half_gap hidx hnone h
  set δ := |-tapSum terms - (h : ℝ) / 2|
  have hwr : (tapWeight terms : ℝ) ≤ 2 ^ w := by exact_mod_cast hw
  have hδ : 0 ≤ δ := abs_nonneg _
  have hW0 : (0 : ℝ) ≤ tapWeight terms := Nat.cast_nonneg _
  have hK1 : ((K : ℝ) + 1) ≤ 2 ^ m := by exact_mod_cast hK'
  have hlow : 1 ≤ 2 ^ (11 + (20 + w) * 511) * δ := by
    calc (1 : ℝ) ≤ 2 ^ 11 * δ * (2 ^ 20 * tapWeight terms : ℝ) ^ 511 := hgap
      _ ≤ 2 ^ 11 * δ * (2 ^ 20 * 2 ^ w) ^ 511 := by gcongr
      _ = 2 ^ (11 + (20 + w) * 511) * δ := by rw [← pow_add, ← pow_mul, pow_add 2 11, mul_right_comm]
  have hcast : ((tapWeight terms * (2 ^ 32 * (K + 1)) : ℕ) : ℝ) = tapWeight terms * (2 ^ 32 * (K + 1)) := by
    push_cast; ring
  rw [hr, hcast]
  calc 2 * ((tapWeight terms : ℝ) * (2 ^ 32 * (K + 1))) ≤ 2 ^ 1 * (2 ^ w * (2 ^ 32 * 2 ^ m)) := by
        rw [pow_one]; gcongr
    _ = 2 ^ (1 + (w + (32 + m))) := by rw [← pow_add, ← pow_add, ← pow_add]
    _ ≤ 2 ^ (1 + (w + (32 + m))) * (2 ^ (11 + (20 + w) * 511) * δ) := le_mul_of_one_le_right (by positivity) hlow
    _ = 2 ^ (1 + (w + (32 + m)) + (11 + (20 + w) * 511)) * δ := by rw [pow_add 2 (1 + _)]; ring
    _ < 2 ^ K * δ := by
      have hδ' : 0 < δ := by
        rcases hδ.lt_or_eq with h | h
        · exact h
        · rw [← h, mul_zero] at hlow; linarith
      exact mul_lt_mul_of_pos_right (pow_lt_pow_right₀ (by norm_num) (by omega)) hδ'

/-- Where the last enclosure of a ladder decides, the ladder gives the number's rounding. -/
theorem roundBall_roundsTo {enclose : Nat → Ball} {v : ℝ} : ∀ l : List Nat, l ≠ [] →
    (∀ K ∈ l, (enclose (K + 1074)).Encloses K v) →
    (∀ K, l.getLast? = some K → ∃ x, (enclose (K + 1074)).agreed (K + 1074) = some x) →
    RoundsTo v (roundBall enclose (l.map (· + 1074)))
  | [], h, _, _ => absurd rfl h
  | [K], _, henc, hlast => by
    obtain ⟨x, hx⟩ := hlast K rfl
    rw [List.map_cons, List.map_nil, roundBall, hx, Option.getD_some]
    exact Ball.agreed_roundsTo_subnormals (henc K (List.mem_singleton.mpr rfl)) hx
  | K :: K' :: Ks, _, henc, hlast => by
    have ih := roundBall_roundsTo (K' :: Ks) (by simp) (fun J hJ => henc J (List.mem_cons_of_mem _ hJ))
      (fun J hJ => hlast J (by rw [List.getLast?_cons_cons]; exact hJ))
    rw [List.map_cons, List.map_cons, roundBall]
    rw [List.map_cons] at ih
    rcases hx : (enclose (K + 1074)).agreed (K + 1074) with _ | x
    · rw [Option.getD_none]; exact ih
    · rw [Option.getD_some]; exact Ball.agreed_roundsTo_subnormals (henc K (List.mem_cons_self ..)) hx

/-! ## The reference's rounding, and the judging of another implementation's answer -/

theorem tapWeight_le {M : Nat} : ∀ terms : List (Nat × Int), (∀ t ∈ terms, t.2.natAbs ≤ M) →
    tapWeight terms ≤ terms.length * M
  | [], _ => by simp [tapWeight]
  | t :: ts, h => by
    have ih := tapWeight_le ts fun u hu => h u (List.mem_cons_of_mem _ hu)
    have ht := h t (List.mem_cons_self ..)
    rw [tapWeight_cons, List.length_cons, Nat.add_mul, Nat.one_mul]
    omega

/-- The weight of the pairs for samples of at most `M`. -/
theorem tapWeight_tapTerms {a : Nat → Int} {M : Nat} (ha : ∀ p, (a p).natAbs ≤ M) (n : Nat) :
    tapWeight (tapTerms a n) ≤ 512 * M := by
  have h1 : tapWeight (tapTerms a n) ≤ (tapTerms a n).length * (2 * M) := by
    refine tapWeight_le _ fun t ht => ?_
    obtain ⟨j, -, rfl⟩ := List.mem_map.mp (List.mem_filter.mp ht).1
    have e1 := ha ((n + 1024 - j) % 1024)
    have e2 := ha ((n + j) % 1024)
    dsimp only
    omega
  have h2 : (tapTerms a n).length ≤ 256 := by
    refine (List.length_filter_le ..).trans ?_
    rw [List.length_map, oddTaps, length_tabulate]
  calc _ ≤ (tapTerms a n).length * (2 * M) := h1
    _ ≤ 256 * (2 * M) := Nat.mul_le_mul_right _ h2
    _ = 512 * M := by ring

theorem tapWeight_pow {a : Nat → Int} {m : Nat} (ha : ∀ p, (a p).natAbs ≤ 2 ^ m) (n : Nat) :
    tapWeight (tapTerms a n) ≤ 2 ^ (9 + m) := by
  rw [Nat.pow_add]
  exact tapWeight_tapTerms ha n

theorem roundsTo_zero : RoundsTo 0 0 := by
  refine ⟨false, 0, by decide +kernel, by simp, fun num den hd => ⟨fun h => ?_, fun _ => Nat.zero_le _⟩⟩
  have h0 : num = 0 := by
    rw [abs_zero, zero_mul] at h
    exact_mod_cast le_antisymm h (Nat.cast_nonneg _)
  rw [h0]
  simp [Fmt.roundCode, rneNat]

/-- An exact fraction with a power of two below rounds as `roundInt64` says. -/
theorem roundInt64_roundsTo (v : Int) (K : Nat) : RoundsTo (v / 2 ^ K) (roundInt64 v (K + 1074)) := by
  refine Ball.agreed_roundsTo_subnormals (K := K) (b := ⟨v, 0⟩) ?_ (by rw [agreed_def]; simp)
  rw [Ball.Encloses, mul_div_cancel₀ _ (by positivity)]
  simp

/-- The reference rounds every sum of a weight up to `2^2107` correctly. -/
theorem quadratureHard_roundsTo {terms : List (Nat × Int)} {w : Nat} (hidx : TapIndices terms) (hw : tapWeight terms ≤ 2 ^ w)
    (hw' : w ≤ 2107) : RoundsTo (-tapSum terms) (quadratureHard terms) := by
  rw [quadratureHard]
  rcases hr : rationalQuadrature terms with _ | v
  · refine roundBall_roundsTo tapLadder (by simp) (fun K hK => ?_) fun K hK => ?_
    · rw [Nat.add_sub_cancel]
      refine (quadratureBall_encloses ?_ hidx).1
      simp only [List.mem_cons, List.not_mem_nil, or_false] at hK
      omega
    · obtain rfl : 1100000 = K := Option.some.inj hK
      rw [Nat.add_sub_cancel]
      exact quadrature_decided hidx hr (m := 21) hw (by omega) (by norm_num)
  · have := roundInt64_roundsTo v 9
    have e : (v : ℝ) / 2 ^ 9 = -tapSum terms := by
      rw [rationalQuadrature_spec hidx hr, (by norm_num : (2 : ℝ) ^ 9 = 512), mul_div_cancel_left₀ _ (by norm_num)]
    rw [e] at this
    exact this

/-- `RNE64(e)` of R163, for samples of at most `2^2098` smallest subnormals: every finite one. -/
theorem quadratureRef_roundsTo {a : Nat → Int} (ha : ∀ p, (a p).natAbs ≤ 2 ^ 2098) {n : Nat} (hn : n < 1024) :
    RoundsTo (quadrature a n) (quadratureRef (tapsAt 320) a n) := by
  have hidx := tapTerms_indices a n
  have hw := tapWeight_pow ha n
  rw [quadrature_eq a n hn, quadratureRef]
  generalize tapTerms a n = terms at hidx hw
  rcases terms with _ | ⟨t, ts⟩
  · rw [tapSum, List.map_nil, List.sum_nil, neg_zero]; exact roundsTo_zero
  · dsimp only
    rcases hx : (quadratureBall (tapsAt 320) (t :: ts)).agreed (320 + 1074) with _ | x
    · rw [Option.getD_none]; exact quadratureHard_roundsTo hidx hw (by omega)
    · rw [Option.getD_some]
      exact Ball.agreed_roundsTo_subnormals (quadratureBall_encloses (by norm_num) hidx).1 hx

/-- A finite binary64 is at most `2^2098` smallest subnormals. -/
theorem int64Of_le (x : F64) : (int64Of x).natAbs ≤ 2 ^ 2098 := by
  have htop : Fmt.magOf .b64 (Fmt.infCode .b64) = 2 ^ 2098 := by decide +kernel
  rw [int64Of, ← htop]
  rcases hx : view64 x with _ | _ | ⟨s, m⟩
  · exact Nat.zero_le _
  · exact Nat.zero_le _
  · obtain ⟨c, hc, rfl⟩ := view64_fin hx
    have := magOf_le .b64 _ _ hc.le
    cases s <;> simpa [signed] using this

theorem realInts_get (b : List C64) {p : Nat} (hp : p < 1024) : (realInts b).getD p 0 = realOf b p := by
  have h : (realInts b).getD p 0 = (tabulate 1024 (realOf b)).getD p 0 := by
    rw [realInts, Array.getD_eq_getD_getElem?, List.getElem?_toArray, List.getD]
  rw [h, getD_tabulate_of_lt _ _ hp]

/-- The pairs depend on the 1024 samples only. -/
theorem tapTerms_congr {a a' : Nat → Int} (h : ∀ p, p < 1024 → a p = a' p) (n : Nat) : tapTerms a n = tapTerms a' n := by
  have e : ∀ j, a ((n + 1024 - j) % 1024) - a ((n + j) % 1024) = a' ((n + 1024 - j) % 1024) - a' ((n + j) % 1024) := fun j => by
    rw [h _ (Nat.mod_lt _ (by omega)), h _ (Nat.mod_lt _ (by omega))]
  simp only [tapTerms, e]

/-- What a verdict on an enclosure says of every number it holds. -/
theorem verdict_spec {bound : Nat × Nat} {y : Int} {K : Nat} {b : Ball} {v : ℝ} {t : Bool} (henc : b.Encloses K v)
    (h : b.verdict bound y K = some t) : t = true ↔ |(y : ℝ) - v| * bound.2 ≤ bound.1 := by
  have hK : (0 : ℝ) < 2 ^ K := by positivity
  have hd : (((y * 2 ^ K - b.c).natAbs : ℕ) : ℝ) = |(y : ℝ) * 2 ^ K - b.c| := by
    rw [Nat.cast_natAbs, Int.cast_abs]; push_cast; rfl
  have hδ : |(y : ℝ) - v| * 2 ^ K = |(y : ℝ) * 2 ^ K - 2 ^ K * v| := by
    rw [← abs_of_pos hK, ← abs_mul, abs_of_pos hK]; congr 1; ring
  rw [Ball.Encloses] at henc
  have hup : |(y : ℝ) - v| * 2 ^ K ≤ (y * 2 ^ K - b.c).natAbs + b.r := by
    rw [hδ, hd]
    have e : (y : ℝ) * 2 ^ K - 2 ^ K * v = (y * 2 ^ K - b.c) + (b.c - 2 ^ K * v) := by ring
    rw [e]
    exact (abs_add_le ..).trans (add_le_add le_rfl henc)
  have hlow : ((y * 2 ^ K - b.c).natAbs : ℝ) - b.r ≤ |(y : ℝ) - v| * 2 ^ K := by
    rw [hδ, hd]
    have e : (y : ℝ) * 2 ^ K - b.c = (y * 2 ^ K - 2 ^ K * v) - (b.c - 2 ^ K * v) := by ring
    have := abs_sub ((y : ℝ) * 2 ^ K - 2 ^ K * v) (b.c - 2 ^ K * v)
    rw [← e] at this
    linarith
  rw [Ball.verdict] at h
  generalize (y * 2 ^ K - b.c).natAbs = d at *
  have h2 : (0 : ℝ) ≤ bound.2 := Nat.cast_nonneg _
  split at h
  · next h1 =>
    obtain rfl := Option.some.inj h
    have h1' : ((d : ℝ) + b.r) * bound.2 ≤ bound.1 * 2 ^ K := by exact_mod_cast h1
    refine iff_of_true rfl (le_of_mul_le_mul_right (a := (2 : ℝ) ^ K) ?_ hK)
    calc |(y : ℝ) - v| * bound.2 * 2 ^ K = |(y : ℝ) - v| * 2 ^ K * bound.2 := by ring
      _ ≤ (d + b.r) * bound.2 := mul_le_mul_of_nonneg_right hup h2
      _ ≤ _ := h1'
  · split at h
    · next h1 =>
      obtain rfl := Option.some.inj h
      have hle : b.r ≤ d := by
        by_contra hn
        rw [Nat.sub_eq_zero_of_le (by omega), Nat.zero_mul] at h1
        exact Nat.not_lt_zero _ h1
      have h1' : (bound.1 : ℝ) * 2 ^ K < (d - b.r) * bound.2 := by
        have : (bound.1 : ℝ) * 2 ^ K < ((d - b.r : ℕ) : ℝ) * bound.2 := by exact_mod_cast h1
        rwa [Nat.cast_sub hle] at this
      refine iff_of_false (by decide) (not_le.mpr (lt_of_mul_lt_mul_right (a := (2 : ℝ) ^ K) ?_ hK.le))
      calc (bound.1 : ℝ) * 2 ^ K < (d - b.r) * bound.2 := h1'
        _ ≤ |(y : ℝ) - v| * 2 ^ K * bound.2 := mul_le_mul_of_nonneg_right hlow h2
        _ = _ := by ring
    · cases h

/-- An answer that `accurateIm` takes is within the bound of the quadrature sum. -/
theorem accurateIm_sound {bound : Nat × Nat} {terms : List (Nat × Int)} {y : Int} (hidx : TapIndices terms)
    (h : accurateIm bound terms y = true) : |(y : ℝ) - -tapSum terms| * bound.2 ≤ bound.1 := by
  rw [accurateIm] at h
  rcases hr : rationalQuadrature terms with _ | v
  · rw [hr] at h
    dsimp only at h
    rcases hf : (verdictLadder bound).findSome? fun K => (quadratureBall (tapsAt K) terms).verdict bound y K with _ | t
    · rw [hf] at h; cases h
    · obtain ⟨K, hK, hv⟩ := List.exists_of_findSome?_eq_some hf
      rw [hf, Option.getD_some] at h
      have h192 : 192 ≤ K := by
        simp only [verdictLadder, List.mem_cons, List.not_mem_nil, or_false] at hK
        omega
      exact (verdict_spec (quadratureBall_encloses h192 hidx).1 hv).mp h
  · rw [hr] at h
    have h' : (y * 512 - v).natAbs * bound.2 ≤ bound.1 * 512 := decide_eq_true_iff.mp h
    have hc : ((((y * 512 - v).natAbs * bound.2 : ℕ)) : ℝ) ≤ bound.1 * 512 := by exact_mod_cast h'
    have e : (((y * 512 - v).natAbs : ℕ) : ℝ) = 512 * |(y : ℝ) - -tapSum terms| := by
      rw [Nat.cast_natAbs, Int.cast_abs]
      push_cast
      rw [rationalQuadrature_spec hidx hr, ← abs_of_pos (by norm_num : (0 : ℝ) < 512), ← abs_mul]
      congr 1
      rw [abs_of_pos (by norm_num : (0 : ℝ) < 512)]
      ring
    rw [Nat.cast_mul, e] at hc
    linarith

/-- Where an enclosure gives no verdict, its width reaches the bound. -/
theorem verdict_none {bound : Nat × Nat} {y : Int} {K : Nat} {b : Ball} {v : ℝ} (henc : b.Encloses K v)
    (h : b.verdict bound y K = none) : |(|(y : ℝ) - v| * bound.2 - bound.1)| * 2 ^ K ≤ 2 * b.r * bound.2 := by
  have hK : (0 : ℝ) < 2 ^ K := by positivity
  have h2 : (0 : ℝ) ≤ bound.2 := Nat.cast_nonneg _
  have hd : (((y * 2 ^ K - b.c).natAbs : ℕ) : ℝ) = |(y : ℝ) * 2 ^ K - b.c| := by
    rw [Nat.cast_natAbs, Int.cast_abs]; push_cast; rfl
  have hδ : |(y : ℝ) - v| * 2 ^ K = |(y : ℝ) * 2 ^ K - 2 ^ K * v| := by
    rw [← abs_of_pos hK, ← abs_mul, abs_of_pos hK]; congr 1; ring
  have hnear : |(|(y : ℝ) - v| * 2 ^ K - ((y * 2 ^ K - b.c).natAbs : ℕ))| ≤ b.r := by
    rw [hδ, hd]
    refine (abs_abs_sub_abs_le_abs_sub ..).trans ?_
    rw [Ball.Encloses] at henc
    have e : (y : ℝ) * 2 ^ K - 2 ^ K * v - (y * 2 ^ K - b.c) = b.c - 2 ^ K * v := by ring
    rw [e]
    exact henc
  rw [Ball.verdict] at h
  generalize (y * 2 ^ K - b.c).natAbs = d at *
  split at h
  · cases h
  · next h1 =>
    split at h
    · cases h
    · next h3 =>
      have h1' : (bound.1 : ℝ) * 2 ^ K < (d + b.r) * bound.2 := by exact_mod_cast not_le.mp h1
      have h3' : ((d : ℝ) - b.r) * bound.2 ≤ bound.1 * 2 ^ K := by
        have h4 : ((d - b.r : ℕ) : ℝ) * bound.2 ≤ bound.1 * 2 ^ K := by exact_mod_cast not_lt.mp h3
        have h5 : (d : ℝ) ≤ (d - b.r : ℕ) + b.r := by exact_mod_cast (by omega : d ≤ d - b.r + b.r)
        exact (mul_le_mul_of_nonneg_right (by linarith) h2).trans h4
      have e : |(|(y : ℝ) - v| * bound.2 - bound.1)| * 2 ^ K =
          |(|(y : ℝ) - v| * 2 ^ K - d) * bound.2 + (d * bound.2 - bound.1 * 2 ^ K)| := by
        rw [← abs_of_pos hK, ← abs_mul, abs_of_pos hK]; congr 1; ring
      rw [e]
      refine (abs_add_le ..).trans ?_
      rw [abs_mul, abs_of_nonneg h2]
      have h6 : |(d : ℝ) * bound.2 - bound.1 * 2 ^ K| ≤ b.r * bound.2 := by rw [abs_le]; constructor <;> linarith
      linarith [mul_le_mul_of_nonneg_right hnear h2]

/-- The last precision of the verdict ladder gives a verdict. -/
theorem verdict_decided {bound : Nat × Nat} {terms : List (Nat × Int)} {y : Int} {w : Nat} (hidx : TapIndices terms)
    (hnone : rationalQuadrature terms = none) (hden : 0 < bound.2) (hw : tapWeight terms ≤ 2 ^ w) (hw' : w ≤ 2107)
    (hy : y.natAbs ≤ 2 ^ w) :
    (quadratureBall (tapsAt (1100000 + 514 * (Nat.log2 bound.1 + Nat.log2 bound.2 + 2))) terms).verdict bound y
      (1100000 + 514 * (Nat.log2 bound.1 + Nat.log2 bound.2 + 2)) ≠ none := by
  obtain ⟨num, den⟩ := bound
  dsimp only at hden ⊢
  set s := Nat.log2 num + Nat.log2 den with hs
  set K := 1100000 + 514 * (s + 2) with hKdef
  intro h
  obtain ⟨henc, hr⟩ := quadratureBall_encloses (K := K) (by omega) hidx
  have hle := verdict_none henc h
  have hcast : ((tapWeight terms * (2 ^ 32 * (K + 1)) : ℕ) : ℝ) = tapWeight terms * (2 ^ 32 * (K + 1)) := by
    push_cast; ring
  rw [hr, hcast] at hle
  dsimp only at hle
  set v := -tapSum terms with hv
  -- the sizes, as powers of two
  have hdenr : (0 : ℝ) < den := by exact_mod_cast hden
  have hden2 : (den : ℝ) ≤ 2 ^ (s + 1) := by
    have h1 : den < 2 ^ (Nat.log2 den + 1) := Nat.lt_log2_self
    exact_mod_cast h1.le.trans (Nat.pow_le_pow_right (by omega) (by omega))
  have hnum2 : (num : ℝ) ≤ 2 ^ (s + 1) := by
    have h1 : num < 2 ^ (Nat.log2 num + 1) := Nat.lt_log2_self
    exact_mod_cast h1.le.trans (Nat.pow_le_pow_right (by omega) (by omega))
  have hwr : (tapWeight terms : ℝ) ≤ 2 ^ w := by exact_mod_cast hw
  have hyr : |(y : ℝ)| ≤ 2 ^ w := by
    have : ((y.natAbs : ℕ) : ℝ) ≤ 2 ^ w := by exact_mod_cast hy
    rwa [Nat.cast_natAbs, Int.cast_abs] at this
  have hK2 : (K : ℝ) + 1 ≤ 2 ^ (21 + s) := by
    have h1 : s < 2 ^ s := Nat.lt_two_pow_self
    have h2 : K + 1 ≤ 2 ^ (21 + s) := by rw [Nat.pow_add]; omega
    exact_mod_cast h2
  have hW0 : (0 : ℝ) ≤ tapWeight terms := Nat.cast_nonneg _
  have hone : (1 : ℝ) ≤ 2 ^ w := one_le_pow₀ (by norm_num)
  -- the gap at the bound
  set δ := |(|(y : ℝ) - v| * den - num)| with hδ
  have hgap : 1 ≤ 2 ^ 10 * δ * (2 ^ (s + w + 20) : ℝ) ^ 511 := by
    have key : ∀ b : ℤ, |(b : ℝ)| ≤ den * |(y : ℝ)| + num → 1 ≤ 2 ^ 10 * |(den : ℤ) * v - b| * (2 ^ (s + w + 20) : ℝ) ^ 511 := by
      intro b hb
      refine quadrature_gap hidx hnone (by exact_mod_cast hden.ne') ?_
      have e1 : |((den : ℤ) : ℝ)| = den := by rw [Int.cast_natCast, abs_of_pos hdenr]
      have e2 : (den : ℝ) * tapWeight terms ≤ 2 ^ (s + 1) * 2 ^ w := by gcongr
      have e3 : (den : ℝ) * |(y : ℝ)| ≤ 2 ^ (s + 1) * 2 ^ w := by gcongr
      have e4 : (num : ℝ) ≤ 2 ^ (s + 1) * 2 ^ w := hnum2.trans (le_mul_of_one_le_right (by positivity) hone)
      have e5 : (2 : ℝ) ^ (s + w + 20) = 2 ^ 19 * (2 ^ (s + 1) * 2 ^ w) := by
        rw [← pow_add, ← pow_add]; congr 1; omega
      rw [e1, e5]
      linarith
    rcases le_or_gt v y with hvy | hvy
    · have := key (den * y - num) (by
        push_cast
        refine (abs_sub ..).trans ?_
        rw [abs_mul, abs_of_pos hdenr, Nat.abs_cast])
      have e : |((den : ℤ) : ℝ) * v - ((den * y - num : ℤ) : ℝ)| = δ := by
        rw [hδ, abs_of_nonneg (by linarith : 0 ≤ (y : ℝ) - v), ← abs_neg]
        congr 1
        push_cast
        ring
      rwa [e] at this
    · have := key (den * y + num) (by
        push_cast
        refine (abs_add_le ..).trans ?_
        rw [abs_mul, abs_of_pos hdenr, Nat.abs_cast])
      have e : |((den : ℤ) : ℝ) * v - ((den * y + num : ℤ) : ℝ)| = δ := by
        rw [hδ, abs_of_neg (by linarith : (y : ℝ) - v < 0)]
        congr 1
        push_cast
        ring
      rwa [e] at this
  have hδ0 : 0 ≤ δ := abs_nonneg _
  have hlow : 1 ≤ 2 ^ (10 + (s + w + 20) * 511) * δ := by
    rw [pow_add, pow_mul, mul_right_comm]
    exact hgap
  have hδ' : 0 < δ := by
    rcases hδ0.lt_or_eq with h | h
    · exact h
    · rw [← h, mul_zero] at hlow; linarith
  have hbig : 2 * ((tapWeight terms : ℝ) * (2 ^ 32 * (K + 1))) * den ≤ 2 ^ (1 + (w + (32 + (21 + s))) + (s + 1)) := by
    calc 2 * ((tapWeight terms : ℝ) * (2 ^ 32 * (K + 1))) * den
        ≤ 2 ^ 1 * (2 ^ w * (2 ^ 32 * 2 ^ (21 + s))) * 2 ^ (s + 1) := by rw [pow_one]; gcongr
      _ = _ := by rw [← pow_add, ← pow_add, ← pow_add, ← pow_add]
  refine absurd hle (not_le.mpr ?_)
  calc 2 * ((tapWeight terms : ℝ) * (2 ^ 32 * (K + 1))) * den ≤ 2 ^ (1 + (w + (32 + (21 + s))) + (s + 1)) := hbig
    _ ≤ 2 ^ (1 + (w + (32 + (21 + s))) + (s + 1)) * (2 ^ (10 + (s + w + 20) * 511) * δ) :=
      le_mul_of_one_le_right (by positivity) hlow
    _ = δ * 2 ^ (1 + (w + (32 + (21 + s))) + (s + 1) + (10 + (s + w + 20) * 511)) := by
      rw [← mul_assoc, ← pow_add, mul_comm]
    _ < δ * 2 ^ K := mul_lt_mul_of_pos_left (pow_lt_pow_right₀ (by norm_num) (by omega)) hδ'

/-- `accurateIm` takes exactly the answers within the bound of the quadrature sum. -/
theorem accurateIm_iff {bound : Nat × Nat} {terms : List (Nat × Int)} {y : Int} {w : Nat} (hidx : TapIndices terms)
    (hden : 0 < bound.2) (hw : tapWeight terms ≤ 2 ^ w) (hw' : w ≤ 2107) (hy : y.natAbs ≤ 2 ^ w) :
    accurateIm bound terms y = true ↔ |(y : ℝ) - -tapSum terms| * bound.2 ≤ bound.1 := by
  refine ⟨accurateIm_sound hidx, fun h => ?_⟩
  rw [accurateIm]
  rcases hr : rationalQuadrature terms with _ | v
  · dsimp only
    rcases hf : (verdictLadder bound).findSome? fun K => (quadratureBall (tapsAt K) terms).verdict bound y K with _ | t
    · exact absurd (List.findSome?_eq_none_iff.mp hf _ (by simp [verdictLadder])) (verdict_decided hidx hr hden hw hw' hy)
    · obtain ⟨K, hK, hv⟩ := List.exists_of_findSome?_eq_some hf
      have h192 : 192 ≤ K := by
        simp only [verdictLadder, List.mem_cons, List.not_mem_nil, or_false] at hK
        omega
      exact (verdict_spec (quadratureBall_encloses h192 hidx).1 hv).mpr h
  · refine decide_eq_true ?_
    have e : (((y * 512 - v).natAbs : ℕ) : ℝ) = 512 * |(y : ℝ) - -tapSum terms| := by
      rw [Nat.cast_natAbs, Int.cast_abs]
      push_cast
      rw [rationalQuadrature_spec hidx hr, ← abs_of_pos (by norm_num : (0 : ℝ) < 512), ← abs_mul]
      congr 1
      rw [abs_of_pos (by norm_num : (0 : ℝ) < 512)]
      ring
    have hc : ((((y * 512 - v).natAbs * bound.2 : ℕ)) : ℝ) ≤ ((bound.1 * 512 : ℕ) : ℝ) := by
      rw [Nat.cast_mul, e]
      push_cast
      linarith
    exact_mod_cast hc

end Sys2Proof.Machine
end

