-- ==== Sys2Proof/Laws/PerInstr.lean ====
section
/-! SUPPORT. Facts about every command as syntax, one lemma for each constructor: the word a well-formed command encodes to
meets the match and mask of its own row of the opcode map (spec/30_encoding.md R92). -/

namespace Sys2Proof

/-- The opcode of a command (R92). -/
def opcodeOf : Instr → Nat
  | .nop => 0
  | .reset _ => 1
  | .setShift _ => 2
  | .setGain _ => 3
  | .process _ => 4

/-- The word of PROCESS as a number. -/
theorem encode_process_toNat (n : Nat) (h : n < 65536) : (encode (.process n)).toNat = 0x40000000 + n := by
  have hor : (4 <<< 28 : Nat) ||| n = 4 <<< 28 + n := (Nat.shiftLeft_add_eq_or_of_lt (i := 28) (by omega) 4).symm
  simp only [encode, BitVec.toNat_or, BitVec.toNat_ofNat, Nat.mod_eq_of_lt (show n < 2 ^ 32 by omega)]
  exact hor

theorem opcField_process (n : Nat) (h : n < 65536) : opcField (encode (.process n)) = 4 := by
  rw [opcField, BitVec.extractLsb'_toNat, encode_process_toNat n h, Nat.shiftRight_eq_div_pow]
  omega

theorem mask_process (n : Nat) (h : n < 65536) : encode (.process n) &&& 0xFFFF0000#32 = 0x40000000#32 := by
  apply BitVec.eq_of_toNat_eq
  rw [BitVec.toNat_and, encode_process_toNat n h]
  have e1 : (0xFFFF0000#32).toNat = (2 ^ 16 - 1) <<< 16 := rfl
  have e2 : 0x40000000 + n = 0x4000 <<< 16 ||| n := Nat.shiftLeft_add_eq_or_of_lt (i := 16) (by omega) 0x4000
  rw [e1, e2]
  apply Nat.eq_of_testBit_eq
  intro i
  have e3 : (0x40000000#32).toNat = 0x4000 <<< 16 := rfl
  rw [e3]
  simp only [Nat.testBit_and, Nat.testBit_or, Nat.testBit_shiftLeft, Nat.testBit_two_pow_sub_one]
  by_cases hi : 16 ≤ i
  · have hn : n.testBit i = false := Nat.testBit_lt_two_pow (lt_of_lt_of_le (show n < 2 ^ 16 from h) (Nat.pow_le_pow_right (by omega) hi))
    by_cases h2 : i - 16 < 16
    · simp [hi, hn, h2]
    · have h3 : Nat.testBit 0x4000 (i - 16) = false :=
        Nat.testBit_lt_two_pow (lt_of_lt_of_le (by omega : 0x4000 < 2 ^ 16) (Nat.pow_le_pow_right (n := 2) (by omega) (by omega)))
      simp [hn, h2, h3]
  · simp [hi]

end Sys2Proof

namespace Sys2Proof.Laws.Encoding

/-- A well-formed command's word has its own opcode, and spells a command by R92's test. -/
def Statement (i : Instr) : Prop :=
  i.WellFormed → opcField (encode i) = opcodeOf i ∧ encode i &&& opcMask (opcodeOf i) = opcMatch (opcodeOf i)

theorem nop : Statement .nop := fun _ => by decide

theorem reset (nch : Nat) : Statement (.reset nch) := by
  intro h
  replace h : nch < 32 := of_decide_eq_true h
  revert nch
  decide

theorem setShift (dir : Dir) : Statement (.setShift dir) := fun _ => by cases dir <;> decide

theorem setGain (ch : Nat) : Statement (.setGain ch) := by
  intro h
  replace h : ch < 32 := of_decide_eq_true h
  revert ch
  decide

theorem process (n : Nat) : Statement (.process n) := by
  intro h
  replace h : n < 65536 := of_decide_eq_true h
  have hmask : opcMask 4 = 0xFFFF0000#32 := by decide
  have hmatch : opcMatch 4 = 0x40000000#32 := by decide
  rw [opcodeOf, hmask, hmatch]
  exact ⟨opcField_process n h, mask_process n h⟩

end Sys2Proof.Laws.Encoding
end

