-- ==== Sys2Proof/Laws/Pipeline.lean ====
section
/-! SUPPORT. What the sub-steps of a PROCESS leave unchanged (spec/41_overlap_add.md R144; spec/43_modulator_mixer.md R181,
R187), the entries of the arrays they build, and what a push depends on. -/

namespace Sys2Proof.Machine

open Sys2Proof Sys2Proof.Config

/-! ## Entries -/

theorem window_entry (p : Params) (step k : Nat) (u : Instance) (j : Nat) (h : j < 1024) :
    cget (window p step k u).analytic j =
      ⟨mul64 ⟨step, .windowMul, k, j⟩ (to64 ⟨step, .windowWiden, k, j⟩ (u.inputRing.getD j 0)) (wread p.window j), 0⟩ :=
  (cget_tabulate ..).trans (if_pos h)

theorem accumulate_entry (p : Params) (step k : Nat) (u : Instance) (j : Nat) :
    cget (accumulate p step k u).accum j =
      if j < 1024 then accumulateEntry p step k j (cget u.accum j) (cget u.analytic j)
      else if j < 2048 then cget u.accum j else C64.zero := by
  simp only [accumulate, cget_tabulate]
  split <;> split <;> first | rfl | omega

theorem outStageStep_entry (u : Instance) (j : Nat) :
    cget (outStageStep u).outStage j =
      if j < 256 then cget u.accum j else if j < 1024 then cget u.outStage j else C64.zero := by
  simp only [outStageStep, cget_tabulate]
  split <;> split <;> first | rfl | omega

theorem accShift_entry (u : Instance) (j : Nat) :
    cget (accShift u).accum j = if j + 256 ≤ 2047 then cget u.accum (j + 256) else C64.zero := by
  simp only [accShift, cget_tabulate]
  split <;> split <;> first | rfl | omega

theorem ringShift_entry (u : Instance) (j : Nat) (h : j < 1024) :
    (ringShift u).inputRing.getD j 0 =
      if j < 768 then u.inputRing.getD (j + 256) 0 else u.inputRing.getD j 0 := by
  simp only [ringShift, getD_tabulate, if_pos h]

/-! ## Sizes -/

@[simp] theorem length_window (p : Params) (step k : Nat) (u : Instance) : (window p step k u).analytic.length = 1024 :=
  length_tabulate ..

@[simp] theorem length_accumulate (p : Params) (step k : Nat) (u : Instance) :
    (accumulate p step k u).accum.length = 2048 := length_tabulate ..

@[simp] theorem length_outStageStep (u : Instance) : (outStageStep u).outStage.length = 1024 := length_tabulate ..

@[simp] theorem length_accShift (u : Instance) : (accShift u).accum.length = 2048 := length_tabulate ..

@[simp] theorem length_ringShift (u : Instance) : (ringShift u).inputRing.length = 1024 := length_tabulate ..

@[simp] theorem length_hilbertFinite (b : List C64) : (hilbertFinite b).length = 1024 := length_tabulate ..

@[simp] theorem length_nanBlock (step k : Nat) : (nanBlock step k).length = 1024 := length_tabulate ..

/-- Shape (spec/42_hilbert.md R164 (5)), for every implementation. -/
@[simp] theorem length_hilbert (p : Params) (step k : Nat) (b : List C64) : (hilbert p step k b).length = 1024 := by
  unfold hilbert
  split
  · cases p.hilbert with
    | reference => simp
    | other id =>
      by_cases h : hilbertAccepts p b (rawHilbert id (tabulate 1024 fun n => (b.getD n C64.zero).re)) = true
      · simp only [h, if_true]
        simp only [hilbertAccepts, Bool.and_eq_true, beq_iff_eq] at h
        exact h.1
      · simp only [if_neg h, length_hilbertFinite]
  · simp

/-! ## The boundary -/

/-- A push either stops before the boundary, or runs it (spec/41_overlap_add.md R131). -/
theorem pushValue_cases (p : Params) (step k : Nat) (x : F32) (u : Instance) :
    (u.count + 1 ≠ 1024 ∧ pushValue p step k x u = pushSample k x u) ∨
    (u.count + 1 = 1024 ∧ pushValue p step k x u = boundary p step k (pushSample k x u)) := by
  by_cases h : u.count + 1 = 1024
  · exact .inr ⟨h, if_pos h⟩
  · exact .inl ⟨h, if_neg h⟩

/-- The cursor after one push. -/
theorem push_count (p : Params) (step k : Nat) (u : Instance) :
    (push p step k u).count = if u.count + 1 = 1024 then 768 else u.count + 1 := by
  obtain ⟨h, e⟩ | ⟨h, e⟩ := pushValue_cases p step k (Memory.sample u.mem (inAddr k)) u <;> simp [push, e, h]

/-- The real and imaginary entries a boundary leaves in the accumulator. -/
theorem boundary_accum (p : Params) (step k : Nat) (u : Instance) (j : Nat) :
    cget (boundary p step k u).accum j =
      if j + 256 ≤ 2047 then
        cget (accumulate p step k (hilbertStep p step k (window p step k { u with count := 768 }))).accum (j + 256)
      else C64.zero :=
  accShift_entry _ j

/-- The entries a boundary leaves in the output stage. -/
theorem boundary_outStage (p : Params) (step k : Nat) (u : Instance) (j : Nat) :
    cget (boundary p step k u).outStage j =
      if j < 256 then
        cget (accumulate p step k (hilbertStep p step k (window p step k { u with count := 768 }))).accum j
      else if j < 1024 then cget u.outStage j else C64.zero :=
  outStageStep_entry _ j

/-- The entries a boundary leaves in the input ring. -/
theorem boundary_inputRing (p : Params) (step k : Nat) (u : Instance) (j : Nat) (h : j < 1024) :
    (boundary p step k u).inputRing.getD j 0 =
      if j < 768 then u.inputRing.getD (j + 256) 0 else u.inputRing.getD j 0 :=
  ringShift_entry _ j h

/-! ## Frames -/

@[simp] theorem push_rawOut (p : Params) (step k : Nat) (u : Instance) : (push p step k u).rawOut = u.rawOut := by
  obtain ⟨_, e⟩ | ⟨_, e⟩ := pushValue_cases p step k (Memory.sample u.mem (inAddr k)) u <;> rw [push, e] <;> rfl
@[simp] theorem push_fracFreq (p : Params) (step k : Nat) (u : Instance) : (push p step k u).fracFreq = u.fracFreq := by
  obtain ⟨_, e⟩ | ⟨_, e⟩ := pushValue_cases p step k (Memory.sample u.mem (inAddr k)) u <;> rw [push, e] <;> rfl
@[simp] theorem push_inc (p : Params) (step k : Nat) (u : Instance) : (push p step k u).inc = u.inc := by
  obtain ⟨_, e⟩ | ⟨_, e⟩ := pushValue_cases p step k (Memory.sample u.mem (inAddr k)) u <;> rw [push, e] <;> rfl
@[simp] theorem push_sign (p : Params) (step k : Nat) (u : Instance) : (push p step k u).sign = u.sign := by
  obtain ⟨_, e⟩ | ⟨_, e⟩ := pushValue_cases p step k (Memory.sample u.mem (inAddr k)) u <;> rw [push, e] <;> rfl
@[simp] theorem push_current (p : Params) (step k : Nat) (u : Instance) : (push p step k u).current = u.current := by
  obtain ⟨_, e⟩ | ⟨_, e⟩ := pushValue_cases p step k (Memory.sample u.mem (inAddr k)) u <;> rw [push, e] <;> rfl
@[simp] theorem push_target (p : Params) (step k : Nat) (u : Instance) : (push p step k u).target = u.target := by
  obtain ⟨_, e⟩ | ⟨_, e⟩ := pushValue_cases p step k (Memory.sample u.mem (inAddr k)) u <;> rw [push, e] <;> rfl
@[simp] theorem push_nch (p : Params) (step k : Nat) (u : Instance) : (push p step k u).nch = u.nch := by
  obtain ⟨_, e⟩ | ⟨_, e⟩ := pushValue_cases p step k (Memory.sample u.mem (inAddr k)) u <;> rw [push, e] <;> rfl
@[simp] theorem push_status (p : Params) (step k : Nat) (u : Instance) : (push p step k u).status = u.status := by
  obtain ⟨_, e⟩ | ⟨_, e⟩ := pushValue_cases p step k (Memory.sample u.mem (inAddr k)) u <;> rw [push, e] <;> rfl
@[simp] theorem push_freqLo (p : Params) (step k : Nat) (u : Instance) : (push p step k u).freqLo = u.freqLo := by
  obtain ⟨_, e⟩ | ⟨_, e⟩ := pushValue_cases p step k (Memory.sample u.mem (inAddr k)) u <;> rw [push, e] <;> rfl
@[simp] theorem push_freqHi (p : Params) (step k : Nat) (u : Instance) : (push p step k u).freqHi = u.freqHi := by
  obtain ⟨_, e⟩ | ⟨_, e⟩ := pushValue_cases p step k (Memory.sample u.mem (inAddr k)) u <;> rw [push, e] <;> rfl
@[simp] theorem push_gainData (p : Params) (step k : Nat) (u : Instance) : (push p step k u).gainData = u.gainData := by
  obtain ⟨_, e⟩ | ⟨_, e⟩ := pushValue_cases p step k (Memory.sample u.mem (inAddr k)) u <;> rw [push, e] <;> rfl
@[simp] theorem push_pcmd (p : Params) (step k : Nat) (u : Instance) : (push p step k u).pcmd = u.pcmd := by
  obtain ⟨_, e⟩ | ⟨_, e⟩ := pushValue_cases p step k (Memory.sample u.mem (inAddr k)) u <;> rw [push, e] <;> rfl
@[simp] theorem push_pfreq (p : Params) (step k : Nat) (u : Instance) : (push p step k u).pfreq = u.pfreq := by
  obtain ⟨_, e⟩ | ⟨_, e⟩ := pushValue_cases p step k (Memory.sample u.mem (inAddr k)) u <;> rw [push, e] <;> rfl
@[simp] theorem push_pgain (p : Params) (step k : Nat) (u : Instance) : (push p step k u).pgain = u.pgain := by
  obtain ⟨_, e⟩ | ⟨_, e⟩ := pushValue_cases p step k (Memory.sample u.mem (inAddr k)) u <;> rw [push, e] <;> rfl
@[simp] theorem push_mem (p : Params) (step k : Nat) (u : Instance) : (push p step k u).mem = u.mem := by
  obtain ⟨_, e⟩ | ⟨_, e⟩ := pushValue_cases p step k (Memory.sample u.mem (inAddr k)) u <;> rw [push, e] <;> rfl
@[simp] theorem push_delay (p : Params) (step k : Nat) (u : Instance) : (push p step k u).delay = u.delay := by
  obtain ⟨_, e⟩ | ⟨_, e⟩ := pushValue_cases p step k (Memory.sample u.mem (inAddr k)) u <;> rw [push, e] <;> rfl

@[simp] theorem pushPhase_rawOut (p : Params) (step n : Nat) (u : Instance) : (pushPhase p step n u).rawOut = u.rawOut := forUp_frame (f := push p step) Instance.rawOut (fun k y => push_rawOut p step k y) n u
@[simp] theorem pushPhase_fracFreq (p : Params) (step n : Nat) (u : Instance) : (pushPhase p step n u).fracFreq = u.fracFreq := forUp_frame (f := push p step) Instance.fracFreq (fun k y => push_fracFreq p step k y) n u
@[simp] theorem pushPhase_inc (p : Params) (step n : Nat) (u : Instance) : (pushPhase p step n u).inc = u.inc := forUp_frame (f := push p step) Instance.inc (fun k y => push_inc p step k y) n u
@[simp] theorem pushPhase_sign (p : Params) (step n : Nat) (u : Instance) : (pushPhase p step n u).sign = u.sign := forUp_frame (f := push p step) Instance.sign (fun k y => push_sign p step k y) n u
@[simp] theorem pushPhase_current (p : Params) (step n : Nat) (u : Instance) : (pushPhase p step n u).current = u.current := forUp_frame (f := push p step) Instance.current (fun k y => push_current p step k y) n u
@[simp] theorem pushPhase_target (p : Params) (step n : Nat) (u : Instance) : (pushPhase p step n u).target = u.target := forUp_frame (f := push p step) Instance.target (fun k y => push_target p step k y) n u
@[simp] theorem pushPhase_nch (p : Params) (step n : Nat) (u : Instance) : (pushPhase p step n u).nch = u.nch := forUp_frame (f := push p step) Instance.nch (fun k y => push_nch p step k y) n u
@[simp] theorem pushPhase_status (p : Params) (step n : Nat) (u : Instance) : (pushPhase p step n u).status = u.status := forUp_frame (f := push p step) Instance.status (fun k y => push_status p step k y) n u
@[simp] theorem pushPhase_freqLo (p : Params) (step n : Nat) (u : Instance) : (pushPhase p step n u).freqLo = u.freqLo := forUp_frame (f := push p step) Instance.freqLo (fun k y => push_freqLo p step k y) n u
@[simp] theorem pushPhase_freqHi (p : Params) (step n : Nat) (u : Instance) : (pushPhase p step n u).freqHi = u.freqHi := forUp_frame (f := push p step) Instance.freqHi (fun k y => push_freqHi p step k y) n u
@[simp] theorem pushPhase_gainData (p : Params) (step n : Nat) (u : Instance) : (pushPhase p step n u).gainData = u.gainData := forUp_frame (f := push p step) Instance.gainData (fun k y => push_gainData p step k y) n u
@[simp] theorem pushPhase_pcmd (p : Params) (step n : Nat) (u : Instance) : (pushPhase p step n u).pcmd = u.pcmd := forUp_frame (f := push p step) Instance.pcmd (fun k y => push_pcmd p step k y) n u
@[simp] theorem pushPhase_pfreq (p : Params) (step n : Nat) (u : Instance) : (pushPhase p step n u).pfreq = u.pfreq := forUp_frame (f := push p step) Instance.pfreq (fun k y => push_pfreq p step k y) n u
@[simp] theorem pushPhase_pgain (p : Params) (step n : Nat) (u : Instance) : (pushPhase p step n u).pgain = u.pgain := forUp_frame (f := push p step) Instance.pgain (fun k y => push_pgain p step k y) n u
@[simp] theorem pushPhase_mem (p : Params) (step n : Nat) (u : Instance) : (pushPhase p step n u).mem = u.mem := forUp_frame (f := push p step) Instance.mem (fun k y => push_mem p step k y) n u
@[simp] theorem pushPhase_delay (p : Params) (step n : Nat) (u : Instance) : (pushPhase p step n u).delay = u.delay := forUp_frame (f := push p step) Instance.delay (fun k y => push_delay p step k y) n u

@[simp] theorem modulatePhase_inputRing (p : Params) (step n : Nat) (u : Instance) : (modulatePhase p step n u).inputRing = u.inputRing := forUp_frame (f := modulate p step) Instance.inputRing (fun _ _ => rfl) n u
@[simp] theorem modulatePhase_count (p : Params) (step n : Nat) (u : Instance) : (modulatePhase p step n u).count = u.count := forUp_frame (f := modulate p step) Instance.count (fun _ _ => rfl) n u
@[simp] theorem modulatePhase_analytic (p : Params) (step n : Nat) (u : Instance) : (modulatePhase p step n u).analytic = u.analytic := forUp_frame (f := modulate p step) Instance.analytic (fun _ _ => rfl) n u
@[simp] theorem modulatePhase_accum (p : Params) (step n : Nat) (u : Instance) : (modulatePhase p step n u).accum = u.accum := forUp_frame (f := modulate p step) Instance.accum (fun _ _ => rfl) n u
@[simp] theorem modulatePhase_outStage (p : Params) (step n : Nat) (u : Instance) : (modulatePhase p step n u).outStage = u.outStage := forUp_frame (f := modulate p step) Instance.outStage (fun _ _ => rfl) n u
@[simp] theorem modulatePhase_outdata (p : Params) (step n : Nat) (u : Instance) : (modulatePhase p step n u).outdata = u.outdata := forUp_frame (f := modulate p step) Instance.outdata (fun _ _ => rfl) n u
@[simp] theorem modulatePhase_fracFreq (p : Params) (step n : Nat) (u : Instance) : (modulatePhase p step n u).fracFreq = u.fracFreq := forUp_frame (f := modulate p step) Instance.fracFreq (fun _ _ => rfl) n u
@[simp] theorem modulatePhase_sign (p : Params) (step n : Nat) (u : Instance) : (modulatePhase p step n u).sign = u.sign := forUp_frame (f := modulate p step) Instance.sign (fun _ _ => rfl) n u
@[simp] theorem modulatePhase_current (p : Params) (step n : Nat) (u : Instance) : (modulatePhase p step n u).current = u.current := forUp_frame (f := modulate p step) Instance.current (fun _ _ => rfl) n u
@[simp] theorem modulatePhase_target (p : Params) (step n : Nat) (u : Instance) : (modulatePhase p step n u).target = u.target := forUp_frame (f := modulate p step) Instance.target (fun _ _ => rfl) n u
@[simp] theorem modulatePhase_nch (p : Params) (step n : Nat) (u : Instance) : (modulatePhase p step n u).nch = u.nch := forUp_frame (f := modulate p step) Instance.nch (fun _ _ => rfl) n u
@[simp] theorem modulatePhase_status (p : Params) (step n : Nat) (u : Instance) : (modulatePhase p step n u).status = u.status := forUp_frame (f := modulate p step) Instance.status (fun _ _ => rfl) n u
@[simp] theorem modulatePhase_freqLo (p : Params) (step n : Nat) (u : Instance) : (modulatePhase p step n u).freqLo = u.freqLo := forUp_frame (f := modulate p step) Instance.freqLo (fun _ _ => rfl) n u
@[simp] theorem modulatePhase_freqHi (p : Params) (step n : Nat) (u : Instance) : (modulatePhase p step n u).freqHi = u.freqHi := forUp_frame (f := modulate p step) Instance.freqHi (fun _ _ => rfl) n u
@[simp] theorem modulatePhase_gainData (p : Params) (step n : Nat) (u : Instance) : (modulatePhase p step n u).gainData = u.gainData := forUp_frame (f := modulate p step) Instance.gainData (fun _ _ => rfl) n u
@[simp] theorem modulatePhase_pcmd (p : Params) (step n : Nat) (u : Instance) : (modulatePhase p step n u).pcmd = u.pcmd := forUp_frame (f := modulate p step) Instance.pcmd (fun _ _ => rfl) n u
@[simp] theorem modulatePhase_pfreq (p : Params) (step n : Nat) (u : Instance) : (modulatePhase p step n u).pfreq = u.pfreq := forUp_frame (f := modulate p step) Instance.pfreq (fun _ _ => rfl) n u
@[simp] theorem modulatePhase_pgain (p : Params) (step n : Nat) (u : Instance) : (modulatePhase p step n u).pgain = u.pgain := forUp_frame (f := modulate p step) Instance.pgain (fun _ _ => rfl) n u
@[simp] theorem modulatePhase_mem (p : Params) (step n : Nat) (u : Instance) : (modulatePhase p step n u).mem = u.mem := forUp_frame (f := modulate p step) Instance.mem (fun _ _ => rfl) n u
@[simp] theorem modulatePhase_delay (p : Params) (step n : Nat) (u : Instance) : (modulatePhase p step n u).delay = u.delay := forUp_frame (f := modulate p step) Instance.delay (fun _ _ => rfl) n u

@[simp] theorem mixPhase_inputRing (step n nch : Nat) (u : Instance) : (mixPhase step n nch u).inputRing = u.inputRing := forUp_frame (f := mix step n) Instance.inputRing (fun _ _ => rfl) nch u
@[simp] theorem mixPhase_count (step n nch : Nat) (u : Instance) : (mixPhase step n nch u).count = u.count := forUp_frame (f := mix step n) Instance.count (fun _ _ => rfl) nch u
@[simp] theorem mixPhase_analytic (step n nch : Nat) (u : Instance) : (mixPhase step n nch u).analytic = u.analytic := forUp_frame (f := mix step n) Instance.analytic (fun _ _ => rfl) nch u
@[simp] theorem mixPhase_accum (step n nch : Nat) (u : Instance) : (mixPhase step n nch u).accum = u.accum := forUp_frame (f := mix step n) Instance.accum (fun _ _ => rfl) nch u
@[simp] theorem mixPhase_outStage (step n nch : Nat) (u : Instance) : (mixPhase step n nch u).outStage = u.outStage := forUp_frame (f := mix step n) Instance.outStage (fun _ _ => rfl) nch u
@[simp] theorem mixPhase_outdata (step n nch : Nat) (u : Instance) : (mixPhase step n nch u).outdata = u.outdata := forUp_frame (f := mix step n) Instance.outdata (fun _ _ => rfl) nch u
@[simp] theorem mixPhase_rawOut (step n nch : Nat) (u : Instance) : (mixPhase step n nch u).rawOut = u.rawOut := forUp_frame (f := mix step n) Instance.rawOut (fun _ _ => rfl) nch u
@[simp] theorem mixPhase_fracFreq (step n nch : Nat) (u : Instance) : (mixPhase step n nch u).fracFreq = u.fracFreq := forUp_frame (f := mix step n) Instance.fracFreq (fun _ _ => rfl) nch u
@[simp] theorem mixPhase_inc (step n nch : Nat) (u : Instance) : (mixPhase step n nch u).inc = u.inc := forUp_frame (f := mix step n) Instance.inc (fun _ _ => rfl) nch u
@[simp] theorem mixPhase_sign (step n nch : Nat) (u : Instance) : (mixPhase step n nch u).sign = u.sign := forUp_frame (f := mix step n) Instance.sign (fun _ _ => rfl) nch u
@[simp] theorem mixPhase_target (step n nch : Nat) (u : Instance) : (mixPhase step n nch u).target = u.target := forUp_frame (f := mix step n) Instance.target (fun _ _ => rfl) nch u
@[simp] theorem mixPhase_nch (step n nch : Nat) (u : Instance) : (mixPhase step n nch u).nch = u.nch := forUp_frame (f := mix step n) Instance.nch (fun _ _ => rfl) nch u
@[simp] theorem mixPhase_status (step n nch : Nat) (u : Instance) : (mixPhase step n nch u).status = u.status := forUp_frame (f := mix step n) Instance.status (fun _ _ => rfl) nch u
@[simp] theorem mixPhase_freqLo (step n nch : Nat) (u : Instance) : (mixPhase step n nch u).freqLo = u.freqLo := forUp_frame (f := mix step n) Instance.freqLo (fun _ _ => rfl) nch u
@[simp] theorem mixPhase_freqHi (step n nch : Nat) (u : Instance) : (mixPhase step n nch u).freqHi = u.freqHi := forUp_frame (f := mix step n) Instance.freqHi (fun _ _ => rfl) nch u
@[simp] theorem mixPhase_gainData (step n nch : Nat) (u : Instance) : (mixPhase step n nch u).gainData = u.gainData := forUp_frame (f := mix step n) Instance.gainData (fun _ _ => rfl) nch u
@[simp] theorem mixPhase_pcmd (step n nch : Nat) (u : Instance) : (mixPhase step n nch u).pcmd = u.pcmd := forUp_frame (f := mix step n) Instance.pcmd (fun _ _ => rfl) nch u
@[simp] theorem mixPhase_pfreq (step n nch : Nat) (u : Instance) : (mixPhase step n nch u).pfreq = u.pfreq := forUp_frame (f := mix step n) Instance.pfreq (fun _ _ => rfl) nch u
@[simp] theorem mixPhase_pgain (step n nch : Nat) (u : Instance) : (mixPhase step n nch u).pgain = u.pgain := forUp_frame (f := mix step n) Instance.pgain (fun _ _ => rfl) nch u
@[simp] theorem mixPhase_delay (step n nch : Nat) (u : Instance) : (mixPhase step n nch u).delay = u.delay := forUp_frame (f := mix step n) Instance.delay (fun _ _ => rfl) nch u

@[simp] theorem processBlock_fracFreq (p : Params) (step n : Nat) (u : Instance) : (processBlock p step n u).fracFreq = u.fracFreq := by simp [processBlock]
@[simp] theorem processBlock_sign (p : Params) (step n : Nat) (u : Instance) : (processBlock p step n u).sign = u.sign := by simp [processBlock]
@[simp] theorem processBlock_target (p : Params) (step n : Nat) (u : Instance) : (processBlock p step n u).target = u.target := by simp [processBlock]
@[simp] theorem processBlock_nch (p : Params) (step n : Nat) (u : Instance) : (processBlock p step n u).nch = u.nch := by simp [processBlock]
@[simp] theorem processBlock_status (p : Params) (step n : Nat) (u : Instance) : (processBlock p step n u).status = u.status := by simp [processBlock]
@[simp] theorem processBlock_freqLo (p : Params) (step n : Nat) (u : Instance) : (processBlock p step n u).freqLo = u.freqLo := by simp [processBlock]
@[simp] theorem processBlock_freqHi (p : Params) (step n : Nat) (u : Instance) : (processBlock p step n u).freqHi = u.freqHi := by simp [processBlock]
@[simp] theorem processBlock_gainData (p : Params) (step n : Nat) (u : Instance) : (processBlock p step n u).gainData = u.gainData := by simp [processBlock]
@[simp] theorem processBlock_pcmd (p : Params) (step n : Nat) (u : Instance) : (processBlock p step n u).pcmd = u.pcmd := by simp [processBlock]
@[simp] theorem processBlock_pfreq (p : Params) (step n : Nat) (u : Instance) : (processBlock p step n u).pfreq = u.pfreq := by simp [processBlock]
@[simp] theorem processBlock_pgain (p : Params) (step n : Nat) (u : Instance) : (processBlock p step n u).pgain = u.pgain := by simp [processBlock]
@[simp] theorem processBlock_delay (p : Params) (step n : Nat) (u : Instance) : (processBlock p step n u).delay = u.delay := by simp [processBlock]

/-! ## What a PROCESS leaves of the push phase, and what it does not touch -/

@[simp] theorem processBlock_count (p : Params) (step n : Nat) (u : Instance) :
    (processBlock p step n u).count = (pushPhase p step n u).count := by simp [processBlock]
@[simp] theorem processBlock_inputRing (p : Params) (step n : Nat) (u : Instance) :
    (processBlock p step n u).inputRing = (pushPhase p step n u).inputRing := by simp [processBlock]
@[simp] theorem processBlock_analytic (p : Params) (step n : Nat) (u : Instance) :
    (processBlock p step n u).analytic = (pushPhase p step n u).analytic := by simp [processBlock]
@[simp] theorem processBlock_accum (p : Params) (step n : Nat) (u : Instance) :
    (processBlock p step n u).accum = (pushPhase p step n u).accum := by simp [processBlock]
@[simp] theorem processBlock_outStage (p : Params) (step n : Nat) (u : Instance) :
    (processBlock p step n u).outStage = (pushPhase p step n u).outStage := by simp [processBlock]
@[simp] theorem processBlock_outdata (p : Params) (step n : Nat) (u : Instance) :
    (processBlock p step n u).outdata = (pushPhase p step n u).outdata := by simp [processBlock]

theorem push_outdata (p : Params) (step k : Nat) (u : Instance) :
    (push p step k u).outdata = u.outdata.set k (cget u.outStage (u.count - 768)) := by
  rw [push]
  rcases pushValue_cases p step k (Memory.sample u.mem (inAddr k)) u with ⟨-, h⟩ | ⟨-, h⟩ <;> rw [h] <;> rfl

/-- A push phase writes only the elements of Outdata below its length. -/
theorem pushPhase_outdata_ge (p : Params) (step n j : Nat) (u : Instance) (hj : n ≤ j) :
    cget (pushPhase p step n u).outdata j = cget u.outdata j :=
  forUp_induction (f := push p step) (P := fun v => cget v.outdata j = cget u.outdata j) rfl fun k v hk h => by
    rw [push_outdata, cget_set, if_neg (by omega), h]

/-- A modulate phase writes only the elements of RawOut below its length. -/
theorem modulatePhase_rawOut_ge (p : Params) (step n j : Nat) (u : Instance) (hj : n ≤ j) :
    (modulatePhase p step n u).rawOut.getD j 0 = u.rawOut.getD j 0 :=
  forUp_induction (f := modulate p step) (P := fun v => v.rawOut.getD j 0 = u.rawOut.getD j 0) rfl fun k v hk h => by
    rw [modulate, getD_set, if_neg (by omega), h]

/-- A mix phase writes only the gains of its channels. -/
theorem mixPhase_current_ge (step n nch c : Nat) (u : Instance) (hc : nch ≤ c) :
    (mixPhase step n nch u).current.getD c 0 = u.current.getD c 0 :=
  forUp_induction (f := mix step n) (P := fun v => v.current.getD c 0 = u.current.getD c 0) rfl fun k v hk h => by
    rw [mix, getD_set, if_neg (by omega), h]

/-- A mix phase writes only the bytes of the output words it accumulates into. -/
theorem mixPhase_mem_outside (step n nch a : Nat) (u : Instance)
    (ha : ¬ ∃ c k, c < nch ∧ k < n ∧ outAddr c k ≤ a ∧ a ≤ outAddr c k + 3) :
    Memory.get (mixPhase step n nch u).mem a = Memory.get u.mem a :=
  forUp_induction (f := mix step n) (P := fun v => Memory.get v.mem a = Memory.get u.mem a) rfl fun c v hc h => by
    rw [mix, ← h]
    exact forUp_induction (f := mixSample step n c v) (P := fun m => Memory.get m a = Memory.get v.mem a) rfl
      fun k m hk h' => by
        rw [mixSample, Memory.get_setWord_ne _ _ fun hh => ha ⟨c, k, hc, hk, hh⟩, h']

/-! ## What a push depends on -/

theorem Instance.SamePipeline.rfl {u : Instance} : u.SamePipeline u := ⟨Eq.refl _, Eq.refl _, Eq.refl _, Eq.refl _⟩

theorem Instance.SamePipeline.trans {u v w : Instance} (h : u.SamePipeline v) (h' : v.SamePipeline w) : u.SamePipeline w :=
  ⟨h'.1.trans h.1, h'.2.1.trans h.2.1, h'.2.2.1.trans h.2.2.1, h'.2.2.2.trans h.2.2.2⟩

/-- A boundary depends on nothing but the pipeline. -/
theorem boundary_samePipeline (p : Params) (step k : Nat) {u v : Instance} (h : u.SamePipeline v) :
    (boundary p step k u).SamePipeline (boundary p step k v) := by
  obtain ⟨h1, -, h3, h4⟩ := h
  simp only [Instance.SamePipeline, boundary, window, hilbertStep, accumulate, outStageStep, accShift, ringShift, h1, h3, h4,
    and_self]

/-- A push depends on nothing but the pipeline, whatever its place in its PROCESS. -/
theorem pushValue_samePipeline (p : Params) (step k : Nat) (x : F32) {u v : Instance} (h : u.SamePipeline v) :
    (pushValue p step k x u).SamePipeline (pushValue p step k x v) := by
  have hs : (pushSample k x u).SamePipeline (pushSample k x v) := by
    obtain ⟨h1, h2, h3, h4⟩ := h
    simp only [Instance.SamePipeline, pushSample, h1, h2, h3, h4, and_self]
  have hc := hs.2.1
  simp only [pushValue, hc]
  split
  · exact boundary_samePipeline p step k hs
  · exact hs

end Sys2Proof.Machine
end

