-- ==== Sys2Proof/Laws/Trig.lean ====
section
/-! SUPPORT. The default sine and cosine meet R183, so every TRIG_IMPL of the model does: what `cos64` and `sin64` can answer
in the domain of R183. -/

namespace Sys2Proof.Machine

set_option Elab.async false

open Sys2Proof Sys2Proof.Config

/-! ## One rounding near the real value -/

/-- A number of magnitude at most `n` rounds to a magnitude at most that of `n` rounded. -/
theorem RoundsTo.natAbs_le {v : ℝ} {x : F64} {n c : ℕ} (h : RoundsTo v x) (hv : |v| ≤ n) (hc : Fmt.roundCode .b64 n 1 = c)
    (hfin : c < Fmt.infCode .b64) : (int64Of x).natAbs ≤ Fmt.magOf .b64 c := by
  obtain ⟨neg, code, hx, -, hcode⟩ := h
  have hle : code ≤ c := hc ▸ (hcode n 1 Nat.one_pos).2 (by rw [Nat.cast_one, mul_one]; exact hv)
  have hlt := hle.trans_lt hfin
  have hview : view64 x = .fin neg (Fmt.magOf .b64 code) := by
    rw [hx, view64, BitVec.toNat_ofNat, Nat.mod_eq_of_lt (withSign_lt64 _ _ hlt.le), view_withSign _ _ _ hlt.le, if_pos hlt]
  have e : (int64Of x).natAbs = Fmt.magOf .b64 code := by
    rw [int64Of, hview]; cases neg <;> simp [signed]
  rw [e]
  exact magOf_le .b64 _ _ hle

theorem roundInt64_roundsTo_units (e : ℤ) (K : ℕ) : RoundsTo (e / 2 ^ K * 2 ^ 1074) (roundInt64 e K) := by
  refine Ball.agreed_roundsTo (K := K) (b := ⟨e, 0⟩) ?_ (by rw [agreed_def]; simp)
  rw [Ball.Encloses, mul_div_cancel₀ _ (by positivity)]
  simp

/-- In units of which `2^143` are 1: a number within one unit of one in [-1, 1] is at most one unit above 1. -/
theorem scaled_le {U w v : ℝ} (hU : 1 ≤ U) (hv : |v| ≤ 1) (hd : |w - v| ≤ 1 / 2 ^ 143) :
    |w * (U * 2 ^ 143)| ≤ U * 2 ^ 143 + U := by
  have hw := abs_add_le (w - v) v
  rw [sub_add_cancel] at hw
  have hP : 0 ≤ U * 2 ^ 143 := by positivity
  rw [abs_mul, abs_of_nonneg hP]
  calc |w| * (U * 2 ^ 143) ≤ (1 + 1 / 2 ^ 143) * (U * 2 ^ 143) := mul_le_mul_of_nonneg_right (by linarith) hP
    _ = U * 2 ^ 143 + U := by ring

/-- Half a unit in the last place of such a number, and that one unit, are together below `2^-52`. -/
theorem scaled_near {U w v i : ℝ} (hU : 1 ≤ U) (hv : |v| ≤ 1) (hd : |w - v| ≤ 1 / 2 ^ 143)
    (herr : |i - w * (U * 2 ^ 143)| ≤ max (1 / 2) (|w * (U * 2 ^ 143)| / 2 ^ 53)) :
    |i - U * 2 ^ 143 * v| ≤ U * 2 ^ 91 := by
  have hP : 0 ≤ U * 2 ^ 143 := by positivity
  have h1 : max (1 / 2) (|w * (U * 2 ^ 143)| / 2 ^ 53) ≤ U * 2 ^ 90 + U := by
    refine max_le (by linarith) ?_
    rw [div_le_iff₀ (by norm_num)]
    linarith [scaled_le hU hv hd]
  have h2 : |(w - v) * (U * 2 ^ 143)| ≤ U := by
    rw [abs_mul, abs_of_nonneg hP]
    calc |w - v| * (U * 2 ^ 143) ≤ 1 / 2 ^ 143 * (U * 2 ^ 143) := mul_le_mul_of_nonneg_right hd hP
      _ = U := by ring
  have e : i - U * 2 ^ 143 * v = (i - w * (U * 2 ^ 143)) + (w - v) * (U * 2 ^ 143) := by ring
  rw [e]
  refine (abs_add_le ..).trans ((add_le_add (herr.trans h1) h2).trans ?_)
  linarith

theorem units_of_one : (2 : ℝ) ^ 1074 = 2 ^ 931 * 2 ^ 143 := by rw [← pow_add]

theorem one_le_units : (1 : ℝ) ≤ 2 ^ 931 := one_le_pow₀ (by norm_num)

/-- An integer within `2^49` units of a number in [-1, 1], at 192 places or more, rounds to what R183 allows for the number. -/
theorem trigNear_roundInt {K : ℕ} {e : ℤ} {v : ℝ} (hK : 192 ≤ K) (hv : |v| ≤ 1) (he : |(e : ℝ) - 2 ^ K * v| ≤ 2 ^ 49) :
    TrigNear (roundInt64 e K) v := by
  have hr := roundInt64_roundsTo_units e K
  have hK0 : (0 : ℝ) < 2 ^ K := by positivity
  have hd : |(e : ℝ) / 2 ^ K - v| ≤ 1 / 2 ^ 143 := by
    have h192 : (2 : ℝ) ^ 192 ≤ 2 ^ K := pow_le_pow_right₀ (by norm_num) hK
    have e1 : (e : ℝ) / 2 ^ K - v = (e - 2 ^ K * v) / 2 ^ K := by field_simp
    rw [e1, abs_div, abs_of_pos hK0, div_le_iff₀ hK0]
    linarith
  generalize (e : ℝ) / 2 ^ K = w at hr hd
  rw [units_of_one] at hr
  have hwP := scaled_le one_le_units hv hd
  have hbound : (int64Of (roundInt64 e K)).natAbs ≤ 2 ^ 1074 := by
    have hone : Fmt.roundCode .b64 (2 ^ 931 * 2 ^ 143 + 2 ^ 931) 1 = 0x3FF0000000000000 := by decide +kernel
    have hmag : Fmt.magOf .b64 0x3FF0000000000000 = 2 ^ 1074 := by decide +kernel
    rw [← hmag]
    refine hr.natAbs_le ?_ hone (by decide +kernel)
    rw [Nat.cast_add, Nat.cast_mul, Nat.cast_pow, Nat.cast_pow, Nat.cast_ofNat]
    exact hwP
  have hbig : |w * (2 ^ 931 * 2 ^ 143)| ≤ 2 ^ 2097 := by
    have hT : (2 : ℝ) ^ 2097 = 2 ^ 931 * 2 ^ 1166 := by rw [← pow_add]
    have h1166 : (2 : ℝ) ^ 144 ≤ 2 ^ 1166 := pow_le_pow_right₀ (by norm_num) (by norm_num)
    rw [hT]
    have hu := one_le_units
    generalize (2 : ℝ) ^ 931 = U at hu hwP ⊢
    refine hwP.trans (le_trans ?_ (mul_le_mul_of_nonneg_left h1166 (by linarith)))
    linarith
  obtain ⟨hfin, herr⟩ := hr.error hbig
  refine ⟨hfin, hbound, ?_⟩
  have hQ : (2 : ℝ) ^ 1022 = 2 ^ 931 * 2 ^ 91 := by rw [← pow_add]
  rw [units_of_one, hQ]
  exact scaled_near one_le_units hv hd herr

/-- A number rounded through enclosures that hold it is what R183 allows. -/
theorem trigNear_roundBall {enclose : ℕ → Ball} {v : ℝ} (hv : |v| ≤ 1)
    (h : ∀ K ∈ trigLadder, (enclose K).Encloses K v ∧ (enclose K).r = 2 ^ 48) : TrigNear (roundBall enclose trigLadder) v := by
  refine roundBall_induction (P := fun y => TrigNear y v) enclose trigLadder (by decide) fun K hK => ?_
  obtain ⟨henc, hr⟩ := h K hK
  have hK' : 192 ≤ K := by
    simp only [trigLadder, List.mem_cons, List.not_mem_nil, or_false] at hK; omega
  rw [Ball.Encloses, hr, abs_le] at henc
  rw [hr]
  push_cast at henc
  constructor <;> refine trigNear_roundInt hK' hv ?_ <;> push_cast <;> rw [abs_le] <;> constructor <;> linarith

/-! ## The default pair -/

theorem trigDomain_lt : 2 * int64Of twoPi64 < 13 * 2 ^ 1074 := by decide +kernel

/-- A number in the domain of R183 is a magnitude below 13. -/
theorem inTrigDomain_view {x : F64} (h : inTrigDomain x = true) :
    ∃ s m, view64 x = .fin s m ∧ (s = true → m = 0) ∧ int64Of x = m ∧ m < 13 * 2 ^ 1074 := by
  rw [inTrigDomain] at h
  rcases hv : view64 x with _ | s | ⟨s, m⟩ <;> rw [hv] at h <;> simp only [Bool.false_eq_true] at h
  rw [Bool.and_eq_true, decide_eq_true_iff] at h
  have hs : s = true → m = 0 := by rintro rfl; simpa using h.1
  refine ⟨s, m, rfl, hs, ?_, ?_⟩
  · rw [int64Of, hv]
    cases s
    · simp [signed]
    · simp [signed, hs rfl]
  · have := h.2.trans trigDomain_lt
    simp only [signed, Bool.false_eq_true, if_false] at this
    exact_mod_cast this

/-- Below `2^-28` the cosine is within 2^-52 of 1 and the sine within 2^-52 of its argument. -/
theorem tiny_trig {y : ℝ} (h0 : 0 ≤ y) (h : y ≤ 1 / 2 ^ 28) : |1 - Real.cos y| ≤ 1 / 2 ^ 52 ∧ |y - Real.sin y| ≤ 1 / 2 ^ 52 := by
  have h2 : y ^ 2 ≤ (1 / 2 ^ 28) ^ 2 := pow_le_pow_left₀ h0 h 2
  have h3 : y ^ 3 ≤ (1 / 2 ^ 28) ^ 3 := pow_le_pow_left₀ h0 h 3
  have c1 := Real.one_sub_sq_div_two_le_cos (x := y)
  have c2 := Real.cos_le_one y
  have s1 := Real.sin_le h0
  have s2 : y - y ^ 3 / 6 ≤ Real.sin y := by
    rcases h0.eq_or_lt with rfl | hpos
    · simp
    · exact (Real.sin_gt_sub_cube hpos).le
  norm_num at h2 h3
  constructor <;> rw [abs_le] <;> constructor <;> norm_num <;> linarith

theorem tinyMag_le {m : ℕ} (h : m < tinyMag) : (m : ℝ) / 2 ^ 1074 ≤ 1 / 2 ^ 28 := by
  have hP : (2 : ℝ) ^ 1074 = 2 ^ 1046 * 2 ^ 28 := by rw [← pow_add]
  have hm : (m : ℝ) ≤ ((2 ^ 1046 : ℕ) : ℝ) := Nat.cast_le.mpr h.le
  rw [Nat.cast_pow, Nat.cast_ofNat] at hm
  rw [hP, div_mul_eq_div_div]
  have hT : (0 : ℝ) < 2 ^ 1046 := pow_pos (by norm_num) _
  generalize (2 : ℝ) ^ 1046 = T at hm hT
  exact div_le_div_of_nonneg_right ((div_le_one hT).mpr hm) (by norm_num)

/-- A value of `n` smallest subnormals, `n` at most those of 1. -/
theorem trigNear_of_exact {x : F64} {n : ℕ} {v : ℝ} (hfin : isFinite64 x = true) (hx : int64Of x = n) (hn : n ≤ 2 ^ 1074)
    (h : |(n : ℝ) / 2 ^ 1074 - v| ≤ 1 / 2 ^ 52) : TrigNear x v := by
  refine ⟨hfin, by rw [hx]; exact hn, ?_⟩
  have hP : (2 : ℝ) ^ 1074 = 2 ^ 1022 * 2 ^ 52 := by rw [← pow_add]
  have hQ : (0 : ℝ) < 2 ^ 1022 := pow_pos (by norm_num) _
  rw [hx, Int.cast_natCast]
  rw [hP] at h ⊢
  generalize (2 : ℝ) ^ 1022 = Q at h hQ
  have e : (n : ℝ) - Q * 2 ^ 52 * v = Q * 2 ^ 52 * (n / (Q * 2 ^ 52) - v) := by field_simp
  rw [e, abs_mul, abs_of_pos (by positivity : 0 < Q * 2 ^ 52)]
  refine (mul_le_mul_of_nonneg_left h (by positivity)).trans (le_of_eq ?_)
  ring

/-- The default cosine in the domain of R183. -/
theorem cosRef_near (d : Draw) {x : F64} (h : inTrigDomain x = true) :
    TrigNear (cosRef d x) (Real.cos (int64Of x / 2 ^ 1074)) := by
  obtain ⟨s, m, hv, -, hi, hm⟩ := inTrigDomain_view h
  rw [hi, Int.cast_natCast, cosRef, hv]
  dsimp only
  split
  · next ht =>
    have h1 : int64Of one64 = (2 ^ 1074 : ℕ) := by decide +kernel
    refine trigNear_of_exact (by decide +kernel) h1 le_rfl ?_
    rw [Nat.cast_pow, Nat.cast_ofNat, div_self (pow_pos two_pos _).ne']
    exact (tiny_trig (div_nonneg (Nat.cast_nonneg _) (pow_pos two_pos _).le) (tinyMag_le ht)).1
  · refine trigNear_roundBall (Real.abs_cos_le_one _) fun K hK => ⟨?_, rfl⟩
    obtain ⟨hr, hy⟩ := reduceArg_small (K := K) hm
    simp only [trigLadder, List.mem_cons, List.not_mem_nil, or_false] at hK
    exact cosBall_encloses (by omega) (by omega) hr hy

/-- The default sine in the domain of R183. -/
theorem sinRef_near (d : Draw) {x : F64} (h : inTrigDomain x = true) :
    TrigNear (sinRef d x) (Real.sin (int64Of x / 2 ^ 1074)) := by
  obtain ⟨s, m, hv, hs, hi, hm⟩ := inTrigDomain_view h
  rw [hi, Int.cast_natCast, sinRef, hv]
  dsimp only
  split
  · next ht =>
    have hle : tinyMag ≤ 2 ^ 1074 := by decide +kernel
    exact trigNear_of_exact (by rw [isFinite64, hv]) hi (ht.le.trans hle)
      (tiny_trig (div_nonneg (Nat.cast_nonneg _) (pow_pos two_pos _).le) (tinyMag_le ht)).2
  · next ht =>
    obtain rfl : s = false := by
      cases s
      · rfl
      · exact absurd (hs rfl ▸ Nat.two_pow_pos 1046) ht
    refine trigNear_roundBall (Real.abs_sin_le_one _) fun K hK => ⟨?_, rfl⟩
    obtain ⟨hr, hy⟩ := reduceArg_small (K := K) hm
    simp only [trigLadder, List.mem_cons, List.not_mem_nil, or_false] at hK
    exact sinBall_encloses (by omega) (by omega) hr hy

/-- The default pair meets R183. -/
theorem trigRef_meets (d : Draw) : MeetsR183 (cosRef d) (sinRef d) := by
  refine ⟨?_, ?_, fun x h => ⟨cosRef_near d h, sinRef_near d h⟩⟩
  · have hv : view64 0 = .fin false 0 := by decide +kernel
    rw [cosRef, hv]; exact if_pos (Nat.two_pow_pos 1046)
  · have hv : view64 0 = .fin false 0 := by decide +kernel
    rw [sinRef, hv]; exact if_pos (Nat.two_pow_pos 1046)

/-- Every TRIG_IMPL meets R183. -/
theorem trig_meets (p : Impl) (d : Draw) : MeetsR183 (cos64 p d) (sin64 p d) := by
  have href := trigRef_meets d
  rcases p with _ | id
  · exact href
  · rcases h : trigPair id with _ | t
    · have e1 : cos64 (.other id) d = cosRef d := by funext x; rw [cos64, h]
      have e2 : sin64 (.other id) d = sinRef d := by funext x; rw [sin64, h]
      rw [e1, e2]; exact href
    · have e1 : cos64 (.other id) d = t.cos := by funext x; rw [cos64, h]
      have e2 : sin64 (.other id) d = t.sin := by funext x; rw [sin64, h]
      rw [e1, e2]; exact t.meets

end Sys2Proof.Machine
end

