-- ==== Sys2Proof/Tests/Slice0.lean ====
section
/-! SUPPORT. The model's own tests, each one step or one operation, with expected values from spec/95_test_vectors.md (the
section is named beside each) or from a rule; then the witnesses: for every obligation with hypotheses, a concrete state and
operands that meet all of them. -/

namespace Sys2Proof.Tests

set_option Elab.async false

open Sys2Proof Sys2Proof.Machine Sys2Proof.Config Sys2Proof.Claims

/-! ## Small states -/

/-- An instance after a successful RESET with `n` channels. -/
def ready (n : Nat) : Instance := resetInstance 1024 n (Instance.powerOn 1024)

/-- Power-on, then a successful RESET with `n` channels. -/
def readyState (n : Nat) : State := { State.reset with inst := ready n }

/-- The state after the step that runs the word `w`. -/
def after (w : Nat) (s : State) : Option State :=
  match step (s.withFetchWord 32 w) with
  | .next t => some t
  | _ => none

/-- The fault a step ends in. -/
def stopOf : Host.Outcome State Fault Refusal → Option Fault
  | .fault f => some f
  | _ => none

/-- STATUS after the step that runs the word `w`. -/
def statusAfter (w : Nat) (s : State) : Option Word := (after w s).map fun t => t.inst.status.word

/-- Two channels active and a frequency staged. -/
def withFreq (f : F64) : State :=
  { readyState 2 with inst := { ready 2 with freqLo := loHalf f, freqHi := hiHalf f } }

/-- Two channels active and a gain staged. -/
def withGain (g : F32) : State := { readyState 2 with inst := { ready 2 with gainData := g } }

/-- One channel active with target gain 1.0, and the words of a block of length 1 written: 0.5 in, 1.0 out. -/
def oneSample : State :=
  { readyState 1 with inst :=
      { ready 1 with
        target := (List.replicate 16 0).set 0 0x3F800000#32
        mem := Memory.setWord (Memory.setWord [] (inAddr 0) 0x3F000000#32) (outAddr 0 0) 0x3F800000#32 } }

/-! ## Well-formedness (spec/30_encoding.md R91) -/

theorem test_reset_32_is_ill_formed : (Instr.reset 32).wellFormed = false := by decide
theorem test_setGain_32_is_ill_formed : (Instr.setGain 32).wellFormed = false := by decide
theorem test_process_65536_is_ill_formed : (Instr.process 65536).wellFormed = false := by decide

/-! ## Decoding: words written out from the encodings of spec/30_encoding.md R92 -/

theorem test_decode_nop : decode 0b0000_000000000000_0000000000000000#32 = .cmd .nop := by decide
theorem test_decode_reset : decode 0b0001_000000000000_00000000000_10000#32 = .cmd (.reset 16) := by decide
theorem test_decode_setShift : decode 0b0010_000000000000_00000000000000_10#32 = .cmd (.setShift .down) := by decide
theorem test_decode_setGain : decode 0b0011_000000000000_00000000000_01101#32 = .cmd (.setGain 13) := by decide
theorem test_decode_process : decode 0b0100_000000000000_0000010000000001#32 = .cmd (.process 1025) := by decide
theorem test_decode_opcode_15 : decode 0xF0000000#32 = .illegalOpcode := by decide
theorem test_decode_reserved_opd : decode 0x00000001#32 = .reservedBits := by decide
theorem test_decodeTableWord : decodeTableWord 32 0x40000103 = some (.process 259) := by decide
theorem test_decodeTableWord_reserved : decodeTableWord 32 0x10010001 = none := by decide

/-! ## Errors recorded by an engine step (2.6) -/

theorem test_nop_before_init : statusAfter 0x00000000 State.reset = some 0x00000000#32 := by decide +kernel
theorem test_reset_0 : statusAfter 0x10000000 State.reset = some 0x00000404#32 := by decide +kernel
theorem test_reset_2 : (after 0x10000002 State.reset).map (fun t => (t.inst.status.word, t.inst.nch, t.inst.count))
    = some (0x00000001#32, 2, 768) := by decide +kernel
theorem test_illegal_opcode : statusAfter 0x50000000 State.reset = some 0x00000104#32 := by decide +kernel
theorem test_reserved_bit : statusAfter 0x10010001 State.reset = some 0x00000204#32 := by decide +kernel
theorem test_bad_dir_before_freq : statusAfter 0x20000003 (withFreq one64) = some 0x00000505#32 := by decide +kernel
theorem test_shift_down : (after 0x20000002 (withFreq half64)).map
    (fun t => (t.inst.status.word, t.inst.fracFreq, t.inst.sign)) = some (0x00000001#32, half64, 1) := by decide +kernel
theorem test_bad_gain : statusAfter 0x30000001 (withGain 0x7F800000#32) = some 0x00000805#32 := by decide +kernel
theorem test_negative_gain : (after 0x30000001 (withGain 0xBF000000#32)).map
    (fun t => (t.inst.status.word, t.inst.target.getD 1 0)) = some (0x00000001#32, 0xBF000000#32) := by decide +kernel
theorem test_second_error : (Status.record .badLength
    { init := true, busy := true, err := true, errMulti := false, fatal := false, errCode := 5 }).idle.word
    = 0x0000050D#32 := by decide
theorem test_clear_errors : (Status.write 0x4#32
    { init := true, busy := false, err := true, errMulti := true, fatal := false, errCode := 5 }).word
    = 0x00000001#32 := by decide

/-! ## PROCESS (P1; 2.2.1; 2.5.3) -/

theorem test_process_one_sample : (after 0x40000001 oneSample).map
    (fun t => (t.inst.count, t.inst.inputRing.getD 768 0, t.inst.current.getD 0 0, Memory.word t.inst.mem (outAddr 0 0)))
    = some (769, 0x3F000000#32, 0x3F800000#32, some 0x3F800000#32) := by decide +kernel
theorem test_process_unwritten : stopOf (step ((readyState 1).withFetchWord 32 0x40000001)) = some .unwrittenBuffer := by
  decide +kernel

/-! ## The pipeline's operations -/

/-- Vector 2.1: the scale of the window procedure, and a word of its table. -/
theorem test_window_scale : windowScale = 0x3F692845659D947D#64 := by decide +kernel
theorem test_window_2 : wread .reference 2 = 0x3F03C70ED07ACEFD#64 := by decide +kernel

/-- Vector 2.4.3, `inc` = 0.125: the rotated sample. -/
theorem test_rotate_eighth : rotate Params.default 0 0 0 0x3FC0000000000000#64 ⟨one64, one64⟩ = 0x3FB504F3#32 := by
  decide +kernel
/-- Vector 2.4.3, `inc` = 0.25, SIGN = 1. -/
theorem test_rotate_down : rotate Params.default 0 0 1 0x3FD0000000000000#64 ⟨0, one64⟩ = 0xBF800000#32 := by
  decide +kernel
/-- Vector 2.4.2: the third addition of RNE64(1/3) gives 1.0, and the next sample wraps to 0. -/
theorem test_phase_thirds : phaseSeq 0 0 0x3FD5555555555555#64 3 = one64 ∧
    phaseSeq 0 0 0x3FD5555555555555#64 7 = 0x3FD5555555555555#64 := by decide +kernel
/-- Vector 2.5.2: a ramp from 1.0 to 0.5 over 512 of 600 samples. -/
theorem test_mix_ramp : mixGain 0 0 1 600 0x3F800000#32 0x3F000000#32 = 0x3F7FC000#32 ∧
    mixGain 0 0 511 600 0x3F800000#32 0x3F000000#32 = 0x3F004000#32 ∧
    mixGain 0 0 512 600 0x3F800000#32 0x3F000000#32 = 0x3F000000#32 := by decide +kernel
/-- Vector 2.5.4: 1.0 + 0.5 * 0.75. -/
theorem test_mix_word : mixWord 0 0 3 4 0 0x3F800000#32 0x3F000000#32 0x3F800000#32 = 0x3FB00000#32 := by decide +kernel
/-- Vector 2.3.1: the tap seen at n = 511 of an impulse, and the +0.0 at an even n. -/
theorem test_hilbert_impulse : quadratureRef (tapsAt 320) (fun p => if p = 0 then 2 ^ 1074 else 0) 511
    = 0xBED922007F34AD0E#64 ∧
    quadratureRef (tapsAt 320) (fun p => if p = 0 then 2 ^ 1074 else 0) 512 = 0 := by decide +kernel

/-! ## The bus and the host's programs -/

theorem test_info : busRead 1024 0 0x004 4 (ready 1) = .ok 0x000F0400#32 := by rfl
theorem test_staging_halves : asmFreq 0 0 false 100 48000
    = [.write 0x010 4 0x11111111#32, .write 0x014 4 0x3F611111#32] := by decide +kernel
theorem test_literal : bits32 true 1 2 = 0xBF000000#32 := by decide +kernel
theorem test_reset_memory : Memory.wf State.reset.inst.mem = true := by decide

/-! ## Witnesses: helpers -/

/-- Whether an outcome is a next state. -/
def isNext : Host.Outcome State Fault Refusal → Bool
  | .next _ => true
  | _ => false

theorem next_of {o : Host.Outcome State Fault Refusal} (h : isNext o = true) : ∃ t, o = .next t := by
  cases o <;> simp_all [isNext]

theorem not_freqOk {f : F64} {neg : Bool} {m : Nat} (hv : view64 f = .fin neg m)
    (h : ¬ (m = 0 ∨ (neg = false ∧ m < 2 ^ 1074))) : ¬ FreqOk f := by
  rintro ⟨n, k, hk, h'⟩
  obtain ⟨rfl, rfl⟩ := Fp.fin.inj (hv.symm.trans hk)
  exact h h'

/-- A power-on machine with the word `w` latched, its turn come unless a delay is given. -/
def pending (w : Word) (delay : Nat := 0) : State :=
  { State.reset with inst :=
      { Instance.powerOn 1024 with pcmd := w, status := { Status.powerOn with busy := true }, delay := delay } }

/-- The instance of `oneSample` in a machine whose NMAX is 1, so that a block of length 1 is the longest. -/
def shortest : State := { oneSample with cfg := { Params.default with nmax := 1 } }

/-- A machine of two instances, at power-on. -/
def twoInstances : State := { State.reset with after := [Instance.powerOn 1024] }

/-! ## Witnesses: encoding -/

theorem witness_DecodeOfEncode : Instr.nop.WellFormed ∧ (Instr.reset 0).WellFormed ∧ (Instr.reset 31).WellFormed ∧
    (Instr.setShift .off).WellFormed ∧ (Instr.setShift .reserved).WellFormed ∧ (Instr.setGain 31).WellFormed ∧
    (Instr.process 0).WellFormed ∧ (Instr.process 65535).WellFormed := by decide
theorem witness_EncodeOfDecode : decode 0x1000001F#32 = .cmd (.reset 31) ∧
    decode 0x4000FFFF#32 = .cmd (.process 65535) := by decide
theorem witness_DecodeTotal : decode 0x50000000#32 = .illegalOpcode ∧ decode 0x40010000#32 = .reservedBits ∧
    decode 0x20000004#32 = .reservedBits ∧ decode 0x30000020#32 = .reservedBits := by decide
theorem witness_WorkedEncodings : (readyState 2).inst.status.init = true := by rfl

/-! ## Witnesses: stepping -/

theorem witness_StepRunsDecodedCommand : (pending 0x10000002#32).inst.status.busy = true ∧
    (pending 0x10000002#32).inst.delay = 0 ∧ (pending 0x10000002#32).host = [] ∧
    decode (pending 0x10000002#32).inst.pcmd = .cmd (.reset 2) := by decide +kernel

/-- The second of two instances has a command whose turn has come; the served one has none. -/
def secondReady : State := { State.reset with after := [(pending 0x10000001#32).inst], host := [.read 0x000 4] }

theorem witness_StepTurnsToReadyInstance : ∃ s', secondReady.nextEngine = some s' ∧
    s'.inst = (pending 0x10000001#32).inst ∧ decode s'.inst.pcmd = .cmd (.reset 1) ∧
    secondReady.inst.status.busy = false := ⟨_, rfl, rfl, by decide, rfl⟩
theorem witness_StepTakesHostTransaction :
    ({ State.reset with host := [.read 0x000 4] } : State).nextEngine = none ∧
    ({ State.reset with host := [.read 0x000 4] } : State).host = [.read 0x000 4] :=
  ⟨Option.isNone_iff_eq_none.mp (by decide +kernel), rfl⟩
theorem witness_FetchWordRunsNext : decode 0x40000001#32 = .cmd (.process 1) := by decide
theorem witness_EngineRefusesBadWords :
    (∀ w, (pending w).inst.status.busy = true ∧ (pending w).inst.delay = 0 ∧ (pending w).inst.pcmd = w) ∧
    5 ≤ ((0xF0000000#32).extractLsb' 28 4).toNat ∧
    (((0x48000000#32).extractLsb' 28 4).toNat < 5 ∧ (0x48000000#32).extractLsb' 16 12 ≠ 0) ∧
    (((0x00000001#32).extractLsb' 28 4).toNat = 0 ∧ (0x00000001#32).extractLsb' 0 16 ≠ 0) ∧
    (((0x10000020#32).extractLsb' 28 4).toNat = 1 ∧ (0x10000020#32).extractLsb' 5 11 ≠ 0) ∧
    (((0x20000004#32).extractLsb' 28 4).toNat = 2 ∧ (0x20000004#32).extractLsb' 2 14 ≠ 0) ∧
    (((0x30000020#32).extractLsb' 28 4).toNat = 3 ∧ (0x30000020#32).extractLsb' 5 11 ≠ 0) :=
  ⟨fun _ => ⟨rfl, rfl, rfl⟩, by decide⟩
theorem witness_EngineStepClearsBusy : ∃ t, engineStep (pending 0x00000000#32) = .next t := next_of (by decide +kernel)

/-- Two pending commands whose turns come after one and three more transactions. -/
def waiting : State :=
  { pending 0 1 with after := [(pending 0x10000001#32 3).inst], host := [.read 0x000 4] }

theorem witness_PendingCommandComesNearer : ∃ t, waiting.nextEngine = none ∧
    waiting.instances[1]? = some (pending 0x10000001#32 3).inst ∧ (pending 0x10000001#32 3).inst.status.busy = true ∧
    step waiting = .next t := by
  obtain ⟨t, h⟩ := next_of (o := step waiting) (by decide +kernel)
  exact ⟨t, Option.isNone_iff_eq_none.mp (by decide +kernel), rfl, rfl, h⟩
theorem witness_IdleKeepsState : Ended State.reset :=
  ⟨rfl, fun _ h => by rw [List.mem_singleton.mp h]; rfl⟩

/-! ## Witnesses: the commands -/

theorem witness_NopDoesNothing : (pending 0).inst.pcmd = 0 ∧
    ((pending 1).inst.pcmd.extractLsb' 28 4).toNat = 0 ∧ (pending 1).inst.pcmd ≠ 0 := by decide +kernel
theorem witness_ResetLeavesResetValues : resetFails (pending 0x10000010#32) = false ∧
    resetFails (pending 0x10000001#32) = false ∧ 1 ≤ 1 ∧ 1 ≤ 16 ∧ 16 ≤ 16 := by decide +kernel

/-- A machine whose first RESET may fail. -/
def mayFail : State := { State.reset with cfg := { Params.default with initMayFail := true } }

theorem witness_ResetRefusals : (0 = 0 ∨ 16 < 0) ∧ (17 = 0 ∨ 16 < 17) ∧
    (mayFail.cfg.initMayFail = true ∧ mayFail.inst.status.init = false) ∧ State.reset.cfg.initMayFail = false ∧
    (readyState 1).inst.status.init = true := by decide +kernel
theorem witness_ResetForgetsThePast : ∃ t₁ t₂, (pending 0).cfg = oneSample.cfg ∧
    exec (.reset 16) (pending 0) = .next t₁ ∧ exec (.reset 16) oneSample = .next t₂ ∧ 1 ≤ 16 ∧ 16 ≤ 16 ∧
    resetFails (pending 0) = false ∧ resetFails oneSample = false := by
  obtain ⟨t₁, h₁⟩ := next_of (o := exec (.reset 16) (pending 0)) (by decide +kernel)
  obtain ⟨t₂, h₂⟩ := next_of (o := exec (.reset 16) oneSample) (by decide +kernel)
  exact ⟨t₁, t₂, rfl, h₁, h₂, by decide, by decide, by decide +kernel, by decide +kernel⟩

/-- A machine with two channels and a latched frequency. -/
def latchedFreq (f : F64) : State := { readyState 2 with inst := { ready 2 with pfreq := f } }

/-- -0.0, the greatest frequency below 1, and the least above 0. -/
theorem witness_SetShiftCompletes :
    ((latchedFreq 0x8000000000000000#64).inst.status.init = true ∧ FreqOk 0x8000000000000000#64 ∧
      ∃ neg, view64 0x8000000000000000#64 = .fin neg 0) ∧
    (FreqOk 0x3FEFFFFFFFFFFFFF#64 ∧ ¬ ∃ neg, view64 0x3FEFFFFFFFFFFFFF#64 = .fin neg 0) ∧
    (FreqOk 0x0000000000000001#64 ∧ ¬ ∃ neg, view64 0x0000000000000001#64 = .fin neg 0) := by
  have h1 : view64 0x8000000000000000#64 = .fin true 0 := by decide +kernel
  have h2 : view64 0x3FEFFFFFFFFFFFFF#64 = .fin false ((2 ^ 53 - 1) * 2 ^ 1021) := by decide +kernel
  have h3 : view64 0x0000000000000001#64 = .fin false 1 := by decide +kernel
  refine ⟨⟨rfl, ⟨true, 0, h1, .inl rfl⟩, true, h1⟩, ⟨⟨false, _, h2, .inr ⟨rfl, by decide +kernel⟩⟩, ?_⟩,
    ⟨false, _, h3, .inr ⟨rfl, by decide +kernel⟩⟩, ?_⟩
  · rintro ⟨n, h⟩
    exact absurd (Fp.fin.inj (h2.symm.trans h)).2 (by decide +kernel)
  · rintro ⟨n, h⟩
    exact absurd (Fp.fin.inj (h3.symm.trans h)).2 (by decide +kernel)

/-- Not initialized; 1.0; the least frequency below 0. -/
theorem witness_SetShiftRefusals : State.reset.inst.status.init = false ∧
    ((latchedFreq one64).inst.status.init = true ∧ ¬ FreqOk (latchedFreq one64).inst.pfreq) ∧
    ¬ FreqOk 0x8000000000000001#64 :=
  ⟨rfl, ⟨rfl, not_freqOk (neg := false) (m := 2 ^ 1074) (by decide +kernel) (by decide +kernel)⟩,
    not_freqOk (neg := true) (m := 1) (by decide +kernel) (by decide +kernel)⟩

/-- The last of two channels, and the greatest finite binary32 negated. -/
theorem witness_SetGainCompletes : (readyState 2).inst.status.init = true ∧ 1 < (readyState 2).inst.nch ∧
    GainOk (readyState 2).inst.pgain ∧ GainOk 0xFF7FFFFF#32 :=
  ⟨rfl, by decide +kernel, ⟨false, 0, by decide +kernel⟩, ⟨true, (2 ^ 24 - 1) * 2 ^ 253, by decide +kernel⟩⟩

/-- Not initialized; the first channel that is not active; infinity on an active one. -/
theorem witness_SetGainRefusals : State.reset.inst.status.init = false ∧
    ((readyState 2).inst.status.init = true ∧ (readyState 2).inst.nch ≤ 2) ∧
    (1 < (readyState 2).inst.nch ∧ ¬ GainOk 0x7F800000#32) := by
  refine ⟨rfl, ⟨rfl, by decide +kernel⟩, by decide +kernel, ?_⟩
  rintro ⟨neg, m, h⟩
  have h1 : view32 0x7F800000#32 = .inf false := by decide +kernel
  rw [h1] at h
  cases h

/-- The longest block of the machine, with its words written. -/
theorem witness_buffersWritten : BuffersWritten 1 shortest.inst.nch shortest := by
  refine ⟨fun k hk => ?_, fun c k hc hk => ?_⟩
  · obtain rfl : k = 0 := by omega
    decide +kernel
  · obtain rfl : k = 0 := by omega
    obtain rfl : c = 0 := by
      have : shortest.inst.nch = 1 := rfl
      omega
    decide +kernel
theorem witness_ProcessCompletes : shortest.inst.status.init = true ∧ 1 ≤ 1 ∧ 1 ≤ shortest.cfg.nmax ∧
    BuffersWritten 1 shortest.inst.nch shortest :=
  ⟨rfl, le_rfl, by decide +kernel, witness_buffersWritten⟩
theorem witness_ProcessRefusals : State.reset.inst.status.init = false ∧
    ((readyState 1).inst.status.init = true ∧ (0 = 0 ∨ (readyState 1).cfg.nmax < 0)) ∧
    (1025 = 0 ∨ (readyState 1).cfg.nmax < 1025) ∧
    (1 ≤ 1024 ∧ 1024 ≤ (readyState 1).cfg.nmax ∧ ¬ BuffersWritten 1024 (readyState 1).inst.nch (readyState 1)) :=
  ⟨rfl, ⟨rfl, .inl rfl⟩, .inr (by decide +kernel), by decide, by decide +kernel,
    fun h => absurd (h.1 0 (by decide)) (by decide +kernel)⟩

/-- The block of one sample: one state for the premises of ProcessGains, ProcessAccumulates and ProcessModulates. -/
theorem witness_process : ∃ t, exec (.process 1) oneSample = .next t ∧ oneSample.inst.status.init = true ∧ 1 ≤ 1 ∧
    1 ≤ oneSample.cfg.nmax := by
  obtain ⟨t, h⟩ := next_of (o := exec (.process 1) oneSample) (by decide +kernel)
  exact ⟨t, h, rfl, le_rfl, by decide +kernel⟩
theorem witness_ProcessGains : (∃ t, exec (.process 1) oneSample = .next t ∧ oneSample.inst.status.init = true ∧ 1 ≤ 1 ∧
    1 ≤ oneSample.cfg.nmax) ∧ oneSample.inst.current.length = 16 ∧ oneSample.inst.nch ≤ 16 :=
  ⟨witness_process, by decide +kernel, by decide +kernel⟩
theorem witness_ProcessAccumulates : (∃ t, exec (.process 1) oneSample = .next t ∧ oneSample.inst.status.init = true ∧
    1 ≤ 1 ∧ 1 ≤ oneSample.cfg.nmax) ∧ oneSample.cfg.nmax ≤ 2048 ∧ Memory.Wf oneSample.inst.mem ∧
    0 < oneSample.inst.nch ∧ Memory.word oneSample.inst.mem (outAddr 0 0) = some 0x3F800000#32 ∧
    ¬ ∃ c k, c < oneSample.inst.nch ∧ k < 1 ∧ outAddr c k ≤ 0x10004 ∧ 0x10004 ≤ outAddr c k + 3 := by
  refine ⟨witness_process, by decide +kernel, by decide +kernel, by decide +kernel, by decide +kernel, ?_⟩
  rintro ⟨c, k, hc, hk, h1, h2⟩
  have hc' : c < 1 := hc
  simp only [outAddr] at h1 h2
  omega
theorem witness_ProcessModulates : (∃ t, exec (.process 1) oneSample = .next t ∧ oneSample.inst.status.init = true ∧
    1 ≤ 1 ∧ 1 ≤ oneSample.cfg.nmax) ∧ oneSample.inst.rawOut.length = oneSample.cfg.nmax ∧ 0 < 1 :=
  ⟨witness_process, by decide +kernel, Nat.one_pos⟩

/-! ## Witnesses: the pipeline -/

theorem witness_PushPhaseCount : 768 ≤ (ready 1).count ∧ (ready 1).count ≤ 1023 ∧
    768 ≤ ({ ready 1 with count := 1023 } : Instance).count ∧ ({ ready 1 with count := 1023 } : Instance).count ≤ 1023 := by
  decide +kernel
theorem witness_PushFrame : (ready 1).inputRing.length = 1024 ∧ (ready 1).outStage.length = 1024 ∧
    (ready 1).count ≤ 1023 ∧ (ready 1).count ≠ 1023 := by decide +kernel
/-- The pushes of zeros by two channels' PROCESSes of 64 samples each, under the draws of steps 0, 1, …. -/
def zeroPushes (n : Nat) : Instance := forUp (fun k v => pushValue Params.default (k / 64) (k % 64) 0 v) n (ready 2)

/-- SET_SHIFT before the first push, and BUSY set, leave the pipeline alone. -/
theorem witness_pushesFrom : PushesFrom Params.default (· / 64) (· % 64) (fun _ => 0) (ready 2) zeroPushes ∧
    (ready 2).SamePipeline
      { ready 2 with fracFreq := half64, sign := 1, status := { (ready 2).status with busy := true } } :=
  ⟨⟨⟨rfl, rfl, rfl, rfl⟩, fun n => by rw [zeroPushes, zeroPushes, forUp_succ]; exact ⟨rfl, rfl, rfl, rfl⟩⟩,
    ⟨rfl, rfl, rfl, rfl⟩⟩
theorem witness_BoundaryEvery256Pushes : PushesFrom Params.default (· / 64) (· % 64) (fun _ => 0) (ready 2) zeroPushes ∧
    (ready 2).count = 768 := ⟨witness_pushesFrom.1, rfl⟩
theorem witness_BoundaryShifts : (ready 1).inputRing.length = 1024 ∧ ∀ j, 1024 ≤ j → cget (ready 1).accum j = C64.zero :=
  ⟨by decide +kernel, fun j _ => cget_replicate 2048 j⟩
theorem witness_atReset : (ready 2).AtReset Params.default.nmax 2 := by constructor <;> rfl
theorem witness_RingAlignment : (ready 2).AtReset Params.default.nmax 2 ∧
    PushesFrom Params.default (· / 64) (· % 64) (fun _ => 0) (ready 2) zeroPushes ∧ 0 < 1024 ∧ 1023 < 1024 :=
  ⟨witness_atReset, witness_pushesFrom.1, by decide, by decide⟩

/-- The premise on HILBERT_IMPL holds of the default one. -/
theorem witness_realPartExact : RealPartExact Params.default := by
  intro step k b n hb hn
  have h : allBelow 1024 (fun n => isFinite64 (b.getD n C64.zero).re) = true := (allBelow_iff _ _).mpr hb
  have e : hilbert Params.default step k b = hilbertFinite b := by
    simp only [hilbert, h, if_true]
    rfl
  rw [e, hilbertFinite, cget_tabulate, if_pos hn]
  rfl
theorem witness_InPhaseDelayAndGain : RealPartExact Params.default ∧ (ready 2).AtReset Params.default.nmax 2 ∧
    PushesFrom Params.default (· / 64) (· % 64) (fun _ => 0) (ready 2) zeroPushes ∧
    (∀ _ : Nat, isFinite32 0 = true) ∧ 1023 < 1024 ∧ 1024 ≤ 1024 :=
  ⟨witness_realPartExact, witness_atReset, witness_pushesFrom.1, fun _ => by decide +kernel, by decide, le_rfl⟩
theorem witness_OffPathPassesThrough : isFinite64 one64 = true ∧ isFinite64 0xFFEFFFFFFFFFFFFF#64 = true := by
  decide +kernel

/-! ## Witnesses: the numbers -/

/-- A tie between the codes 0 and 1 of binary32, and a number past a power of two. -/
theorem witness_RoundingIsNearestEven :
    (Fmt.roundCode .b32 1 2 < Fmt.infCode .b32 ∧ 1 < Fmt.infCode .b32 ∧ 1 ≠ Fmt.roundCode .b32 1 2) ∧
    (Fmt.roundCode .b64 (2 ^ 60 + 1) 3 < Fmt.infCode .b64 ∧ 5 < Fmt.infCode .b64 ∧
      5 ≠ Fmt.roundCode .b64 (2 ^ 60 + 1) 3) ∧
    Fmt.roundCode .b32 ((2 ^ 25 - 1) * 2 ^ 252) 1 = Fmt.infCode .b32 ∧
    Fmt.roundCode .b32 ((2 ^ 25 - 1) * 2 ^ 252 - 1) 1 < Fmt.infCode .b32 ∧
    Fmt.roundCode .b64 ((2 ^ 54 - 1) * 2 ^ 2044) 1 = Fmt.infCode .b64 ∧
    Fmt.roundCode .b64 ((2 ^ 54 - 1) * 2 ^ 2044 - 1) 1 < Fmt.infCode .b64 := by decide +kernel
theorem witness_WideningIsExact : view32 0x80000001#32 = .fin true 1 := by decide +kernel
theorem witness_WindowSymmetry : 0 < 1024 ∧ 1023 < 1024 ∧ 1 ≤ 1 ∧ 1 ≤ 511 ∧ 511 ≤ 511 := by decide
/-- Both zeros, and the greatest binary64 below 2·TWO_PI64. -/
theorem witness_TrigAtZero : view64 0 = .fin false 0 ∧ view64 0x8000000000000000#64 = .fin true 0 ∧
    ∃ m, view64 0x402921FB54442D17#64 = .fin false m ∧ m < 2 * (int64Of twoPi64).toNat := by
  refine ⟨by decide +kernel, by decide +kernel, 0x1921FB54442D17 * 2 ^ 1025, by decide +kernel, by decide +kernel⟩
/-- R6, R183: a pair with the cosine 1 - 2^-52 at the smallest subnormal, nearly as far off as R183 allows, is a TRIG_IMPL. -/
theorem witness_TrigPair : ∃ t : TrigPair, t.cos 1 = 0x3FEFFFFFFFFFFFFE#64 := by
  have ref := trigRef_meets ⟨0, .cosine, 0, 0⟩
  refine ⟨⟨fun x => if x = 1 then 0x3FEFFFFFFFFFFFFE#64 else cosRef ⟨0, .cosine, 0, 0⟩ x, sinRef ⟨0, .cosine, 0, 0⟩,
    ?_, ref.2.1, fun x h => ⟨?_, (ref.2.2 x h).2⟩⟩, ?_⟩
  · exact (if_neg (by decide)).trans ref.1
  · dsimp only
    by_cases hx : x = 1
    · subst hx
      rw [if_pos rfl]
      have hn : int64Of 0x3FEFFFFFFFFFFFFE#64 = ((2 ^ 52 - 1) * 2 ^ 1022 : ℕ) := by decide +kernel
      have h1 : int64Of 1 = 1 := by decide +kernel
      refine trigNear_of_exact (by decide +kernel) hn (by decide +kernel) ?_
      have hP : (2 : ℝ) ^ 1074 = 2 ^ 1022 * 2 ^ 52 := by rw [← pow_add]
      have hQ : (1 : ℝ) ≤ 2 ^ 1022 := one_le_pow₀ (by norm_num)
      rw [h1, Int.cast_one, Nat.cast_mul, Nat.cast_pow, Nat.cast_ofNat, hP]
      generalize (2 : ℝ) ^ 1022 = Q at hQ
      have hy0 : (0 : ℝ) ≤ 1 / (Q * 2 ^ 52) := by positivity
      have hy1 : 1 / (Q * 2 ^ 52) ≤ 1 / 2 ^ 28 := by
        refine one_div_le_one_div_of_le (by norm_num) ?_
        linarith
      have hc := (abs_le.mp (tiny_trig hy0 hy1).1).2
      have hc' := Real.cos_le_one (1 / (Q * 2 ^ 52))
      have e : ((2 ^ 52 - 1 : ℕ) : ℝ) * Q / (Q * 2 ^ 52) = 1 - 1 / 2 ^ 52 := by
        field_simp
        norm_num
      rw [e, abs_le]
      constructor <;> linarith
    · rw [if_neg hx]; exact (ref.2.2 x h).1
  · dsimp only
    rw [if_pos rfl]
theorem witness_NonFiniteBlockGivesNaN :
    ∃ n, n < 1024 ∧ isFinite64 (cget [⟨0x7FF0000000000000#64, 0⟩] n).re = false := ⟨0, by decide, by decide +kernel⟩
theorem witness_DcAndNyquistPass : Params.default.hilbert = .reference ∧ isFinite64 half64 = true ∧
    isFinite64 0xBFE0000000000000#64 = true ∧ 1023 < 1024 := by decide +kernel
theorem witness_ReferenceRealPartExact : Params.default.hilbert = .reference := by rfl

/-- The default parameters with another HILBERT_IMPL. -/
def otherHilbert : Params := { Params.default with hilbert := .other 0 }

/-- A block with one real part that is not zero: 2^-1020 is the least the premise of HilbertIsAccurate takes. -/
def impulse (x : F64) : List C64 := tabulate 1024 fun j => ⟨if j = 0 then x else 0, 0⟩

theorem impulse_finite (x : F64) (h : isFinite64 x = true) : BlockFinite (impulse x) := by
  intro n hn
  rw [impulse, cget_tabulate, if_pos hn]
  dsimp only
  split
  · exact h
  · decide +kernel
theorem sum_first (v : Int) (n : Nat) :
    (((List.range (n + 1)).map fun j => if j = 0 then v else 0).map Int.natAbs).sum = v.natAbs := by
  induction n with
  | zero => rfl
  | succ n ih => rw [List.range_succ, List.map_append, List.map_append, List.sum_append, ih]; rfl

theorem absSum_impulse (x : F64) : absSum (impulse x) = (int64Of x).natAbs := by
  have h0 : int64Of 0 = 0 := by decide +kernel
  have h : ∀ j ∈ List.range 1024, realOf (impulse x) j = if j = 0 then int64Of x else 0 := by
    intro j hj
    rw [realOf, impulse, getD_tabulate_of_lt _ _ (List.mem_range.mp hj)]
    dsimp only
    split
    · rfl
    · exact h0
  rw [absSum]
  unfold tabulate
  rw [List.map_congr_left h]
  exact sum_first (int64Of x) 1023
theorem witness_HilbertIsAccurate :
    BlockFinite (impulse 0x0030000000000000#64) ∧ BlockFinite (impulse 0) ∧
    (otherHilbert.epsDenPred + 1 ≤ otherHilbert.epsNum * 2 ^ 53) ∧
    (2 ^ 54 ≤ absSum (impulse 0x0030000000000000#64) ∧ absSum (impulse 0x0030000000000000#64) ≤ 2 ^ 2097) ∧
    absSum (impulse 0) = 0 := by
  rw [absSum_impulse, absSum_impulse]
  exact ⟨impulse_finite _ (by decide +kernel), impulse_finite _ (by decide +kernel), by decide +kernel, by decide +kernel,
    by decide +kernel⟩
theorem witness_QuadratureIsRounded : Params.default.hilbert = .reference ∧
    BlockFinite (impulse 0xFFEFFFFFFFFFFFFF#64) ∧ 1023 < 1024 :=
  ⟨rfl, impulse_finite _ (by decide +kernel), by decide⟩
theorem witness_HilbertImpulse : Params.default.hilbert = .reference ∧ 0 < 1024 ∧ 1022 < 1024 ∧ 1022 % 2 = 0 :=
  ⟨rfl, by decide⟩

/-! ## Witnesses: the host bus -/

/-- The first and last reserved offsets, and the first index past a buffer of 1024 words. -/
theorem witness_BusErrorsExactly : 1024 ≤ 2048 ∧ 0x3FFFC < 0x40000 ∧ Unmapped 1024 0x38 ∧ Unmapped 1024 0x3C ∧
    Unmapped 1024 0xC0 ∧ Unmapped 1024 0x1FFC ∧ Unmapped 1024 (inAddr 1024) ∧ Unmapped 1024 0x4000 ∧
    Unmapped 1024 0xFFFC ∧ Unmapped 1024 (outAddr 15 2047) ∧ Unmapped 1024 0x30000 ∧ Unmapped 1024 0x3FFFC ∧
    ¬ Unmapped 1024 0x034 ∧ ¬ Unmapped 1024 (inAddr 1023) := by
  refine ⟨by decide, by decide, .inl (by decide), .inl (by decide), .inr (.inl (by decide)), .inr (.inl (by decide)),
    .inr (.inr (.inr (.inr (.inl ⟨1024, by decide, by decide, by decide, by decide⟩)))), .inr (.inr (.inl (by decide))),
    .inr (.inr (.inl (by decide))),
    .inr (.inr (.inr (.inr (.inr ⟨15, 2047, by decide, by decide, by decide, by decide, by decide⟩)))),
    .inr (.inr (.inr (.inl (by decide)))), .inr (.inr (.inr (.inl (by decide)))), ?_, ?_⟩ <;>
  · simp only [Unmapped, inAddr, outAddr]
    rintro (h | h | h | h | ⟨k, h⟩ | ⟨c, k, h⟩) <;> omega
theorem witness_ReadbackReads : 0 < 16 ∧ 15 < 16 := by decide
theorem witness_StatusTransactions : (0x4#32).getLsbD 2 = true ∧ (0xFFFFFFFB#32).getLsbD 2 = false := by decide
theorem witness_BufferTransactions : 15 < 16 ∧ 2047 < 2048 ∧ 2048 ≤ 2048 ∧ Memory.Wf oneSample.inst.mem ∧
    (pending 0).inst.status.busy = true ∧ (ready 1).status.busy = false ∧
    Memory.word (ready 1).mem (outAddr 15 2047) = none ∧
    Memory.word oneSample.inst.mem (inAddr 0) = some 0x3F000000#32 ∧
    Memory.word oneSample.inst.mem (outAddr 0 0) = some 0x3F800000#32 := by decide +kernel

/-- An instance whose initialization failed (the state of 2.6's last table). -/
def failed : Instance :=
  { Instance.powerOn 1024 with status := { Status.powerOn with err := true, fatal := true, errCode := 12 } }

theorem witness_CmdWriteAccepts : failed.status.fatal = true ∧
    ((pending 0).inst.status.fatal = false ∧ (pending 0).inst.status.busy = true) ∧
    ((ready 1).status.fatal = false ∧ (ready 1).status.busy = false) := by decide +kernel
/-- COUNT of the second of two instances, the last offset of its space, and an address past both and below BASE. -/
theorem witness_HostReadHasNoSideEffect : (∃ t, hostStep (.read 0x020 4) [] (readyState 1) = .next t) ∧
    0x40020 = twoInstances.cfg.base + 1 * 0x40000 + 0x020 ∧
    twoInstances.instances[1]? = some (Instance.powerOn 1024) ∧
    busRead twoInstances.cfg.nmax twoInstances.draws 0x020 4 (Instance.powerOn 1024) = .ok 768#32 ∧ 0x3FFFF < 0x40000 ∧
    busRead twoInstances.cfg.nmax twoInstances.draws 0x3FFFF 4 (Instance.powerOn 1024) = .error .busError ∧
    twoInstances.instances.length ≤ (0x80000 - twoInstances.cfg.base) / 0x40000 ∧
    0x3FFFF < ({ twoInstances with cfg := { Params.default with base := 0x40000 } } : State).cfg.base :=
  ⟨next_of (by decide +kernel), rfl, rfl, by rfl, by decide, by rfl, by decide, by decide⟩
theorem witness_PollRepeatsWhileBusy : twoInstances.instances[1]? = some (Instance.powerOn 1024) ∧
    (Instance.powerOn 1024).status.busy = false ∧ (pending 0).instances[0]? = some (pending 0).inst ∧
    (pending 0).inst.status.busy = true := ⟨rfl, rfl, rfl, rfl⟩

/-! ## Witnesses: the whole machine -/

/-- An engine step that records a second error. -/
def secondError : State :=
  { pending 0xF0000000#32 with inst :=
      { (pending 0xF0000000#32).inst with
        status := { Status.powerOn with busy := true, err := true, errMulti := true, errCode := 3 } } }

theorem witness_RecordKeepsFirstError : (readyState 1).inst.status.err = false ∧ secondError.inst.status.err = true ∧
    failed.status.fatal = true ∧ ((pending 0).inst.status.fatal = false ∧ (pending 0).inst.status.busy = true) := by
  decide +kernel
theorem witness_EngineNeverClearsErrors : (∃ t, engineStep secondError = .next t) ∧ secondError.inst.status.err = true ∧
    secondError.inst.status.errMulti = true := ⟨next_of (by decide +kernel), rfl, rfl⟩

/-- A machine that failed, whose host clears the errors. -/
def clearing : State := { State.reset with inst := failed, host := [.write 0x00C 4 0x4#32] }

theorem witness_FatalStays : (∃ t, step clearing = .next t) ∧ clearing.instances[0]? = some failed ∧
    failed.status.fatal = true := ⟨next_of (by decide +kernel), rfl, rfl⟩
theorem witness_InstancesAreIndependent : (∃ t, engineStep (pending 0) = .next t) ∧
    (∃ t, hostStep (.write 0x40010 4 1#32) [] twoInstances = .next t) ∧ 0 ≠ (0x40010 - twoInstances.cfg.base) / 0x40000 ∧
    twoInstances.instances[0]? = some (Instance.powerOn 1024) ∧
    (0x40010 = twoInstances.cfg.base + 1 * 0x40000 + 0x010 ∧
      twoInstances.instances[1]? = some (Instance.powerOn 1024) ∧
      busWrite twoInstances.cfg.nmax twoInstances.draws 0x010 4 1#32 (Instance.powerOn 1024) =
        .ok { Instance.powerOn 1024 with freqLo := 1#32 }) ∧
    (0x3FFFF < 0x40000 ∧
      busWrite twoInstances.cfg.nmax twoInstances.draws 0x3FFFF 4 1#32 (Instance.powerOn 1024) = .error .busError) ∧
    twoInstances.instances.length ≤ (0x80000 - twoInstances.cfg.base) / 0x40000 :=
  ⟨next_of (by decide +kernel), next_of (by decide +kernel), by decide +kernel, rfl, ⟨rfl, rfl, rfl⟩, ⟨by decide, rfl⟩,
    by decide⟩
theorem witness_ParametersAreConstant : ∃ t, step clearing = .next t := next_of (by decide +kernel)
/-- Three instances with other parameters, a latch that is not zero, and a host program. -/
theorem witness_EveryPowerOnMeetsInvariant : PowerOn State.reset ∧
    PowerOn { State.reset with
      cfg := { Params.default with nmax := 1, base := 0x40000, initMayFail := true, window := .other 1 }
      before := [Instance.powerOn 1]
      inst := { Instance.powerOn 1 with pcmd := 0xFFFFFFFF#32, pgain := 1#32 }
      after := [Instance.powerOn 1]
      host := [.poll 0] } := by
  constructor
  · exact ⟨by decide +kernel, rfl, fun u h => by rw [List.mem_singleton.mp h]; rfl⟩
  · refine ⟨by decide +kernel, rfl, fun u h => ?_⟩
    rcases List.mem_cons.mp h with rfl | h
    · rfl
    · rcases List.mem_cons.mp h with rfl | h
      · rfl
      · rw [List.mem_singleton.mp h]; rfl

/-- The invariants hold of an instance with two channels: a state some run reaches, and not the power-on one. -/
theorem witness_instance_inv : (ready 2).Inv Params.default where
  ringLen := by decide +kernel
  analyticLen := by decide +kernel
  accumLen := by decide +kernel
  stageLen := by decide +kernel
  outdataLen := by decide +kernel
  rawLen := by decide +kernel
  currentLen := by decide +kernel
  targetLen := by decide +kernel
  countLow := by decide +kernel
  countHigh := by decide +kernel
  accumTail := fun k _ => cget_replicate 2048 k
  stageTail := fun k _ => cget_replicate 1024 k
  freq := ⟨0, by decide +kernel, by decide +kernel⟩
  phase := ⟨0, by decide +kernel, by decide +kernel⟩
  nchInit := fun _ => by decide +kernel
  nchNone := fun h => by cases h
  noError := fun _ => ⟨rfl, rfl⟩
  someError := fun h => by cases h
  fatalStuck := fun h => by cases h
  currentFinite := fun g h => by rw [List.eq_of_mem_replicate (n := 16) h]; decide +kernel
  targetFinite := fun g h => by rw [List.eq_of_mem_replicate (n := 16) h]; decide +kernel
  memWf := List.Pairwise.nil
  memWords := fun a h => by cases h
theorem witness_StepKeepsInvariant : (readyState 2).Inv ∧ ∃ t, step (readyState 2) = .next t :=
  ⟨⟨by decide +kernel, fun u h => by rw [List.mem_singleton.mp h]; exact witness_instance_inv⟩,
    next_of (by decide +kernel)⟩

end Sys2Proof.Tests
end

section
/-! PROOFS. The numbers of spec/00_scope.md R8: rounding is to a nearest value with ties to the even encoding, it overflows
from a midpoint on, and widening a finite binary32 loses nothing. -/

namespace Sys2Proof.Machine

open Sys2Proof Sys2Proof.Config

/-! ## Rounding to a nearest value -/

/-- A fraction half way between two integers rounds to the even one. -/
theorem rneNat_even_of_tie (num den : Nat) (hd : 0 < den)
    (h : 2 * (((rneNat num den * den : ℕ) : ℤ) - num).natAbs = den) : rneNat num den % 2 = 0 := by
  have hdiv := Nat.div_add_mod num den
  have hlt := Nat.mod_lt num hd
  rw [Nat.mul_comm] at hdiv
  simp only [rneNat] at h ⊢
  split at h
  · next hc => rw [if_pos hc]; rw [Nat.add_mul, Nat.one_mul] at h; omega
  · next hc => rw [if_neg hc]; omega

/-- An integer other than the rounded one is no nearer to the fraction, and where it is equally near the rounded one is
even. -/
theorem rneNat_nearest (num den k : Nat) (hd : 0 < den) (hk : k ≠ rneNat num den) :
    let err (s : Nat) : Nat := (((s * den : ℕ) : ℤ) - num).natAbs
    err (rneNat num den) ≤ err k ∧ (err (rneNat num den) = err k → rneNat num den % 2 = 0) := by
  have herr := rneNat_error num den hd
  have htie := rneNat_even_of_tie num den hd
  generalize rneNat num den = s at *
  -- the two multiples of `den` are at least `den` apart
  have hfar : s * den + den ≤ k * den ∨ k * den + den ≤ s * den := by
    rcases hk.lt_or_gt with h | h
    · exact .inr (by simpa [Nat.add_mul] using Nat.mul_le_mul_right den h)
    · exact .inl (by simpa [Nat.add_mul] using Nat.mul_le_mul_right den h)
  dsimp only
  exact ⟨by omega, fun h => htie (by omega)⟩

/-- Where the place of a rounding lies above the smallest subnormal, the fraction reaches the least normal significand. -/
theorem two_pow_frac_mul_le (f : Fmt) (num den e : Nat) (hd : 0 < den) (he : e = Nat.log2 (num / den) - f.frac)
    (hpos : 0 < e) : 2 ^ f.frac * (den * 2 ^ e) ≤ num := by
  have hq : num / den ≠ 0 := by rintro h; rw [h] at he; simp at he; omega
  have hlog : f.frac + e = Nat.log2 (num / den) := by omega
  calc 2 ^ f.frac * (den * 2 ^ e) = 2 ^ (f.frac + e) * den := by rw [Nat.pow_add]; ring
    _ ≤ num := (Nat.le_div_iff_mul_le hd).mp (hlog ▸ Nat.log2_self_le hq)

/-- A finite rounding taken apart: the place, the significand, and what they say about the fraction. -/
theorem roundCode_parts (f : Fmt) (num den : Nat) (hd : 0 < den) (hfin : Fmt.roundCode f num den < Fmt.infCode f) :
    ∃ e, Fmt.roundCode f num den = e * 2 ^ f.frac + rneNat num (den * 2 ^ e) ∧
      rneNat num (den * 2 ^ e) ≤ 2 ^ (f.frac + 1) ∧
      (0 < e → 2 ^ f.frac ≤ rneNat num (den * 2 ^ e)) ∧
      (0 < e → 2 ^ f.frac * (den * 2 ^ e) ≤ num) := by
  obtain ⟨hu, hl⟩ := roundCode_bounds f num den hd _ rfl
  refine ⟨Nat.log2 (num / den) - f.frac, ?_, by rwa [← Nat.shiftLeft_eq], by rwa [← Nat.shiftLeft_eq],
    two_pow_frac_mul_le f num den _ hd rfl⟩
  simp only [Fmt.roundCode, Nat.shiftLeft_eq] at hfin ⊢
  omega

/-- The next code above a place and a significand is at least a unit of that place higher. -/
theorem le_magOf_of_gt (f : Fmt) (e s c : Nat) (h1 : s ≤ 2 ^ (f.frac + 1)) (h2 : 0 < e → 2 ^ f.frac ≤ s)
    (hc : e * 2 ^ f.frac + s < c) : (s + 1) * 2 ^ e ≤ Fmt.magOf f c := by
  rcases h1.lt_or_eq with hs | hs
  · rw [← magOf_compose f e (s + 1) hs fun h => (h2 h).trans (Nat.le_succ s)]
    exact magOf_le f _ _ hc
  · -- the significand carried into the exponent, and the next place has twice the unit
    have hcode : e * 2 ^ f.frac + s + 1 = (e + 1) * 2 ^ f.frac + (2 ^ f.frac + 1) := by rw [hs, Nat.pow_succ]; ring
    have hone : 1 ≤ 2 ^ f.frac := Nat.one_le_two_pow
    calc (s + 1) * 2 ^ e ≤ (2 ^ f.frac + 1) * 2 ^ (e + 1) := by
          rw [hs, Nat.pow_succ, Nat.pow_succ, Nat.mul_comm (2 ^ e), ← Nat.mul_assoc]
          exact Nat.mul_le_mul_right _ (by omega)
      _ = Fmt.magOf f (e * 2 ^ f.frac + s + 1) := by
          rw [hcode, magOf_compose f (e + 1) _ (by rw [Nat.pow_succ]; omega) fun _ => Nat.le_succ _]
      _ ≤ Fmt.magOf f c := magOf_le f _ _ hc

/-- A code below a place and a significand, where the significand stays normal, is at least a unit of that place lower. -/
theorem magOf_le_of_lt (f : Fmt) (e s c : Nat) (h1 : s + 1 ≤ 2 ^ (f.frac + 1)) (h2 : 0 < e → 2 ^ f.frac ≤ s)
    (hc : c < e * 2 ^ f.frac + (s + 1)) : Fmt.magOf f c ≤ s * 2 ^ e := by
  rw [← magOf_compose f e s (by omega) h2]
  exact magOf_le f _ _ (by omega)

/-- What is no farther from `n` than `y` is no farther than what lies beyond `y`. -/
theorem nearest_of_beyond {x y z n : ℕ} {P : Prop} (hbeyond : x < y ∧ y ≤ z ∨ z ≤ y ∧ y < x)
    (h : ((x : ℤ) - n).natAbs ≤ ((y : ℤ) - n).natAbs ∧ (((x : ℤ) - n).natAbs = ((y : ℤ) - n).natAbs → P)) :
    ((x : ℤ) - n).natAbs ≤ ((z : ℤ) - n).natAbs ∧ (((x : ℤ) - n).natAbs = ((z : ℤ) - n).natAbs → P) :=
  ⟨by omega, fun heq => h.2 (by omega)⟩

/-- No other code is nearer to the fraction than the one it rounds to, and where one is equally near that is even. -/
theorem roundCode_nearest (f : Fmt) (hf : 0 < f.frac) (num den c : Nat) (hd : 0 < den)
    (hfin : Fmt.roundCode f num den < Fmt.infCode f) (hc : c ≠ Fmt.roundCode f num den) :
    let r := Fmt.roundCode f num den
    let err (e : Nat) : Nat := (((Fmt.magOf f e * den : ℕ) : ℤ) - num).natAbs
    err r ≤ err c ∧ (err r = err c → r % 2 = 0) := by
  obtain ⟨e, hr, hu, hl, hnum⟩ := roundCode_parts f num den hd hfin
  have hnear := fun k => rneNat_nearest num (den * 2 ^ e) k (Nat.mul_pos hd (Nat.two_pow_pos e))
  have heven (s : Nat) : (e * 2 ^ f.frac + s) % 2 = s % 2 := by
    rw [Nat.add_mod, Nat.mul_mod, Nat.two_pow_mod_two_eq_zero.mpr hf, Nat.mul_zero, Nat.zero_mod, Nat.zero_add,
      Nat.mod_mod]
  have hunit (k : Nat) : k * (den * 2 ^ e) = k * 2 ^ e * den := by ring
  rw [hr] at hc ⊢
  dsimp only at hnear ⊢
  rw [heven, magOf_compose f e _ hu hl]
  generalize rneNat num (den * 2 ^ e) = s at *
  simp only [hunit] at hnear hnum
  rcases hc.lt_or_gt with hlt | hgt
  · rcases Nat.lt_or_ge num (s * 2 ^ e * den) with hn | hn
    · -- the fraction lies below the rounded value, so one unit lower is still a code of this place
      have hs (h : 0 < e) : 2 ^ f.frac < s := by
        have := (hnum h).trans_lt hn
        exact Nat.lt_of_mul_lt_mul_right (Nat.lt_of_mul_lt_mul_right this)
      obtain ⟨k, rfl⟩ : ∃ k, s = k + 1 := Nat.exists_eq_add_one_of_ne_zero (by rintro rfl; simp at hn)
      have hle := magOf_le_of_lt f e k c hu (fun h => Nat.le_of_lt_succ (hs h)) hlt
      refine nearest_of_beyond (.inr ⟨Nat.mul_le_mul_right den hle, ?_⟩) (hnear k (by omega))
      exact Nat.mul_lt_mul_of_pos_right (Nat.mul_lt_mul_of_pos_right k.lt_succ_self (Nat.two_pow_pos e)) hd
    · -- the fraction lies at or above the rounded value, which is above the other code
      have hlt' := Nat.mul_lt_mul_of_pos_right (magOf_lt f c _ hlt) hd
      rw [magOf_compose f e s hu hl] at hlt'
      omega
  · have hle := le_magOf_of_gt f e s c hu hl hgt
    refine nearest_of_beyond (.inl ⟨?_, Nat.mul_le_mul_right den hle⟩) (hnear (s + 1) (by omega))
    exact Nat.mul_lt_mul_of_pos_right (Nat.mul_lt_mul_of_pos_right s.lt_succ_self (Nat.two_pow_pos e)) hd

/-! ## Overflow -/

/-- What lies below an integer rounds no higher than a quarter below it: no half-integer lies between. -/
theorem roundCode_le_of_lt (f : Fmt) (t num den : Nat) (hd : 0 < den) (h : num < t * den) :
    Fmt.roundCode f num den ≤ Fmt.roundCode f (4 * t - 1) 4 := by
  have ht : den ≤ t * den := Nat.le_mul_of_pos_left den (Nat.pos_of_lt_mul_right h)
  rcases Nat.le_total (num * 4) ((4 * t - 1) * den) with hle | hge
  · exact roundCode_mono_frac f _ _ _ _ hd (by decide) hle
  · have hno (k : Nat) : ¬ (2 * ((4 * t - 1) * den) ≤ k * (4 * den) ∧ k * (4 * den) ≤ 2 * (num * 4)) := by
      rintro ⟨h1, h2⟩
      rw [Nat.mul_left_comm k] at h1 h2
      rw [Nat.sub_mul, Nat.one_mul, Nat.mul_assoc] at h1
      have lo : (2 * t - 1) * den < k * den := by rw [Nat.sub_mul, Nat.one_mul, Nat.mul_assoc]; omega
      have hi : k * den < 2 * t * den := by rw [Nat.mul_assoc]; omega
      have := Nat.lt_of_mul_lt_mul_right lo
      have := Nat.lt_of_mul_lt_mul_right hi
      omega
    have := roundCode_eq_of_no_half f _ _ (4 * den) (by omega) hge hno
    rw [roundCode_cancel f (4 * t - 1) 4 den hd, Nat.mul_comm 4 den, roundCode_cancel f num den 4 (by decide)] at this
    exact this.ge

/-- Rounding overflows exactly from an integer on, where that integer overflows and a quarter below it does not. -/
theorem roundCode_eq_infCode_iff (f : Fmt) (t num den : Nat) (hd : 0 < den)
    (hinf : Fmt.roundCode f t 1 = Fmt.infCode f) (hfin : Fmt.roundCode f (4 * t - 1) 4 < Fmt.infCode f) :
    Fmt.roundCode f num den = Fmt.infCode f ↔ t * den ≤ num := by
  constructor
  · intro h
    by_contra hlt
    have := roundCode_le_of_lt f t num den hd (Nat.lt_of_not_le hlt)
    omega
  · intro h
    refine (roundCode_le f num den).antisymm ?_
    rw [← hinf, ← roundCode_scale f t den hd]
    exact roundCode_mono f _ _ den hd h

/-! ## Widening -/

/-- Every significand that fits the format is a magnitude of it at every place. -/
theorem exists_magOf (f : Fmt) (e s : Nat) (h : s < 2 ^ (f.frac + 1)) : ∃ c, Fmt.magOf f c = s * 2 ^ e := by
  induction e generalizing s with
  | zero => exact ⟨0 * 2 ^ f.frac + s, magOf_compose f 0 s h.le (absurd · (Nat.lt_irrefl 0))⟩
  | succ e ih =>
    rcases Nat.lt_or_ge s (2 ^ f.frac) with hs | hs
    · obtain ⟨c, hc⟩ := ih (s * 2) (by rw [Nat.pow_succ]; omega)
      exact ⟨c, by rw [hc, Nat.pow_succ, Nat.mul_assoc, Nat.mul_comm 2]⟩
    · exact ⟨(e + 1) * 2 ^ f.frac + s, magOf_compose f (e + 1) s h.le fun _ => hs⟩

/-- Every magnitude of a format is a significand that fits it, at some place. -/
theorem magOf_eq_significand (f : Fmt) (c : Nat) : ∃ e s, s < 2 ^ (f.frac + 1) ∧ Fmt.magOf f c = s * 2 ^ e := by
  rw [Nat.pow_succ]
  rcases code_cases f c with hc | ⟨e, r, hr, rfl⟩
  · exact ⟨0, c, by omega, by rw [magOf_small f c hc, Nat.pow_zero, Nat.mul_one]⟩
  · exact ⟨e, 2 ^ f.frac + r, by omega, magOf_normal f e r hr⟩

/-- A finite binary32 in binary64's units is a finite binary64. -/
theorem exists_wide_code (c : Nat) (hc : c < Fmt.infCode .b32) :
    ∃ w, w < Fmt.infCode .b64 ∧ Fmt.magOf .b64 w = Fmt.magOf .b32 c * 2 ^ 925 := by
  obtain ⟨e, s, hs, hm⟩ := magOf_eq_significand .b32 c
  obtain ⟨w, hw⟩ := exists_magOf .b64 (e + 925) s (hs.trans (by decide +kernel))
  have hval : Fmt.magOf .b64 w = Fmt.magOf .b32 c * 2 ^ 925 := by rw [hw, hm, Nat.mul_assoc, ← Nat.pow_add]
  refine ⟨w, ?_, hval⟩
  by_contra hge
  have hbig := magOf_le .b64 _ w (Nat.le_of_not_lt hge)
  rw [hval] at hbig
  have hcap : Fmt.magOf .b32 (Fmt.infCode .b32) * 2 ^ 925 ≤ Fmt.magOf .b64 (Fmt.infCode .b64) := by decide +kernel
  exact absurd (hcap.trans hbig)
    (Nat.not_le_of_lt (Nat.mul_lt_mul_of_pos_right (magOf_lt .b32 c _ hc) (Nat.two_pow_pos _)))

/-- An encoding is its sign bit and its other bits. -/
theorem withSign_testBit (f : Fmt) (bits : Nat) (h : bits < 2 ^ (Fmt.signPos f + 1)) :
    Fmt.withSign f (bits.testBit (Fmt.signPos f)) (bits % 2 ^ Fmt.signPos f) = bits := by
  have hsplit := Nat.mod_add_div bits (2 ^ Fmt.signPos f)
  have htop : bits / 2 ^ Fmt.signPos f < 2 := Nat.div_lt_of_lt_mul (by rwa [Nat.pow_succ] at h)
  rw [Fmt.withSign, Nat.testBit_eq_decide_div_mod_eq, Nat.mod_eq_of_lt htop]
  generalize bits / 2 ^ Fmt.signPos f = top at *
  obtain rfl | rfl : top = 0 ∨ top = 1 := by omega
  · simpa using hsplit
  · simpa [Nat.add_comm] using hsplit

/-- A finite binary32 is its sign and a code below infinity's. -/
theorem view32_fin {x : F32} {neg : Bool} {m : Nat} (h : view32 x = .fin neg m) :
    ∃ c, c < Fmt.infCode .b32 ∧ m = Fmt.magOf .b32 c ∧ x = BitVec.ofNat 32 (Fmt.withSign .b32 neg c) := by
  simp only [view32, Fmt.view] at h
  split at h
  · next hc =>
    cases h
    exact ⟨_, hc, rfl, by rw [withSign_testBit .b32 _ x.isLt, BitVec.ofNat_toNat, BitVec.setWidth_eq]⟩
  · split at h <;> cases h

/-- A finite binary32 widens to the same sign and the same value in binary64's units. -/
theorem view64_to64 (d : Draw) {x : F32} {neg : Bool} {m : Nat} (h : view32 x = .fin neg m) :
    view64 (to64 d x) = .fin neg (m * 2 ^ 925) := by
  obtain ⟨c, hc, rfl, -⟩ := view32_fin h
  obtain ⟨w, hw, hval⟩ := exists_wide_code c hc
  rw [to64, h, Fp.widen, Nat.shiftLeft_eq, ← hval, view64_finish, roundCode_magOf .b64 w hw, if_pos hw]

/-- A binary64 that holds a finite binary32's value narrows to it. -/
theorem to32_of_wide (d : Draw) {x : F32} {y : F64} {neg : Bool} {m : Nat} (hx : view32 x = .fin neg m)
    (hy : view64 y = .fin neg (m * 2 ^ 925)) : to32 d y = x := by
  obtain ⟨c, hc, rfl, rfl⟩ := view32_fin hx
  rw [to32, hy, Fp.narrow, finish32, Fmt.finish, roundCode_scale .b32 _ _ (Nat.two_pow_pos _), roundCode_magOf .b32 c hc]

/-! ## The obligations -/

/-- Settles O33: the rounded significand is a nearest integer at its place, and every other code is a unit of the place
away; the two midpoints overflow and a quarter of a subnormal below them does not. -/
theorem roundingIsNearestEven : Obligations.RoundingIsNearestEven := by
  refine ⟨fun f num den c hf hd hfin _ hne => roundCode_nearest f ?_ num den c hd hfin hne, fun num den hd => ⟨?_, ?_⟩⟩
  · rcases hf with rfl | rfl <;> decide
  · exact roundCode_eq_infCode_iff .b32 _ num den hd (by decide +kernel) (by decide +kernel)
  · exact roundCode_eq_infCode_iff .b64 _ num den hd (by decide +kernel) (by decide +kernel)

/-- Settles O34: a binary32's significand fits binary64's at every place, so widening rounds nothing, and narrowing rounds
a representable value. -/
theorem wideningIsExact : Obligations.WideningIsExact :=
  fun d e _ _ _ h => ⟨view64_to64 d h, to32_of_wide e h (view64_to64 d h)⟩

end Sys2Proof.Machine
end

section
/-! PROOFS. The state of spec/10_state.md: the invariants of R43 hold in every power-on state and every step keeps them; the
values a RESET leaves (R44); and the block AnalyticBlock holds between commands decides nothing (R23, R41).

The invariants are taken in parts: those of STATUS, those of the buffer memory, and the rest, so that an operation is asked
only about what it writes. -/

namespace Sys2Proof.Machine

open Sys2Proof Sys2Proof.Config

/-! ## The invariants of STATUS -/

/-- What `Instance.Inv` says of STATUS and the channel count. -/
structure StatusInv (p : Params) (nch : Nat) (st : Status) : Prop where
  nchInit : st.init = true → 1 ≤ nch ∧ nch ≤ 16
  nchNone : st.init = false → nch = 0
  noError : st.err = false → st.errMulti = false ∧ st.errCode = 0
  someError : st.err = true → 1 ≤ st.errCode.toNat ∧ st.errCode.toNat ≤ 12
  fatalStuck : st.fatal = true → st.init = false ∧ st.busy = false ∧ p.initMayFail = true

theorem Instance.Inv.statusInv {p : Params} {u : Instance} (h : u.Inv p) : StatusInv p u.nch u.status where
  nchInit := h.nchInit
  nchNone := h.nchNone
  noError := h.noError
  someError := h.someError
  fatalStuck := h.fatalStuck

theorem Instance.Inv.withStatus {p : Params} {u : Instance} {st : Status} (h : u.Inv p) (hst : StatusInv p u.nch st) :
    Instance.Inv p { u with status := st } :=
  { h with
    nchInit := hst.nchInit
    nchNone := hst.nchNone
    noError := hst.noError
    someError := hst.someError
    fatalStuck := hst.fatalStuck }

theorem statusInv_powerOn (p : Params) : StatusInv p 0 Status.powerOn where
  nchInit := by rintro ⟨⟩
  nchNone := fun _ => rfl
  noError := fun _ => ⟨rfl, rfl⟩
  someError := by rintro ⟨⟩
  fatalStuck := by rintro ⟨⟩

theorem errorCode_range (e : ErrorName) : 1 ≤ (errorCode e).toNat ∧ (errorCode e).toNat ≤ 12 := by
  cases e <;> decide

/-- Recording an error and clearing BUSY do not touch the same fields. -/
theorem Status.idle_record (e : ErrorName) (st : Status) : (st.record e).idle = st.idle.record e := by
  obtain ⟨_, _, err, _, _, _⟩ := st
  cases err <;> rfl

namespace StatusInv

variable {p : Params} {nch : Nat} {st : Status}

theorem idle (h : StatusInv p nch st) : StatusInv p nch st.idle :=
  { h with fatalStuck := fun hf => ⟨(h.fatalStuck hf).1, rfl, (h.fatalStuck hf).2.2⟩ }

theorem record (h : StatusInv p nch st) (e : ErrorName) : StatusInv p nch (st.record e) := by
  rw [Status.record]
  split
  · next herr => exact { h with noError := fun hn => absurd herr (by simp [show st.err = false from hn]) }
  · exact { h with noError := by rintro ⟨⟩, someError := fun _ => errorCode_range e }

theorem write (h : StatusInv p nch st) (v : Word) : StatusInv p nch (st.write v) := by
  rw [Status.write]
  split
  · exact { h with noError := fun _ => ⟨rfl, rfl⟩, someError := by rintro ⟨⟩ }
  · exact h

/-- A pending command excludes FATAL. -/
theorem fatal_of_busy (h : StatusInv p nch st) (hb : st.busy = true) : st.fatal = false := by
  by_contra hf
  rw [Bool.not_eq_false] at hf
  rw [(h.fatalStuck hf).2.1] at hb
  cases hb

theorem setBusy (h : StatusInv p nch st) (hf : st.fatal = false) : StatusInv p nch { st with busy := true } :=
  { h with fatalStuck := fun ht => absurd (hf.symm.trans ht) (by decide) }

/-- A successful RESET, which only a command pending with no FATAL can be. -/
theorem setInit (h : StatusInv p nch st) (hf : st.fatal = false) {n : Nat} (h1 : 1 ≤ n) (h16 : n ≤ 16) :
    StatusInv p n { st with init := true } :=
  { h with
    nchInit := fun _ => ⟨h1, h16⟩
    nchNone := by rintro ⟨⟩
    fatalStuck := fun ht => absurd (hf.symm.trans ht) (by decide) }

/-- A RESET that draws a failure. -/
theorem setFatal (h : StatusInv p nch st) (hi : st.init = false) (hm : p.initMayFail = true) :
    StatusInv p nch { st with fatal := true, busy := false } :=
  { h with fatalStuck := fun _ => ⟨hi, rfl, hm⟩ }

end StatusInv

/-! ## The invariants of the buffer memory -/

/-- What `Instance.Inv` says of the buffer memory. -/
structure Memory.Inv (nmax : Nat) (m : Memory) : Prop where
  wf : Memory.Wf m
  words : ∀ a, (Memory.get m a).isSome → IsBufferWord nmax (a - a % 4) ∧ (Memory.word m (a - a % 4)).isSome

theorem Instance.Inv.memInv {p : Params} {u : Instance} (h : u.Inv p) : Memory.Inv p.nmax u.mem := ⟨h.memWf, h.memWords⟩

theorem Instance.Inv.withMem {p : Params} {u : Instance} {m : Memory} (h : u.Inv p) (hm : Memory.Inv p.nmax m) :
    Instance.Inv p { u with mem := m } :=
  { h with memWf := hm.wf, memWords := hm.words }

theorem memoryInv_nil (nmax : Nat) : Memory.Inv nmax [] := ⟨List.Pairwise.nil, by rintro a ⟨⟩⟩

theorem IsBufferWord.aligned {nmax a : Nat} (h : IsBufferWord nmax a) : a % 4 = 0 := by
  obtain ⟨k, -, rfl⟩ | ⟨c, k, -, -, rfl⟩ := h
  · simp only [inAddr]; omega
  · simp only [outAddr]; omega

/-- A buffer word is written whole: the word of a written byte is the one just written, or one disjoint from it. -/
theorem Memory.Inv.setWord {nmax a : Nat} {m : Memory} (h : Memory.Inv nmax m) (ha : IsBufferWord nmax a) (v : Word) :
    Memory.Inv nmax (Memory.setWord m a v) where
  wf := Memory.wf_setWord m a v h.wf
  words b hb := by
    have hal := ha.aligned
    by_cases hba : b - b % 4 = a
    · rw [hba, Memory.word_setWord m a v h.wf]
      exact ⟨ha, rfl⟩
    · rw [Memory.get_setWord_ne m v (by omega)] at hb
      rw [Memory.word_setWord_of_ne m a _ v h.wf (by omega)]
      exact h.words b hb

theorem Memory.Inv.mixSamples {nmax n c step : Nat} {u : Instance} {m : Memory} (h : Memory.Inv nmax m) (hc : c < 16)
    (hn : n ≤ nmax) : Memory.Inv nmax (forUp (mixSample step n c u) n m) :=
  forUp_induction h fun k _ hk hm => hm.setWord (.inr ⟨c, k, hc, by omega, rfl⟩) _

/-! ## Power-on and RESET -/

theorem inUnit_zero : InUnit 0 := ⟨0, by decide +kernel, by decide +kernel⟩

theorem inTwo_zero : InTwo 0 := ⟨0, by decide +kernel, by decide +kernel⟩

theorem isFinite32_of_mem_zeros {n : Nat} {g : F32} (h : g ∈ List.replicate n (0 : F32)) : isFinite32 g = true := by
  rw [List.eq_of_mem_replicate h]; decide +kernel

/-- The pipeline's RESET values (R44) meet the invariants, whatever stood before them. -/
theorem inv_resetValues {p : Params} {u : Instance} {st : Status} {n : Nat} (hst : StatusInv p n st)
    (hm : Memory.Inv p.nmax u.mem) : Instance.Inv p { resetInstance p.nmax n u with status := st } where
  ringLen := List.length_replicate
  analyticLen := List.length_replicate
  accumLen := List.length_replicate
  stageLen := List.length_replicate
  outdataLen := List.length_replicate
  rawLen := List.length_replicate
  currentLen := List.length_replicate
  targetLen := List.length_replicate
  countLow := le_rfl
  countHigh := (by decide : 768 ≤ 1023)
  accumTail := fun k _ => cget_replicate 2048 k
  stageTail := fun k _ => cget_replicate 1024 k
  freq := inUnit_zero
  phase := inTwo_zero
  nchInit := hst.nchInit
  nchNone := hst.nchNone
  noError := hst.noError
  someError := hst.someError
  fatalStuck := hst.fatalStuck
  currentFinite := fun _ => isFinite32_of_mem_zeros
  targetFinite := fun _ => isFinite32_of_mem_zeros
  memWf := hm.wf
  memWords := hm.words

/-- The power-on values are RESET's, with STATUS 0 and no channel. -/
theorem Instance.AtPowerOn.inv {p : Params} {u : Instance} (h : u.AtPowerOn p.nmax) : u.Inv p := by
  rw [h]
  exact inv_resetValues (u := { Instance.powerOn p.nmax with
    pcmd := u.pcmd, pfreq := u.pfreq, pgain := u.pgain, delay := u.delay }) (statusInv_powerOn p) (memoryInv_nil _)

/-- RESET succeeds on 1..16 channels when no failure is drawn (R212). -/
theorem execReset_success {s : State} {n : Nat} (h1 : 1 ≤ n) (h16 : n ≤ 16) (hf : resetFails s = false) :
    execReset n s =
      .next ((if resetMayFail s then s.drawn else s).complete (resetInstance s.cfg.nmax n s.inst)) := by
  have hn : checkNch n = none := if_neg (by omega)
  simp only [execReset, hn, hf, Bool.false_eq_true, if_false]

/-- What a RESET that completes leaves is R44's table. -/
theorem complete_resetInstance_atReset (s : State) (u : Instance) (nmax n : Nat) :
    (s.complete (resetInstance nmax n u)).inst.AtReset nmax n := by
  constructor <;> rfl

/-! ## The pipeline -/

section Pipeline

variable {p : Params} {u : Instance}

theorem window_inv (step k : Nat) (h : u.Inv p) : (window p step k u).Inv p :=
  { h with analyticLen := length_window .. }

theorem hilbertStep_inv (step k : Nat) (h : u.Inv p) : (hilbertStep p step k u).Inv p :=
  { h with analyticLen := length_hilbert .. }

theorem accumulate_inv (step k : Nat) (h : u.Inv p) : (accumulate p step k u).Inv p :=
  { h with
    accumLen := length_accumulate ..
    accumTail := fun j hj => by
      rw [accumulate_entry, if_neg (by omega), h.accumTail j hj, ite_self] }

theorem outStageStep_inv (h : u.Inv p) : (outStageStep u).Inv p :=
  { h with
    stageLen := length_outStageStep ..
    stageTail := fun j hj => by
      rw [outStageStep_entry, if_neg (by omega), h.stageTail j hj, ite_self] }

theorem accShift_inv (h : u.Inv p) : (accShift u).Inv p :=
  { h with
    accumLen := length_accShift ..
    accumTail := fun j hj => by
      rw [accShift_entry, h.accumTail (j + 256) (by omega), ite_self] }

theorem ringShift_inv (h : u.Inv p) : (ringShift u).Inv p :=
  { h with ringLen := length_ringShift .. }

theorem Instance.Inv.withCount (h : u.Inv p) {c : Nat} (h1 : 768 ≤ c) (h2 : c ≤ 1023) :
    Instance.Inv p { u with count := c } :=
  { h with countLow := h1, countHigh := h2 }

theorem boundary_inv (step k : Nat) (h : u.Inv p) : (boundary p step k u).Inv p := by
  have hwindow := window_inv step k (h.withCount (c := 768) le_rfl (by decide))
  have haccum := accumulate_inv step k (hilbertStep_inv step k hwindow)
  exact ringShift_inv (accShift_inv (outStageStep_inv haccum))

/-- A stored sample, but for the cursor, which may have reached the boundary. -/
theorem pushSample_inv (k : Nat) (x : F32) (h : u.Inv p) {c : Nat} (h1 : 768 ≤ c) (h2 : c ≤ 1023) :
    Instance.Inv p { pushSample k x u with count := c } :=
  { h.withCount h1 h2 with
    ringLen := List.length_set.trans h.ringLen
    outdataLen := List.length_set.trans h.outdataLen }

/-- A boundary sets the cursor, whatever it was. -/
theorem boundary_withCount (p : Params) (step k : Nat) (u : Instance) (c : Nat) :
    boundary p step k { u with count := c } = boundary p step k u := rfl

theorem push_inv (step k : Nat) (h : u.Inv p) : (push p step k u).Inv p := by
  obtain ⟨hc, e⟩ | ⟨-, e⟩ := pushValue_cases p step k (Memory.sample u.mem (inAddr k)) u <;> rw [push, e]
  · have := h.countLow
    have := h.countHigh
    exact pushSample_inv k _ h (c := u.count + 1) (by omega) (by omega)
  · rw [← boundary_withCount p step k _ 768]
    exact boundary_inv step k (pushSample_inv k (Memory.sample u.mem (inAddr k)) h (c := 768) le_rfl (by decide))

/-- R184 over one sample: a phase below 2 is wrapped below 1, and the frequency advances it to below 2 again. -/
theorem modulate_inv (step k : Nat) (h : u.Inv p) : (modulate p step k u).Inv p :=
  { h with
    rawLen := List.length_set.trans h.rawLen
    phase := advance_inTwo step k (wrapPhase_inUnit step k h.phase) h.freq }

theorem isFinite32_getD {l : List F32} (h : ∀ g ∈ l, isFinite32 g = true) (c : Nat) : isFinite32 (l.getD c 0) = true := by
  rw [List.getD_eq_getElem?_getD]
  rcases hc : l[c]? with _ | g
  · decide +kernel
  · exact h g (List.mem_of_getElem? hc)

theorem isFinite32_of_mem_set {l : List F32} (h : ∀ g ∈ l, isFinite32 g = true) {c : Nat} {x : F32}
    (hx : isFinite32 x = true) : ∀ g ∈ l.set c x, isFinite32 g = true := fun g hg => by
  rcases List.mem_or_eq_of_mem_set hg with hg | rfl
  · exact h g hg
  · exact hx

theorem mix_inv {n c : Nat} (step : Nat) (hn : n ≤ p.nmax) (hc : c < 16) (h : u.Inv p) : (mix step n c u).Inv p :=
  { h.withMem (h.memInv.mixSamples (step := step) (u := u) hc hn) with
    currentLen := List.length_set.trans h.currentLen
    currentFinite := isFinite32_of_mem_set h.currentFinite (isFinite32_getD h.targetFinite c) }

theorem processBlock_inv {n : Nat} (step : Nat) (hn : n ≤ p.nmax) (hnch : u.nch ≤ 16) (h : u.Inv p) :
    (processBlock p step n u).Inv p := by
  have hpush : (pushPhase p step n u).Inv p := forUp_induction h fun k _ _ => push_inv step k
  have hmod : (modulatePhase p step n (pushPhase p step n u)).Inv p :=
    forUp_induction hpush fun k _ _ => modulate_inv step k
  exact forUp_induction hmod fun c _ hc => mix_inv step hn (by omega)

/-! ## SET_SHIFT and SET_GAIN -/

/-- An accepted frequency is stored as one in [0, 1), a zero as +0.0 (R213). -/
theorem storedFreq_inUnit {f : F64} (h : badFreq f = false) : InUnit (storedFreq f) := by
  have hzero : view64 0 = .fin false 0 := by decide +kernel
  have hone : view64 one64 = .fin false (2 ^ 1074) := by decide +kernel
  simp only [badFreq, Bool.or_eq_false_iff, Bool.not_eq_false'] at h
  obtain ⟨⟨hfin, hge⟩, hlt⟩ := h
  rcases hf : view64 f with _ | _ | ⟨neg, m⟩
  · simp [isFinite64, hf] at hfin
  · simp [isFinite64, hf] at hfin
  · rw [ge64, hf, hzero] at hge
    rw [ge64, hf, hone] at hlt
    simp only [storedFreq, isZero64, hf, decide_eq_true_eq]
    split
    · exact inUnit_zero
    · next hm =>
      cases neg with
      | false =>
        rw [Fp.ge_pos, decide_eq_false_iff_not] at hlt
        exact ⟨m, hf, Nat.lt_of_not_le hlt⟩
      | true =>
        -- below zero
        simp only [Fp.ge, signed, decide_eq_true_eq, if_true] at hge
        omega

theorem shiftInstance_inv {dir : Dir} (hd : checkShift dir u.pfreq = none) (h : u.Inv p) :
    (shiftInstance dir u).Inv p := by
  have hfreq (hb : (if badFreq u.pfreq then some ErrorName.badFreq else none) = none) : InUnit (storedFreq u.pfreq) :=
    storedFreq_inUnit (by simpa using hb)
  cases dir with
  | off => exact { h with freq := inUnit_zero, phase := inTwo_zero }
  | up => exact { h with freq := hfreq hd }
  | down => exact { h with freq := hfreq hd }
  | reserved => exact h

theorem setGain_inv {ch : Nat} {g : F32} (hg : isFinite32 g = true) (h : u.Inv p) :
    Instance.Inv p { u with target := u.target.set ch g } :=
  { h with
    targetLen := List.length_set.trans h.targetLen
    targetFinite := isFinite32_of_mem_set h.targetFinite hg }

end Pipeline

/-! ## The machine's operations -/

section Machine

variable {s t : State}

theorem State.Inv.inst (h : s.Inv) : s.inst.Inv s.cfg := h.2 _ (by simp [State.instances])

/-- The invariant is about the parameters and the instances alone. -/
theorem State.Inv.of_instances (h : s.Inv) (hcfg : t.cfg = s.cfg) (hinst : t.instances = s.instances) : t.Inv := by
  rw [State.Inv, hcfg, hinst]; exact h

theorem State.Inv.withInst (h : s.Inv) {u : Instance} (hu : u.Inv s.cfg) : (s.withInst u).Inv := by
  refine ⟨h.1, fun v hv => ?_⟩
  rcases List.mem_append.mp hv with hv | hv
  · exact h.2 v (List.mem_append_left _ hv)
  · rcases List.mem_cons.mp hv with rfl | hv
    · exact hu
    · exact h.2 v (List.mem_append_right _ (List.mem_cons_of_mem _ hv))

theorem State.Inv.complete (h : s.Inv) {u : Instance} (hu : u.Inv s.cfg) : (s.complete u).Inv :=
  h.withInst (hu.withStatus hu.statusInv.idle)

theorem State.Inv.raise (h : s.Inv) (e : ErrorName) : (s.raise e).Inv :=
  h.withInst (h.inst.withStatus (h.inst.statusInv.record e).idle)

theorem State.Inv.drawn (h : s.Inv) : s.drawn.Inv := h.of_instances rfl rfl

theorem State.Inv.tick (h : s.Inv) : s.tick.Inv := by
  refine ⟨h.1, fun v hv => ?_⟩
  rw [State.tick_instances] at hv
  obtain ⟨u, hu, rfl⟩ := List.mem_map.mp hv
  exact { h.2 u hu with }

theorem State.Inv.answered (h : s.Inv) (rest : List HostOp) (vs : List Word) : (s.answered rest vs).Inv :=
  h.of_instances rfl rfl

/-! ## Engine steps -/

/-- A command that passes its checks runs after INIT, and passed its own. -/
theorem requireInit_none {st : Status} {own : Option ErrorName} (h : requireInit st own = none) :
    st.init = true ∧ own = none := by
  rw [requireInit] at h
  split at h
  · next hi => exact ⟨hi, h⟩
  · cases h

theorem execReset_inv {n : Nat} (h : s.Inv) (hb : s.inst.status.busy = true) (he : execReset n s = .next t) : t.Inv := by
  obtain ⟨-, rfl⟩ | ⟨-, -, hf, rfl⟩ | ⟨h1, h16, -, rfl⟩ := execReset_cases he
  · exact h.raise _
  · have hmay : s.cfg.initMayFail = true ∧ s.inst.status.init = false := by
      simp only [resetFails, resetMayFail, Bool.and_eq_true, Bool.not_eq_true'] at hf
      exact hf.1
    have hst := (h.inst.statusInv.setFatal hmay.2 hmay.1).record .initFailed
    rw [State.raise, Status.idle_record]
    exact h.drawn.withInst (h.inst.withStatus hst)
  · have hst := h.inst.statusInv.setInit (h.inst.statusInv.fatal_of_busy hb) h1 h16
    have hs : State.Inv (if resetMayFail s then s.drawn else s) := by
      split
      · exact h.drawn
      · exact h
    refine hs.complete ?_
    rw [show (if resetMayFail s then s.drawn else s).cfg = s.cfg by split <;> rfl]
    exact inv_resetValues hst h.inst.memInv

theorem execSetShift_inv {dir : Dir} (h : s.Inv) (he : execSetShift dir s = .next t) : t.Inv := by
  obtain ⟨e, -, rfl⟩ | ⟨hok, rfl⟩ := execSetShift_cases he
  · exact h.raise e
  · exact h.complete (shiftInstance_inv (requireInit_none hok).2 h.inst)

theorem execSetGain_inv {ch : Nat} (h : s.Inv) (he : execSetGain ch s = .next t) : t.Inv := by
  obtain ⟨e, -, rfl⟩ | ⟨hok, rfl⟩ := execSetGain_cases he
  · exact h.raise e
  · have hg : isFinite32 s.inst.pgain = true := by
      have hown := (requireInit_none hok).2
      simp only [checkGain] at hown
      split at hown
      · cases hown
      · simpa using hown
    exact h.complete (setGain_inv hg h.inst)

theorem execProcess_inv {n : Nat} (h : s.Inv) (he : execProcess n s = .next t) : t.Inv := by
  obtain ⟨e, -, rfl⟩ | ⟨hok, -, rfl⟩ := execProcess_cases he
  · exact h.raise e
  · obtain ⟨hinit, hown⟩ := requireInit_none hok
    have hn : ¬ (n = 0 ∨ s.cfg.nmax < n) := by simpa [checkLength] using hown
    have hle : n ≤ s.cfg.nmax := by omega
    exact h.drawn.complete (processBlock_inv s.draws hle (h.inst.nchInit hinit).2 h.inst)

theorem exec_inv {i : Instr} (h : s.Inv) (hb : s.inst.status.busy = true) (he : exec i s = .next t) : t.Inv := by
  cases i with
  | nop => cases he; exact h.complete h.inst
  | reset n => exact execReset_inv h hb he
  | setShift dir => exact execSetShift_inv h he
  | setGain ch => exact execSetGain_inv h he
  | process n => exact execProcess_inv h he

theorem engineStep_inv (h : s.Inv) (hb : s.inst.status.busy = true) (he : engineStep s = .next t) : t.Inv := by
  obtain ⟨-, e⟩ | ⟨-, e⟩ | ⟨i, -, e⟩ := engineStep_cases s <;> rw [e] at he
  · cases he; exact h.raise _
  · cases he; exact h.raise _
  · exact exec_inv h hb he

/-! ## Host transactions -/

theorem select_inv {addr : Nat} (h : s.Inv) (he : s.select addr = .ok t) : t.Inv ∧ t.cfg = s.cfg := by
  rw [State.select] at he
  split at he
  · cases he
  · split at he
    · cases he
    · next hf =>
      cases he
      obtain ⟨hinst, -, hcfg, -⟩ := focus_spec hf
      exact ⟨h.of_instances hcfg hinst, hcfg⟩

theorem hostRead_inv {addr size : Nat} {v : Word} (h : s.Inv) (he : s.hostRead addr size = .ok (v, t)) : t.Inv := by
  rw [State.hostRead] at he
  split at he
  · cases he
  · next hs =>
    split at he
    · cases he
    · cases he; exact (select_inv h hs).1

/-- A target that is in the buffers is one of their words. -/
def Target.InBuffers (nmax : Nat) : Target → Prop
  | .inBuf k => IsBufferWord nmax (inAddr k)
  | .outBuf c k => IsBufferWord nmax (outAddr c k)
  | _ => True

theorem lowRegister_inBuffers (nmax : Nat) {i : Nat} {tg : Target} (h : lowRegister i = some tg) : tg.InBuffers nmax := by
  unfold lowRegister at h
  split at h <;> cases h <;> trivial

/-- The address map (R63) names buffer words below NMAX only, of sixteen channels. -/
theorem mapOffset_inBuffers {nmax off : Nat} {tg : Target} (h : mapOffset nmax off = some tg) : tg.InBuffers nmax := by
  rw [mapOffset] at h
  split_ifs at h with _ _ _ _ _ hk _ hoff hk
  · exact lowRegister_inBuffers nmax h
  · cases h; trivial
  · cases h; trivial
  · cases h
    exact .inl ⟨_, hk, rfl⟩
  · cases h
    exact .inr ⟨_, _, by omega, hk, rfl⟩

theorem target_inBuffers {nmax off size : Nat} {tg : Target} (h : target nmax off size = some tg) : tg.InBuffers nmax := by
  rw [target] at h
  split at h
  · exact mapOffset_inBuffers h
  · cases h

theorem cmdWrite_inv {p : Params} {u : Instance} (step : Nat) (w : Word) (h : u.Inv p) : (cmdWrite step w u).Inv p := by
  rw [cmdWrite]
  split
  · exact h.withStatus (h.statusInv.record _)
  · next hf =>
    split
    · exact h.withStatus (h.statusInv.record _)
    · exact { h.withStatus (h.statusInv.setBusy (by simpa using hf)) with }

theorem busWrite_inv {p : Params} {u u' : Instance} {step off size : Nat} {v : Word} (h : u.Inv p)
    (he : busWrite p.nmax step off size v u = .ok u') : u'.Inv p := by
  rw [busWrite] at he
  split at he
  · cases he
  · next tg htg =>
    cases tg with
    | cmd => cases he; exact cmdWrite_inv step v h
    | status => cases he; exact h.withStatus (h.statusInv.write v)
    | inBuf k =>
      rw [writeTarget] at he
      split at he <;> cases he
      exact h.withMem (h.memInv.setWord (target_inBuffers htg) v)
    | outBuf c k =>
      rw [writeTarget] at he
      split at he <;> cases he
      exact h.withMem (h.memInv.setWord (target_inBuffers htg) v)
    | _ => cases he; exact { h with }

theorem hostWrite_inv {addr size : Nat} {v : Word} (h : s.Inv) (he : s.hostWrite addr size v = .ok t) : t.Inv := by
  rw [State.hostWrite] at he
  split at he
  · cases he
  · next s' hs =>
    obtain ⟨h', hcfg⟩ := select_inv h hs
    split at he
    · cases he
    · next u hu =>
      cases he
      rw [← hcfg] at hu
      exact h'.withInst (busWrite_inv h'.inst hu)

theorem hostStep_inv {op : HostOp} {rest : List HostOp} (h : s.Inv) (he : hostStep op rest s = .next t) : t.Inv := by
  cases op with
  | read addr size =>
    rw [hostStep] at he
    split at he
    · cases he
    · next hr => cases he; exact (hostRead_inv h.tick hr).answered _ _
  | write addr size v =>
    rw [hostStep] at he
    split at he
    · cases he
    · next hw => cases he; exact (hostWrite_inv h.tick hw).answered _ _
  | poll i =>
    rw [hostStep] at he
    split at he
    · cases he
    · next hr => cases he; exact (hostRead_inv h.tick hr).answered _ _

theorem step_inv (h : s.Inv) (he : step s = .next t) : t.Inv := by
  obtain ⟨s', hn, e⟩ | ⟨op, rest, -, -, e⟩ | ⟨-, -, e⟩ := step_cases s <;> rw [e] at he
  · obtain ⟨hinst, hcfg, -, -, -, hr⟩ := nextEngine_spec hn
    exact engineStep_inv (h.of_instances hcfg hinst) ((ready_iff s s'.inst).mp hr).1 he
  · exact hostStep_inv h he
  · cases he; exact h

end Machine

/-! ## The leftover of AnalyticBlock -/

/-- `v` is `u` but for AnalyticBlock. -/
def Instance.SameButAnalytic (u v : Instance) : Prop := ∃ b, v = { u with analytic := b }

/-- A relation that every pass of a loop keeps, the loop keeps. -/
theorem forUp_rel {α : Type} {R : α → α → Prop} {f : Nat → α → α} (hf : ∀ k x y, R x y → R (f k x) (f k y)) (n : Nat)
    {x y : α} (h : R x y) : R (forUp f n x) (forUp f n y) := by
  induction n with
  | zero => exact h
  | succ n ih => exact hf n _ _ ih

/-- A push that stops before the boundary leaves AnalyticBlock alone, and a boundary writes it before reading it. -/
theorem push_sameButAnalytic (p : Params) (step k : Nat) (u v : Instance) (h : u.SameButAnalytic v) :
    (push p step k u).SameButAnalytic (push p step k v) := by
  obtain ⟨b, rfl⟩ := h
  by_cases hc : u.count + 1 = 1024
  · have e : push p step k { u with analytic := b } = push p step k u := (if_pos hc).trans (if_pos hc).symm
    exact ⟨(push p step k u).analytic, e⟩
  · have e : push p step k u = pushSample k (Memory.sample u.mem (inAddr k)) u := if_neg hc
    exact ⟨b, by rw [e]; exact if_neg hc⟩

theorem modulate_sameButAnalytic (p : Params) (step k : Nat) (u v : Instance) (h : u.SameButAnalytic v) :
    (modulate p step k u).SameButAnalytic (modulate p step k v) := by
  obtain ⟨b, rfl⟩ := h
  exact ⟨b, rfl⟩

theorem mix_sameButAnalytic (step n c : Nat) (u v : Instance) (h : u.SameButAnalytic v) :
    (mix step n c u).SameButAnalytic (mix step n c v) := by
  obtain ⟨b, rfl⟩ := h
  exact ⟨b, rfl⟩

theorem processBlock_sameButAnalytic (p : Params) (step n : Nat) {u v : Instance} (h : u.SameButAnalytic v) :
    (processBlock p step n u).SameButAnalytic (processBlock p step n v) := by
  have hnch : v.nch = u.nch := by obtain ⟨b, rfl⟩ := h; rfl
  have hpush := forUp_rel (push_sameButAnalytic p step) n h
  have hmod := forUp_rel (modulate_sameButAnalytic p step) n hpush
  rw [processBlock, processBlock, hnch]
  exact forUp_rel (mix_sameButAnalytic step n) u.nch hmod

/-! ## The obligations -/

/-- Settles O55: a step is an engine step of a pending instance, whose command keeps every part of the invariants, or a host
transaction, which writes at most STATUS, the staging registers, the latch and whole words of the buffers. -/
theorem stepKeepsInvariant : Obligations.StepKeepsInvariant := fun _ _ h he => step_inv h he

/-- Settles O26: a boundary writes AnalyticBlock before it reads it, and nothing else of a PROCESS reads it. -/
theorem analyticLeftoverIsDead : Obligations.AnalyticLeftoverIsDead := fun p step n _ a =>
  processBlock_sameButAnalytic p step n ⟨a, rfl⟩

/-- Settles O12: with no failure drawn the answer is the reset instance; whether a draw was made shows in the count of
draws alone. -/
theorem resetLeavesResetValues : Obligations.ResetLeavesResetValues := by
  intro s m h1 h16 hf
  refine ⟨_, execReset_success h1 h16 hf, ?_⟩
  refine ⟨complete_resetInstance_atReset _ s.inst s.cfg.nmax m, ?_⟩
  cases resetMayFail s <;> and_intros <;> rfl

/-- Settles O59: the power-on values are RESET's with STATUS 0, no channel and no buffer word written. -/
theorem everyPowerOnMeetsInvariant : Obligations.EveryPowerOnMeetsInvariant := fun _ ⟨hok, _, hu⟩ =>
  ⟨hok, fun u hmem => (hu u hmem).inv⟩

theorem powerOn_reset : PowerOn State.reset :=
  ⟨by decide +kernel, rfl, fun u hu => by rw [List.mem_singleton.mp hu]; rfl⟩

/-- Settles O54: `State.reset` is one of the power-on states. -/
theorem powerOnMeetsInvariant : Obligations.PowerOnMeetsInvariant := everyPowerOnMeetsInvariant _ powerOn_reset

end Sys2Proof.Machine
end

section
/-! PROOFS. The register space of spec/20_memory.md: the address map (R63) leaves unnamed exactly the reserved offsets and the
buffer words at or above NMAX, and a transaction is a bus error there and nowhere else (R67); a host read answers what its
offset holds and leaves every instance as it was (R68, R71). -/

namespace Sys2Proof.Machine

open Sys2Proof Sys2Proof.Config Sys2Proof.Claims

/-! ## The address map -/

/-- The registers end with word 13 (R39). -/
theorem lowRegister_eq_none_iff (i : Nat) : lowRegister i = none ↔ 14 ≤ i := by
  constructor
  · intro h
    by_contra hi
    interval_cases i <;> cases h
  · intro hi
    obtain ⟨j, rfl⟩ := Nat.exists_eq_add_of_le' hi
    rfl

/-- The words of IN_BUF at or above NMAX, by the word index that `mapOffset` takes. -/
theorem beyond_inBuf_iff (nmax off : Nat) :
    (∃ k, nmax ≤ k ∧ k < 2048 ∧ inAddr k ≤ off ∧ off < inAddr k + 4) ↔
      0x2000 ≤ off ∧ off < 0x4000 ∧ nmax ≤ (off - 0x2000) / 4 := by
  simp only [inAddr]
  constructor
  · rintro ⟨k, hk⟩
    omega
  · intro h
    exact ⟨(off - 0x2000) / 4, by omega⟩

/-- The words of OUT_BUF at or above NMAX, by the word index that `mapOffset` takes. -/
theorem beyond_outBuf_iff (nmax off : Nat) :
    (∃ c k, c < 16 ∧ nmax ≤ k ∧ k < 2048 ∧ outAddr c k ≤ off ∧ off < outAddr c k + 4) ↔
      0x10000 ≤ off ∧ off < 0x30000 ∧ nmax ≤ (off - 0x10000) % 0x2000 / 4 := by
  simp only [outAddr]
  constructor
  · rintro ⟨c, k, hck⟩
    omega
  · intro h
    exact ⟨(off - 0x10000) / 0x2000, (off - 0x10000) % 0x2000 / 4, by omega⟩

/-- The address map names every offset but the reserved ones and the buffer words at or above NMAX (R63). -/
theorem mapOffset_eq_none_iff (nmax off : Nat) : mapOffset nmax off = none ↔ Unmapped nmax off := by
  rw [Unmapped, beyond_inBuf_iff, beyond_outBuf_iff, mapOffset]
  split_ifs
  · rw [lowRegister_eq_none_iff]
    omega
  all_goals
    simp only [true_iff, false_iff]
    omega

/-- A transaction reaches a target but for its size, its alignment or its offset (R65, R66, R67). -/
theorem target_eq_none_iff (nmax off size : Nat) :
    target nmax off size = none ↔ size ≠ 4 ∨ off % 4 ≠ 0 ∨ Unmapped nmax off := by
  rw [target, ← mapOffset_eq_none_iff]
  split
  · next h => simp [h]
  · next h => exact iff_of_true rfl (by omega)

/-! ## Bus errors -/

/-- A read that reaches its target is no bus error: its one fault is a word never written (R219). -/
theorem readTarget_ne_busError (nmax step : Nat) (u : Instance) (tg : Target) :
    readTarget nmax step u tg ≠ .error .busError := by
  cases tg with
  | inBuf k => rw [readTarget]; split <;> simp
  | outBuf c k => rw [readTarget]; split <;> simp
  | _ => simp [readTarget]

/-- A write that reaches its target is no bus error: its one fault is the race with the engine (R219). -/
theorem writeTarget_ne_busError (step : Nat) (v : Word) (u : Instance) (tg : Target) :
    writeTarget step v u tg ≠ .error .busError := by
  cases tg with
  | inBuf k => rw [writeTarget]; split <;> simp
  | outBuf c k => rw [writeTarget]; split <;> simp
  | _ => simp [writeTarget]

theorem busRead_eq_busError_iff (nmax step off size : Nat) (u : Instance) :
    busRead nmax step off size u = .error .busError ↔ target nmax off size = none := by
  rw [busRead]
  split
  · next h => exact iff_of_true rfl h
  · next tg h => exact iff_of_false (readTarget_ne_busError nmax step u tg) (by rw [h]; exact Option.some_ne_none tg)

theorem busWrite_eq_busError_iff (nmax step off size : Nat) (v : Word) (u : Instance) :
    busWrite nmax step off size v u = .error .busError ↔ target nmax off size = none := by
  rw [busWrite]
  split
  · next h => exact iff_of_true rfl h
  · next tg h => exact iff_of_false (writeTarget_ne_busError step v u tg) (by rw [h]; exact Option.some_ne_none tg)

/-! ## Host reads -/

section HostRead

variable {s : State} {i off size : Nat} {u : Instance}

/-- Every address but those of `select_outside` is an offset of some instance's register space (R60). -/
theorem exists_address {addr : Nat}
    (h : ¬ (addr < s.cfg.base ∨ s.instances.length ≤ (addr - s.cfg.base) / 0x40000)) :
    ∃ i off u, off < 0x40000 ∧ addr = s.cfg.base + i * 0x40000 + off ∧ s.instances[i]? = some u := by
  have hlt : (addr - s.cfg.base) / 0x40000 < s.instances.length := by omega
  exact ⟨_, (addr - s.cfg.base) % 0x40000, _, by omega, by omega, List.getElem?_eq_getElem hlt⟩

/-- A host read whose offset answers a value is done with it; the instances are put back in
place, one transaction nearer their engine steps (log 6). -/
theorem hostStep_read_ok (rest : List HostOp) (ho : off < 0x40000) (hu : s.instances[i]? = some u) {v : Word}
    (hv : busRead s.cfg.nmax s.draws off size u = .ok v) :
    ∃ t, hostStep (.read (s.cfg.base + i * 0x40000 + off) size) rest s = .next t ∧ t.reads = s.reads ++ [v] ∧
      t.host = rest ∧ t.cfg = s.cfg ∧ t.instances = s.instances.map Instance.tick := by
  have htick : s.tick.instances[i]? = some u.tick := by rw [State.tick_instances, List.getElem?_map, hu]; rfl
  have hinst := (focus_spec (focus_some htick)).1.trans (State.tick_instances s)
  rw [hostStep_read rest ho hu, hv]
  exact ⟨_, rfl, rfl, rfl, rfl, hinst⟩

theorem hostStep_read_error (rest : List HostOp) (ho : off < 0x40000) (hu : s.instances[i]? = some u) {f : Fault}
    (hf : busRead s.cfg.nmax s.draws off size u = .error f) :
    hostStep (.read (s.cfg.base + i * 0x40000 + off) size) rest s = .fault f := by
  rw [hostStep_read rest ho hu, hf]

/-- A host read that answers next belongs to an instance, and its offset there answers a value. -/
theorem hostStep_read_next {addr : Nat} {rest : List HostOp} {t : State}
    (h : hostStep (.read addr size) rest s = .next t) :
    ∃ i off u v, off < 0x40000 ∧ addr = s.cfg.base + i * 0x40000 + off ∧ s.instances[i]? = some u ∧
      busRead s.cfg.nmax s.draws off size u = .ok v := by
  have hin : ¬ (addr < s.cfg.base ∨ s.instances.length ≤ (addr - s.cfg.base) / 0x40000) := fun hout => by
    rw [(hostStep_outside size 0 rest hout).1] at h
    cases h
  obtain ⟨i, off, u, ho, rfl, hu⟩ := exists_address hin
  cases hb : busRead s.cfg.nmax s.draws off size u with
  | ok v => exact ⟨i, off, u, v, ho, rfl, hu, hb⟩
  | error f =>
    rw [hostStep_read_error rest ho hu hb] at h
    cases h

end HostRead

/-! ## The obligations -/

/-- Settles O41: a transaction that reaches a target is never a bus error, and the address map (R63) leaves out exactly the
reserved offsets and the indices at or above NMAX. -/
theorem busErrorsExactly : Obligations.BusErrorsExactly := by
  intro nmax step off size v u _ _
  rw [busRead_eq_busError_iff, busWrite_eq_busError_iff, target_eq_none_iff]
  exact ⟨Iff.rfl, Iff.rfl⟩

/-- Settles O47: a read that answers next is one of an instance's register space, where `busRead` decides the answer and
the instances are put back in place. -/
theorem hostReadHasNoSideEffect : Obligations.HostReadHasNoSideEffect := by
  intro s addr size rest
  refine ⟨fun t ht => ?_, ?_, fun hout => (hostStep_outside size 0 rest hout).1⟩
  · obtain ⟨i, off, u, v, ho, rfl, hu, hv⟩ := hostStep_read_next ht
    obtain ⟨t', ht', hreads, hhost, hcfg, hinst⟩ := hostStep_read_ok rest ho hu hv
    cases ht.symm.trans ht'
    exact ⟨hinst, hcfg, hhost, v, hreads⟩
  · rintro i off u ho rfl hu
    exact ⟨fun v hv => hostStep_read_ok rest ho hu hv, fun f hf => hostStep_read_error rest ho hu hf⟩

end Sys2Proof.Machine
end

section
/-! PROOFS. The encoding of spec/30_encoding.md: a word spells a command exactly when it is the command's opcode followed by
its operand (R90 to R93), every other word is refused by its opcode or by a reserved bit (R94, R95), and the engine refuses
it by that error; the worked encodings (R99); POLL (R98). -/

namespace Sys2Proof

/-! ## Words as numbers -/

/-- How many low bits of a word carry the operand of an opcode (R91); the bits between these and OPC are reserved. -/
def operandBits : Nat → Nat
  | 0 => 0
  | 1 => 5
  | 2 => 2
  | 3 => 5
  | _ => 16

/-- The number in a command's sub-field (R91, R93). -/
def operandOf : Instr → Nat
  | .nop => 0
  | .reset nch => nch
  | .setShift dir => dirCode dir
  | .setGain ch => ch
  | .process n => n

theorem extractLsb'_toNat_eq (w : Word) (start len : Nat) :
    (w.extractLsb' start len).toNat = w.toNat / 2 ^ start % 2 ^ len := by
  rw [BitVec.extractLsb'_toNat, Nat.shiftRight_eq_div_pow]

theorem extractLsb'_ne_zero_iff (w : Word) (start len : Nat) :
    w.extractLsb' start len ≠ 0 ↔ w.toNat / 2 ^ start % 2 ^ len ≠ 0 := by
  rw [Ne, ← BitVec.toNat_inj, extractLsb'_toNat_eq]
  rfl

theorem opcField_eq_div (w : Word) : opcField w = w.toNat / 2 ^ 28 := by
  rw [opcField, extractLsb'_toNat_eq]
  omega

theorem extractLsb'_zero_toNat (w : Word) (len : Nat) : (w.extractLsb' 0 len).toNat = w.toNat % 2 ^ len := by
  rw [extractLsb'_toNat_eq, Nat.pow_zero, Nat.div_one]

theorem opd5_eq_mod (w : Word) : opd5 w = w.toNat % 2 ^ 5 := extractLsb'_zero_toNat w 5

theorem opd2_eq_mod (w : Word) : opd2 w = w.toNat % 2 ^ 2 := extractLsb'_zero_toNat w 2

theorem opd16_eq_mod (w : Word) : opd16 w = w.toNat % 2 ^ 16 := extractLsb'_zero_toNat w 16

theorem dirOf_dirCode (dir : Dir) : dirOf (dirCode dir) = dir := by cases dir <;> rfl

theorem dirCode_dirOf {n : Nat} (h : n < 4) : dirCode (dirOf n) = n := by
  interval_cases n <;> rfl

/-! ## The reserved bits -/

theorem operandBits_le (opc : Nat) : operandBits opc ≤ 28 := by
  unfold operandBits
  split <;> decide

/-- A mask of R92 keeps every bit but the operand's. -/
theorem opcMask_eq_allOnes_shiftLeft {opc : Nat} (h : opc < 5) :
    opcMask opc = BitVec.allOnes 32 <<< operandBits opc := by
  interval_cases opc <;> decide

theorem toNat_and_allOnes_shiftLeft (w : Word) (k : Nat) :
    (w &&& BitVec.allOnes 32 <<< k).toNat = w.toNat / 2 ^ k * 2 ^ k := by
  rw [← BitVec.shiftLeft_ushiftRight, BitVec.toNat_shiftLeft, BitVec.toNat_ushiftRight, Nat.shiftLeft_eq,
    Nat.shiftRight_eq_div_pow]
  exact Nat.mod_eq_of_lt (lt_of_le_of_lt (Nat.div_mul_le_self _ _) w.isLt)

/-- R92's test of a word: below OPC it holds an operand and nothing else. -/
theorem and_opcMask_eq_opcMatch_iff {w : Word} (h : opcField w < 5) :
    w &&& opcMask (opcField w) = opcMatch (opcField w) ↔ w.toNat % 2 ^ 28 < 2 ^ operandBits (opcField w) := by
  have hopc := opcField_eq_div w
  rw [opcMask_eq_allOnes_shiftLeft h, ← BitVec.toNat_inj, toNat_and_allOnes_shiftLeft, opcMatch, BitVec.toNat_ofNat]
  generalize opcField w = opc at h hopc
  interval_cases opc <;> simp only [operandBits] <;> omega

/-- A bit that R90 reserves in every word, or R91 in a word of this opcode, is 1. -/
def ReservedBitSet (w : Word) : Prop :=
  w.extractLsb' 16 12 ≠ 0 ∨ (opcField w = 0 ∧ w.extractLsb' 0 16 ≠ 0) ∨ (opcField w = 1 ∧ w.extractLsb' 5 11 ≠ 0) ∨
    (opcField w = 2 ∧ w.extractLsb' 2 14 ≠ 0) ∨ (opcField w = 3 ∧ w.extractLsb' 5 11 ≠ 0)

theorem not_reservedBitSet_iff {w : Word} (h : opcField w < 5) :
    ¬ ReservedBitSet w ↔ w.toNat % 2 ^ 28 < 2 ^ operandBits (opcField w) := by
  simp only [ReservedBitSet, extractLsb'_ne_zero_iff]
  generalize opcField w = opc at h
  interval_cases opc <;> simp only [operandBits, true_and] <;> omega

/-! ## The answers of the decoder -/

/-- What the decoder answers to any word: R94's tests in order, the opcode first. -/
theorem decode_cases (w : Word) :
    (¬ opcField w < 5 ∧ decode w = .illegalOpcode) ∨
    (opcField w < 5 ∧ ReservedBitSet w ∧ decode w = .reservedBits) ∨
    (opcField w < 5 ∧ ¬ ReservedBitSet w ∧ decode w = .cmd (decodeFields w)) := by
  by_cases hopc : opcField w < 5
  · have hmask := (and_opcMask_eq_opcMatch_iff hopc).trans (not_reservedBitSet_iff hopc).symm
    by_cases hres : ReservedBitSet w
    · exact .inr (.inl ⟨hopc, hres, by rw [decode, if_neg (by omega), if_pos (hmask.not.mpr (not_not.mpr hres))]⟩)
    · exact .inr (.inr ⟨hopc, hres, by rw [decode, if_neg (by omega), if_neg (not_not.mpr (hmask.mpr hres))]⟩)
  · exact .inl ⟨hopc, if_pos (Nat.not_lt.mp hopc)⟩

theorem decode_eq_illegalOpcode_iff (w : Word) : decode w = .illegalOpcode ↔ 5 ≤ opcField w := by
  rw [← Nat.not_lt]
  obtain ⟨hopc, hw⟩ | ⟨hopc, hres, hw⟩ | ⟨hopc, hres, hw⟩ := decode_cases w <;> simp [hopc, hw]

theorem decode_eq_reservedBits_iff (w : Word) : decode w = .reservedBits ↔ opcField w < 5 ∧ ReservedBitSet w := by
  obtain ⟨hopc, hw⟩ | ⟨hopc, hres, hw⟩ | ⟨hopc, hres, hw⟩ := decode_cases w <;> simp [*]

theorem decode_eq_cmd_iff_decodeFields (w : Word) (i : Instr) :
    decode w = .cmd i ↔ (opcField w < 5 ∧ ¬ ReservedBitSet w) ∧ decodeFields w = i := by
  obtain ⟨hopc, hw⟩ | ⟨hopc, hres, hw⟩ | ⟨hopc, hres, hw⟩ := decode_cases w <;> simp [*]

/-! ## Commands and their words -/

theorem opcodeOf_lt (i : Instr) : opcodeOf i < 5 := by
  cases i <;> simp [opcodeOf]

theorem operandOf_lt {i : Instr} (h : i.WellFormed) : operandOf i < 2 ^ operandBits (opcodeOf i) := by
  cases i with
  | nop => decide
  | reset nch => exact of_decide_eq_true h
  | setShift dir => cases dir <;> decide
  | setGain ch => exact of_decide_eq_true h
  | process n => exact of_decide_eq_true h

/-- An opcode and an operand belong to one command. -/
theorem eq_of_opcodeOf_of_operandOf {i j : Instr} (hopc : opcodeOf i = opcodeOf j) (hopd : operandOf i = operandOf j) :
    i = j := by
  cases i <;> cases j <;> cases hopc
  case nop => rfl
  case setShift d e => rw [← dirOf_dirCode d, ← dirOf_dirCode e, show dirCode d = dirCode e from hopd]
  all_goals exact congrArg _ hopd

theorem decodeFields_spec {w : Word} (h : opcField w < 5) :
    (decodeFields w).WellFormed ∧ opcodeOf (decodeFields w) = opcField w ∧
      operandOf (decodeFields w) = w.toNat % 2 ^ operandBits (opcField w) := by
  rw [decodeFields]
  split_ifs with h0 h1 h2 h3
  · rw [h0]
    exact ⟨rfl, rfl, (Nat.mod_one _).symm⟩
  · rw [h1, opd5_eq_mod]
    exact ⟨decide_eq_true (Nat.mod_lt _ (by decide)), rfl, rfl⟩
  · rw [h2, opd2_eq_mod]
    exact ⟨rfl, rfl, dirCode_dirOf (Nat.mod_lt _ (by decide))⟩
  · rw [h3, opd5_eq_mod]
    exact ⟨decide_eq_true (Nat.mod_lt _ (by decide)), rfl, rfl⟩
  · rw [show opcField w = 4 by omega, opd16_eq_mod]
    exact ⟨decide_eq_true (Nat.mod_lt _ (by decide)), rfl, rfl⟩

/-- With no reserved bit set, the operand is all of the word below OPC. -/
theorem operandOf_decodeFields {w : Word} (hopc : opcField w < 5) (hres : ¬ ReservedBitSet w) :
    operandOf (decodeFields w) = w.toNat % 2 ^ 28 := by
  obtain ⟨-, -, hopd⟩ := decodeFields_spec hopc
  rw [hopd, ← Nat.mod_mod_of_dvd _ (Nat.pow_dvd_pow 2 (operandBits_le _))]
  exact Nat.mod_eq_of_lt ((not_reservedBitSet_iff hopc).mp hres)

/-- A word spells a command exactly when it is the command's opcode in OPC and its operand below. -/
theorem decode_eq_cmd_iff (w : Word) (i : Instr) :
    decode w = .cmd i ↔ i.WellFormed ∧ w.toNat = opcodeOf i * 2 ^ 28 + operandOf i := by
  have hdiv := opcField_eq_div w
  rw [decode_eq_cmd_iff_decodeFields]
  constructor
  · rintro ⟨⟨hopc, hres⟩, rfl⟩
    obtain ⟨hwf, hop, -⟩ := decodeFields_spec hopc
    have hopd := operandOf_decodeFields hopc hres
    exact ⟨hwf, by omega⟩
  · rintro ⟨hi, hw⟩
    have hlt := operandOf_lt hi
    have hle := Nat.pow_le_pow_right (show 0 < 2 by decide) (operandBits_le (opcodeOf i))
    have hop : opcField w = opcodeOf i := by omega
    have hopc : opcField w < 5 := hop ▸ opcodeOf_lt i
    have hres : ¬ ReservedBitSet w := (not_reservedBitSet_iff hopc).mpr (by rw [hop]; omega)
    obtain ⟨-, hop', -⟩ := decodeFields_spec hopc
    have hopd := operandOf_decodeFields hopc hres
    exact ⟨⟨hopc, hres⟩, eq_of_opcodeOf_of_operandOf (hop'.trans hop) (by omega)⟩

/-- The word of a command in the terms of the opcode map (R92). -/
theorem encode_eq_opcMatch_or (i : Instr) : encode i = opcMatch (opcodeOf i) ||| BitVec.ofNat 32 (operandOf i) := by
  cases i with
  | nop => decide
  | reset nch => exact congrArg (· ||| BitVec.ofNat 32 nch) (show 0x10000000#32 = opcMatch 1 by decide)
  | setShift dir => exact congrArg (· ||| BitVec.ofNat 32 (dirCode dir)) (show 0x20000000#32 = opcMatch 2 by decide)
  | setGain ch => exact congrArg (· ||| BitVec.ofNat 32 ch) (show 0x30000000#32 = opcMatch 3 by decide)
  | process n => exact congrArg (· ||| BitVec.ofNat 32 n) (show 0x40000000#32 = opcMatch 4 by decide)

theorem encode_toNat {i : Instr} (h : i.WellFormed) : (encode i).toNat = opcodeOf i * 2 ^ 28 + operandOf i := by
  have hopd : operandOf i < 2 ^ 28 :=
    lt_of_lt_of_le (operandOf_lt h) (Nat.pow_le_pow_right (by decide) (operandBits_le _))
  have hopc := opcodeOf_lt i
  rw [encode_eq_opcMatch_or, BitVec.toNat_or, opcMatch, BitVec.toNat_ofNat, BitVec.toNat_ofNat,
    Nat.mod_eq_of_lt (by omega), Nat.mod_eq_of_lt (by omega), Nat.mul_comm, Nat.mul_comm _ (2 ^ 28)]
  exact (Nat.two_pow_add_eq_or_of_lt hopd _).symm

/-! ## The obligations -/

/-- Settles O1: the word of a well-formed command is its opcode in OPC and its operand below. -/
theorem decodeOfEncode : Obligations.DecodeOfEncode := fun i hi =>
  (decode_eq_cmd_iff (encode i) i).mpr ⟨hi, encode_toNat hi⟩

/-- Settles O2: a word that spells a command is, as a number, the command's own word. -/
theorem encodeOfDecode : Obligations.EncodeOfDecode := fun w i hw => by
  obtain ⟨hi, hnat⟩ := (decode_eq_cmd_iff w i).mp hw
  exact ⟨hi, BitVec.eq_of_toNat_eq ((encode_toNat hi).trans hnat.symm)⟩

/-- Settles O3: the decoder tests the opcode first, then the bits its masks keep, which are OPC and the reserved bits. -/
theorem decodeTotal : Obligations.DecodeTotal := fun w => by
  refine ⟨decode_eq_illegalOpcode_iff w, decode_eq_reservedBits_iff w, ?_⟩
  simp only [decode_eq_cmd_iff_decodeFields, exists_and_left, exists_eq', and_true]
  exact Iff.rfl

end Sys2Proof

namespace Sys2Proof.Machine

open Sys2Proof Sys2Proof.Config Sys2Proof.Claims

/-! ## Refusals -/

/-- Recording an error and clearing BUSY is the whole of a refusal (R253). -/
theorem raise_eq_refusedWith (e : ErrorName) (s : State) : s.raise e = refusedWith (errorCode e) s := by
  by_cases herr : s.inst.status.err = true
  · rw [State.raise, Status.record, refusedWith, if_pos herr, if_pos herr]
    rfl
  · rw [State.raise, Status.record, refusedWith, if_neg herr, if_neg herr]
    rfl

/-- The served instance's own engine step comes first (R220; the moment is log 6). -/
theorem step_of_ready {s : State} (h : s.ready s.inst = true) : step s = engineStep s := by
  rw [step, State.nextEngine, if_pos h]

theorem engineStep_of_illegalOpcode {s : State} (h : decode s.inst.pcmd = .illegalOpcode) :
    engineStep s = .next (refusedWith 1 s) := by
  have hraise : engineStep s = .next (s.raise .illegalOpcode) := by rw [engineStep, h]
  exact hraise.trans (congrArg _ (raise_eq_refusedWith .illegalOpcode s))

theorem engineStep_of_reservedBits {s : State} (h : decode s.inst.pcmd = .reservedBits) :
    engineStep s = .next (refusedWith 2 s) := by
  have hraise : engineStep s = .next (s.raise .reservedBits) := by rw [engineStep, h]
  exact hraise.trans (congrArg _ (raise_eq_refusedWith .reservedBits s))

theorem exec_setShift_reserved {s : State} (h : s.inst.status.init = true) :
    exec (.setShift .reserved) s = .next (refusedWith 5 s) := by
  have hraise : exec (.setShift .reserved) s = .next (s.raise .badDir) := by
    rw [exec, execSetShift, requireInit, if_pos h, checkShift]
  exact hraise.trans (congrArg _ (raise_eq_refusedWith .badDir s))

theorem exec_process_zero {s : State} (h : s.inst.status.init = true) :
    exec (.process 0) s = .next (refusedWith 9 s) := by
  have hraise : exec (.process 0) s = .next (s.raise .badLength) := by
    rw [exec, execProcess, requireInit, if_pos h, checkLength, if_pos (.inl rfl)]
  exact hraise.trans (congrArg _ (raise_eq_refusedWith .badLength s))

/-! ## POLL -/

theorem getLsbD_one_append_ofBool {n : Nat} (x : BitVec n) (b c : Bool) :
    (x ++ BitVec.ofBool b ++ BitVec.ofBool c).getLsbD 1 = b := by
  rw [BitVec.getLsbD_append, BitVec.getLsbD_append]
  cases b <;> rfl

/-- BUSY is bit 1 of STATUS (R31). -/
theorem Status.word_busy (st : Status) : st.word.getLsbD 1 = st.busy :=
  getLsbD_one_append_ofBool _ st.busy st.init

theorem busRead_status (nmax step : Nat) (u : Instance) : busRead nmax step 0x00C 4 u = .ok u.status.word := rfl

theorem hostRead_of_select {s t : State} {addr size : Nat} {v : Word} (ht : s.select addr = .ok t)
    (hv : busRead s.cfg.nmax s.draws (offsetOf s.cfg.base addr) size t.inst = .ok v) :
    s.hostRead addr size = .ok (v, t) := by
  simp only [State.hostRead, ht, hv]

/-- A host read by the bus address of an offset in an instance's register space (R60). -/
theorem hostRead_of_busRead {s : State} {i off size : Nat} {u : Instance} {v : Word} (ho : off < 0x40000)
    (hu : s.instances[i]? = some u) (hv : busRead s.cfg.nmax s.draws off size u = .ok v) :
    s.hostRead (busAddr s.cfg.base i off) size =
      .ok (v, { s with before := s.instances.take i, inst := u, after := s.instances.drop (i + 1) }) := by
  obtain ⟨-, -, hoff⟩ := address_split s.cfg.base i off ho
  exact hostRead_of_select (select_of_address ho hu) ((congrArg (busRead _ _ · size u) hoff).trans hv)

theorem hostStep_poll_of_hostRead {s t : State} {i : Nat} {v : Word} (rest : List HostOp)
    (h : s.tick.hostRead (busAddr s.cfg.base i 0x00C) 4 = .ok (v, t)) :
    hostStep (.poll i) rest s = .next (t.answered (if v.getLsbD 1 then .poll i :: rest else rest) [v]) := by
  rw [hostStep, h]

/-! ## The obligations -/

/-- Settles O7: an illegal opcode and a reserved bit of a legal one are the two refusals of the decoder. -/
theorem engineRefusesBadWords : Obligations.EngineRefusesBadWords := by
  intro s hbusy hturn
  rw [step_of_ready ((ready_iff s s.inst).mpr ⟨hbusy, hturn⟩)]
  have hres (hopc : opcField s.inst.pcmd < 5) (h : ReservedBitSet s.inst.pcmd) :=
    engineStep_of_reservedBits ((decode_eq_reservedBits_iff _).mpr ⟨hopc, h⟩)
  refine ⟨fun h => engineStep_of_illegalOpcode ((decode_eq_illegalOpcode_iff _).mpr h), fun hopc h => hres hopc (.inl h),
    fun hopc h => hres (hopc.trans_lt (by decide)) ?nop, fun hopc h => hres (hopc.trans_lt (by decide)) ?reset,
    fun hopc h => hres (hopc.trans_lt (by decide)) ?setShift, fun hopc h => hres (hopc.trans_lt (by decide)) ?setGain⟩
  case nop => exact .inr (.inl ⟨hopc, h⟩)
  case reset => exact .inr (.inr (.inl ⟨hopc, h⟩))
  case setShift => exact .inr (.inr (.inr (.inl ⟨hopc, h⟩)))
  case setGain => exact .inr (.inr (.inr (.inr ⟨hopc, h⟩)))

/-- Settles O48: POLL is a host read of STATUS, whose bit 1 is BUSY, and a read puts the instances back in place. -/
theorem pollRepeatsWhileBusy : Obligations.PollRepeatsWhileBusy := by
  intro s rest i u hu
  have htick : s.tick.instances[i]? = some u.tick := by rw [State.tick_instances, List.getElem?_map, hu]; rfl
  have hinst := (focus_spec (focus_some htick)).1.trans (State.tick_instances s)
  have hread := hostRead_of_busRead (by decide) htick (busRead_status _ _ _)
  refine ⟨_, hostStep_poll_of_hostRead rest hread, rfl, ?_, hinst, rfl⟩
  rw [Status.word_busy]
  rfl

/-- Settles O4: the worked words and literals are evaluated; the two refused operands are checked after INIT. -/
theorem workedEncodings : Obligations.WorkedEncodings := by
  refine ⟨by decide, by decide, by decide, by decide, by decide, by decide, by decide, by decide, by decide, by decide,
    by decide, by decide, by decide, by decide, fun s h => ⟨exec_setShift_reserved h, exec_process_zero h⟩, ?_⟩
  decide +kernel

end Sys2Proof.Machine
end

section
/-! PROOFS. The Window ROM of spec/40_window_table.md: every table of the model is symmetric and near the window formula, the
reference procedure (R122) by the sum of its rounding errors and any other by the check of its words; and no step changes the
parameters, so the ROM is constant (R123). -/

namespace Sys2Proof.Machine

open Sys2Proof Sys2Proof.Config

/-! ## The real number of a binary64 -/

/-- The real number a finite binary64 denotes (R8); 0 for a value that is not finite. -/
noncomputable def real64 (x : F64) : ℝ := int64Of x / 2 ^ 1074

theorem two_pow_1074_pos_real : (0 : ℝ) < 2 ^ 1074 := pow_pos two_pos _

theorem int64Of_eq_real64_mul (x : F64) : (int64Of x : ℝ) = real64 x * 2 ^ 1074 :=
  (div_mul_cancel₀ _ two_pow_1074_pos_real.ne').symm

theorem int64Of_of_view {x : F64} {s : Bool} {m : ℕ} (h : view64 x = .fin s m) : int64Of x = signed s m := by
  rw [int64Of, h]

theorem natAbs_int64Of_of_view {x : F64} {s : Bool} {m : ℕ} (h : view64 x = .fin s m) : (int64Of x).natAbs = m := by
  rw [int64Of_of_view h]
  cases s <;> simp [signed]

/-- A finite non-negative number given in units of `2^-k`, for a `k` up to 1074. -/
theorem real64_of_view {x : F64} {n k : ℕ} (hk : k ≤ 1074) (h : view64 x = .fin false (n * 2 ^ (1074 - k))) :
    real64 x = n / 2 ^ k := by
  have hpow : (2 : ℝ) ^ 1074 = 2 ^ k * 2 ^ (1074 - k) := by rw [← pow_add, Nat.add_sub_cancel' hk]
  have hint : (int64Of x : ℝ) = n * 2 ^ (1074 - k) := by rw [int64Of_of_view h]; simp [signed]
  rw [real64, hint, hpow, mul_div_mul_right _ _ (pow_pos two_pos _).ne']

theorem exists_view_of_isFinite64 {x : F64} (h : isFinite64 x = true) : ∃ s m, view64 x = .fin s m := by
  rw [isFinite64] at h
  split at h
  · next s m hv => exact ⟨s, m, hv⟩
  · cases h

/-- Nearness in smallest subnormals is nearness of the real numbers. -/
theorem abs_int64Of_sub_le_iff (x : F64) (v c : ℝ) :
    |(int64Of x : ℝ) - 2 ^ 1074 * v| ≤ 2 ^ 1074 * c ↔ |real64 x - v| ≤ c := by
  rw [int64Of_eq_real64_mul, mul_comm (real64 x), ← mul_sub, abs_mul, abs_of_pos two_pow_1074_pos_real,
    mul_le_mul_iff_right₀ two_pow_1074_pos_real]

theorem abs_real64_le_iff (x : F64) : |real64 x| ≤ 1 ↔ (int64Of x).natAbs ≤ 2 ^ 1074 := by
  rw [real64, abs_div, abs_of_pos two_pow_1074_pos_real, div_le_one two_pow_1074_pos_real, ← Nat.cast_le (α := ℝ),
    Nat.cast_natAbs, Int.cast_abs, Nat.cast_pow, Nat.cast_ofNat]

/-- What R183 allows beside a number, as real numbers. -/
theorem TrigNear.real64_near {x : F64} {v : ℝ} (h : TrigNear x v) : |real64 x| ≤ 1 ∧ |real64 x - v| ≤ 1 / 2 ^ 52 := by
  obtain ⟨-, hone, hnear⟩ := h
  have hpow : (2 : ℝ) ^ 1022 = 2 ^ 1074 * (1 / 2 ^ 52) := by rw [show 1074 = 1022 + 52 from rfl, pow_add]; field_simp
  rw [hpow] at hnear
  exact ⟨(abs_real64_le_iff x).mpr hone, (abs_int64Of_sub_le_iff x v _).mp hnear⟩

/-! ## One rounding -/

theorem finish64_roundsTo (d : Draw) (num : ℕ) {den : ℕ} (hd : 0 < den) :
    RoundsTo ((num : ℝ) / den) (finish64 d (.rat false num den)) := by
  have hdr : (0 : ℝ) < den := by exact_mod_cast hd
  have hnn : (0 : ℝ) ≤ num / den := by positivity
  refine ⟨false, Fmt.roundCode .b64 num den, rfl, iff_of_false Bool.false_ne_true hnn.not_gt, fun a b hb => ?_⟩
  rw [abs_of_nonneg hnn, div_mul_eq_mul_div, le_div_iff₀ hdr, div_le_iff₀ hdr]
  exact ⟨fun h => roundCode_mono_frac _ _ _ _ _ hb hd (by exact_mod_cast h),
    fun h => roundCode_mono_frac _ _ _ _ _ hd hb (by exact_mod_cast h)⟩

/-- The product of two numbers of one sign is their exact product, rounded once. -/
theorem mul64_roundsTo (d : Draw) {x y : F64} {s : Bool} {m n : ℕ} (hx : view64 x = .fin s m) (hy : view64 y = .fin s n) :
    RoundsTo (real64 x * real64 y * 2 ^ 1074) (mul64 d x y) := by
  have hprod : (int64Of x : ℝ) * int64Of y = ((m * n : ℕ) : ℝ) := by
    rw [int64Of_of_view hx, int64Of_of_view hy]
    cases s <;> simp [signed]
  have hval : real64 x * real64 y * 2 ^ 1074 = ((m * n : ℕ) : ℝ) / ((2 ^ 1074 : ℕ) : ℝ) := by
    rw [← hprod, real64, real64, Nat.cast_pow, Nat.cast_ofNat]
    field_simp
  rw [hval, mul64, hx, hy, Fp.mul, Bool.xor_self]
  exact finish64_roundsTo d _ two_pow_1074_pos

/-- A number between 0 and `b`, where `b` is 1 to 2, rounds to within `b` units of `2^-53`. -/
theorem RoundsTo.real64_near {q b : ℝ} {x : F64} (h : RoundsTo (q * 2 ^ 1074) x) (hq : 0 ≤ q) (hqb : q ≤ b) (h1 : 1 ≤ b)
    (h2 : b ≤ 2) : |real64 x - q| ≤ b / 2 ^ 53 := by
  have hv : |q * 2 ^ 1074| = q * 2 ^ 1074 := abs_of_nonneg (mul_nonneg hq two_pow_1074_pos_real.le)
  have hbig : q * 2 ^ 1074 ≤ 2 ^ 2097 := by
    calc q * 2 ^ 1074 ≤ 2 ^ 1023 * 2 ^ 1074 := mul_le_mul_of_nonneg_right
          (hqb.trans (h2.trans (le_self_pow₀ one_le_two (by decide)))) two_pow_1074_pos_real.le
      _ = 2 ^ 2097 := by rw [← pow_add]
  obtain ⟨-, herr⟩ := h.error (hv.trans_le hbig)
  have hunit : (2 : ℝ) ^ 53 ≤ 2 ^ 1074 := pow_le_pow_right₀ one_le_two (by decide)
  rw [← abs_int64Of_sub_le_iff, mul_comm (2 ^ 1074 : ℝ) q]
  refine herr.trans ?_
  rw [hv]
  generalize (2 : ℝ) ^ 1074 = U at hunit
  have hU : 0 ≤ U := le_trans (by positivity) hunit
  have hUb : U ≤ U * b := le_mul_of_one_le_right hU h1
  refine max_le ?_ ?_
  · rw [← mul_div_assoc, le_div_iff₀ (by positivity)]
    linarith
  · rw [← mul_div_assoc, mul_comm q]
    gcongr

/-! ## The words of the reference table -/

/-- The angle of a window word, at most π/2 in the half the ROM holds (R120). -/
noncomputable def windowAngle (i : ℕ) : ℝ := Real.pi * i / 1023

/-- An index is a binary64. -/
theorem view64_index {i : ℕ} (hi : i < 512) : view64 (rne64 false i 1) = .fin false (i * 2 ^ 1074) := by
  obtain ⟨c, hc⟩ := exists_magOf .b64 1074 i (hi.trans (by decide))
  have hfin : c < Fmt.infCode .b64 := by
    by_contra hge
    have hmag := magOf_le .b64 _ c (Nat.le_of_not_lt hge)
    have hinf : 512 * 2 ^ 1074 ≤ Fmt.magOf .b64 (Fmt.infCode .b64) := by decide +kernel
    rw [hc] at hmag
    exact absurd (hinf.trans hmag) (Nat.not_le_of_lt (Nat.mul_lt_mul_of_pos_right hi two_pow_1074_pos))
  rw [rne64_eq ⟨0, .rom, 0, 0⟩, Nat.shiftLeft_eq, ← hc, view64_finish, roundCode_magOf .b64 c hfin, if_pos hfin]

theorem view64_windowScale : view64 windowScale = .fin false (7081152940446845 * 2 ^ (1074 - 61)) := by decide +kernel

/-- The scale of R122 is π/1023 but for less than 1/640 of a unit of `2^-53`. -/
theorem windowScale_near : |real64 windowScale - Real.pi / 1023| ≤ 1 / 640 / 2 ^ 53 := by
  have hlo := Real.pi_gt_d20
  have hhi := Real.pi_lt_d20
  rw [real64_of_view (by decide) view64_windowScale, abs_le]
  constructor <;> norm_num <;> linarith

/-- The reference procedure's angle, at most 2, is in the domain of R183. -/
theorem windowRef_inTrigDomain (d : Draw) {i : ℕ} (hi : i < 512) :
    inTrigDomain (mul64 d (rne64 false i 1) windowScale) = true := by
  have hmag : Fmt.magOf .b64 0x4080000000000000 = 512 * 2 ^ 1074 := by decide +kernel
  have hindex : Small 0x4080000000000000 (rne64 false i 1) :=
    ⟨false, _, view64_index hi, by rw [hmag]; exact Nat.mul_le_mul_right _ hi.le⟩
  have hscale : Small 0x3F692845659D947D windowScale := ⟨false, _, view64_windowScale, by decide +kernel⟩
  obtain ⟨s, m, t, n, k, hx, hy, hv, hk⟩ := small_mul d 0x4000000000000000 (lt_infCode (by decide)) hindex hscale
    (by decide +kernel)
  obtain ⟨rfl, -⟩ := Fp.fin.inj ((view64_index hi).symm.trans hx)
  obtain ⟨rfl, -⟩ := Fp.fin.inj (view64_windowScale.symm.trans hy)
  have hdom : Fmt.magOf .b64 0x4000000000000000 < 2 * int64Of twoPi64 := by decide +kernel
  have hk' : signed false k < 2 * int64Of twoPi64 := lt_of_le_of_lt (Nat.cast_le.mpr hk) hdom
  simp only [inTrigDomain, hv, Bool.xor_self, Bool.not_false, Bool.true_or, Bool.true_and, decide_eq_true_eq]
  exact hk'

/-- The reference procedure's angle is off by the scale's error, as often as the index says, and by one rounding. -/
theorem windowRef_angle_near (d : Draw) {i : ℕ} (hi : i < 512) :
    |real64 (mul64 d (rne64 false i 1) windowScale) - windowAngle i| ≤ (2 + 4 / 5) / 2 ^ 53 := by
  have hround := mul64_roundsTo d (view64_index hi) view64_windowScale
  have hindex : real64 (rne64 false i 1) = i := by
    rw [real64_of_view (Nat.zero_le _) (view64_index hi), pow_zero, div_one]
  have hscale := windowScale_near
  have hi511 : (i : ℝ) ≤ 511 := by exact_mod_cast Nat.le_of_lt_succ hi
  have hi0 : (0 : ℝ) ≤ i := Nat.cast_nonneg i
  rw [hindex] at hround
  generalize real64 windowScale = c at hround hscale
  have hexact : |i * c - windowAngle i| ≤ 4 / 5 / 2 ^ 53 := by
    have hdiff : i * c - windowAngle i = i * (c - Real.pi / 1023) := by rw [windowAngle]; ring
    rw [hdiff, abs_mul, abs_of_nonneg hi0]
    calc i * |c - Real.pi / 1023| ≤ 511 * (1 / 640 / 2 ^ 53) := by gcongr
      _ ≤ 4 / 5 / 2 ^ 53 := by norm_num
  have hpi3 := Real.pi_gt_three
  have hpi4 := Real.pi_le_four
  obtain ⟨hlo, hhi⟩ := abs_le.mp hscale
  have hc0 : 0 ≤ c := by linarith
  have hc : c ≤ 2 / 511 := by linarith
  have hle : i * c ≤ 2 := (mul_le_mul hi511 hc hc0 (by norm_num)).trans (by norm_num)
  have hrounded := hround.real64_near (mul_nonneg hi0 hc0) hle one_le_two le_rfl
  calc _ ≤ |real64 (mul64 d (rne64 false i 1) windowScale) - i * c| + |i * c - windowAngle i| := abs_sub_le ..
    _ ≤ 2 / 2 ^ 53 + 4 / 5 / 2 ^ 53 := add_le_add hrounded hexact
    _ = (2 + 4 / 5) / 2 ^ 53 := by ring

/-- The square of the sine changes no faster than its argument. -/
theorem abs_sin_sq_sub_sin_sq_le (x y : ℝ) : |Real.sin x ^ 2 - Real.sin y ^ 2| ≤ |x - y| := by
  have h := Real.abs_cos_sub_cos_le (2 * y) (2 * x)
  have harg : |2 * y - 2 * x| = 2 * |x - y| := by rw [← mul_sub, abs_mul, abs_two, abs_sub_comm]
  have hcos : Real.sin x ^ 2 - Real.sin y ^ 2 = (Real.cos (2 * y) - Real.cos (2 * x)) / 2 := by
    rw [Real.sin_sq_eq_half_sub, Real.sin_sq_eq_half_sub]; ring
  rw [hcos, abs_div, abs_two]
  linarith

/-- Squares of numbers in [-1, 1] differ by at most twice their difference. -/
theorem abs_sq_sub_sq_le {x y : ℝ} (hx : |x| ≤ 1) (hy : |y| ≤ 1) : |x * x - y ^ 2| ≤ 2 * |x - y| := by
  have hfactor : x * x - y ^ 2 = (x + y) * (x - y) := by ring
  rw [hfactor, abs_mul]
  exact mul_le_mul_of_nonneg_right (by linarith [abs_add_le x y]) (abs_nonneg _)

/-- What R121 says of the value of word `i` of a table, but for its sign: at most 1, and near the formula. -/
def WindowWord (i : ℕ) (w : F64) : Prop :=
  (int64Of w).natAbs ≤ 2 ^ 1074 ∧ |real64 w - Real.sin (windowAngle i) ^ 2| ≤ 1 / 2 ^ 50

/-- The square of a sine in [-1, 1], rounded, is in [0, 1] and near the exact square. -/
theorem square_rounded (d : Draw) {v : F64} (hfin : isFinite64 v = true) (h1 : |real64 v| ≤ 1) :
    (int64Of (mul64 d v v)).natAbs ≤ 2 ^ 1074 ∧ |real64 (mul64 d v v) - real64 v * real64 v| ≤ 1 / 2 ^ 53 := by
  obtain ⟨s, m, hv⟩ := exists_view_of_isFinite64 hfin
  have hround := mul64_roundsTo d hv hv
  have hsq0 : 0 ≤ real64 v * real64 v := mul_self_nonneg _
  have hsq1 : real64 v * real64 v ≤ 1 := by
    rw [← abs_mul_abs_self]; exact mul_le_one₀ h1 (abs_nonneg _) h1
  refine ⟨?_, hround.real64_near hsq0 hsq1 le_rfl one_le_two⟩
  have hone : Fmt.roundCode .b64 (2 ^ 1074) 1 = 0x3FF0000000000000 := by decide +kernel
  have hmag : Fmt.magOf .b64 0x3FF0000000000000 = 2 ^ 1074 := by decide +kernel
  rw [← hmag]
  refine hround.natAbs_le ?_ hone (lt_infCode (by decide))
  rw [abs_of_nonneg (mul_nonneg hsq0 two_pow_1074_pos_real.le), Nat.cast_pow, Nat.cast_ofNat]
  exact mul_le_of_le_one_left two_pow_1074_pos_real.le hsq1

/-- R122's procedure meets R121: the errors of the angle, of the sine, doubled by the squaring, and of the product are below
8 units of `2^-53` together. -/
theorem windowWord_windowRefHalf {i : ℕ} (hi : i < 512) : WindowWord i (windowRefHalf i) := by
  have hdom := windowRef_inTrigDomain ⟨0, .rom, i, 1⟩ hi
  have hangle := windowRef_angle_near ⟨0, .rom, i, 1⟩ hi
  rw [windowRefHalf]
  generalize mul64 ⟨0, .rom, i, 1⟩ (rne64 false i 1) windowScale = t at hdom hangle
  have hsin : TrigNear (sinRef ⟨0, .rom, i, 2⟩ t) (Real.sin (real64 t)) := sinRef_near ⟨0, .rom, i, 2⟩ hdom
  generalize sinRef ⟨0, .rom, i, 2⟩ t = v at hsin
  obtain ⟨hv1, hv⟩ := hsin.real64_near
  obtain ⟨hone, hprod⟩ := square_rounded ⟨0, .rom, i, 3⟩ hsin.1 hv1
  refine ⟨hone, ?_⟩
  have hsquare := abs_sq_sub_sq_le hv1 (Real.abs_sin_le_one (real64 t))
  have harg := abs_sin_sq_sub_sin_sq_le (real64 t) (windowAngle i)
  calc _ ≤ |real64 (mul64 ⟨0, .rom, i, 3⟩ v v) - real64 v * real64 v|
        + (|real64 v * real64 v - Real.sin (real64 t) ^ 2| + |Real.sin (real64 t) ^ 2 - Real.sin (windowAngle i) ^ 2|) :=
        (abs_sub_le ..).trans (add_le_add_right (abs_sub_le ..) _)
    _ ≤ 1 / 2 ^ 53 + (2 * (1 / 2 ^ 52) + (2 + 4 / 5) / 2 ^ 53) := by linarith
    _ ≤ 1 / 2 ^ 50 := by norm_num

/-! ## The words of any table -/

/-- A number within `2^-bits` of a whole enclosure is so of what it encloses. -/
theorem Ball.near_of_within {K bits : ℕ} {b : Ball} {v : ℝ} {x : F64} (henc : b.Encloses K v)
    (h : b.within K bits (int64Of x) = true) : |real64 x - v| ≤ 1 / 2 ^ bits := by
  have hK : (0 : ℝ) < 2 ^ K := pow_pos two_pos K
  have hb : (0 : ℝ) < 2 ^ bits := pow_pos two_pos bits
  rw [Ball.within, decide_eq_true_iff, ← Nat.cast_le (α := ℝ)] at h
  push_cast [Nat.cast_natAbs, pow_add] at h
  rw [Ball.Encloses] at henc
  rw [int64Of_eq_real64_mul] at h
  have hU := two_pow_1074_pos_real
  generalize (2 : ℝ) ^ 1074 = U at h hU
  rw [le_div_iff₀ hb]
  have hsum : 2 ^ K * |real64 x - v| ≤ |real64 x * 2 ^ K - b.c| + b.r := by
    rw [← abs_of_pos hK, ← abs_mul, abs_of_pos hK]
    calc |2 ^ K * (real64 x - v)| = |(real64 x * 2 ^ K - b.c) + (b.c - 2 ^ K * v)| := by congr 1; ring
      _ ≤ |real64 x * 2 ^ K - b.c| + b.r := (abs_add_le ..).trans (add_le_add_right henc _)
  have hscaled : |real64 x * U * 2 ^ K - b.c * U| = |real64 x * 2 ^ K - b.c| * U := by
    rw [← abs_of_pos hU, ← abs_mul, abs_of_pos hU]; congr 1; ring
  rw [hscaled, ← add_mul] at h
  refine le_of_mul_le_mul_left ?_ (mul_pos hK hU)
  calc 2 ^ K * U * (|real64 x - v| * 2 ^ bits) = 2 ^ K * |real64 x - v| * U * 2 ^ bits := by ring
    _ ≤ (|real64 x * 2 ^ K - b.c| + b.r) * U * 2 ^ bits := by gcongr
    _ ≤ 2 ^ K * U * 1 := by rw [mul_one]; exact h

theorem windowWord_of_windowAccepts {i : ℕ} {w : F64} (hi : i < 512) (h : windowAccepts i w = true) : WindowWord i w := by
  simp only [windowAccepts, Bool.and_eq_true, decide_eq_true_eq] at h
  obtain ⟨⟨-, hone⟩, hwithin⟩ := h
  exact ⟨hone, Ball.near_of_within (windowBall_encloses i hi) hwithin⟩

theorem windowWord_zero : WindowWord 0 0 := by
  have hzero : int64Of 0 = 0 := by decide +kernel
  rw [WindowWord, real64, hzero, windowAngle]
  simp

theorem windowWord_windowHalf (p : Impl) {i : ℕ} (hi : i < 512) : WindowWord i (windowHalf p i) := by
  have href : WindowWord i (windowRefTable.getD i 0) := by
    rw [windowRefTable, getD_tabulate_of_lt _ _ hi]
    exact windowWord_windowRefHalf hi
  cases p with
  | reference => exact href
  | other id =>
    rw [windowHalf]
    split
    · next h0 => rw [h0]; exact windowWord_zero
    · split
      · next hacc => exact windowWord_of_windowAccepts hi hacc
      · exact href

theorem windowHalf_zero (p : Impl) : windowHalf p 0 = 0 := by
  cases p with
  | reference =>
    have hword : windowRefHalf 0 = 0 := by decide +kernel
    rw [windowHalf, windowRefTable, getD_tabulate_of_lt _ _ (by decide), hword]
  | other id => rfl

/-! ## WREAD -/

theorem wread_of_lt (p : Impl) {i : ℕ} (h : i < 512) : wread p i = windowHalf p i := if_pos h

theorem wread_mirror (p : Impl) {i : ℕ} (h : i < 1024) : wread p i = wread p (1023 - i) := by
  by_cases hi : i < 512
  · rw [wread, wread, if_pos hi, if_neg (by omega), Nat.sub_sub_self (Nat.le_of_lt_succ h)]
  · rw [wread, if_neg hi, wread_of_lt p (by omega)]

theorem wread_zero (p : Impl) : wread p 0 = 0 := windowHalf_zero p

/-- Every word read is one of the half the ROM holds. -/
theorem exists_windowWord_wread (p : Impl) {i : ℕ} (h : i < 1024) : ∃ j, WindowWord j (wread p i) := by
  by_cases hi : i < 512
  · exact ⟨i, wread_of_lt p hi ▸ windowWord_windowHalf p hi⟩
  · rw [wread_mirror p h, wread_of_lt p (by omega)]
    exact ⟨_, windowWord_windowHalf p (by omega)⟩

/-- R121: a word has no sign, not even that of a negative zero, and is at most 1. -/
theorem wread_unit (p : Impl) {i : ℕ} (h : i < 1024) : ∃ m, view64 (wread p i) = .fin false m ∧ m ≤ 2 ^ 1074 := by
  obtain ⟨m, hv, -⟩ := wread_range p i h
  obtain ⟨j, hone, -⟩ := exists_windowWord_wread p h
  exact ⟨m, hv, natAbs_int64Of_of_view hv ▸ hone⟩

/-! ## The parameters -/

/-- A state of the same machine: its parameters and the number of its instances (R6). -/
def State.SameMachine (s t : State) : Prop := t.cfg = s.cfg ∧ t.instances.length = s.instances.length

namespace State.SameMachine

variable {s t : State}

theorem of_eq (hcfg : t.cfg = s.cfg) (hinst : t.instances = s.instances) : s.SameMachine t := ⟨hcfg, congrArg _ hinst⟩

theorem refl (s : State) : s.SameMachine s := ⟨rfl, rfl⟩

theorem trans {r : State} (h : s.SameMachine t) (h' : t.SameMachine r) : s.SameMachine r :=
  ⟨h'.1.trans h.1, h'.2.trans h.2⟩

/-- What an engine step writes: the served instance and the count of draws. -/
theorem serve (s : State) (u : Instance) (d : ℕ) : s.SameMachine { s with inst := u, draws := d } :=
  ⟨rfl, by simp [State.instances]⟩

theorem withInst (h : s.SameMachine t) (u : Instance) : s.SameMachine (t.withInst u) := h.trans (serve t u t.draws)

theorem answered (h : s.SameMachine t) (rest : List HostOp) (vs : List Word) : s.SameMachine (t.answered rest vs) := h

theorem tick (s : State) : s.SameMachine s.tick := ⟨rfl, by rw [State.tick_instances, List.length_map]⟩

end State.SameMachine

section Machine

variable {s t : State}

/-- A command writes the served instance and the count of draws, and no other element of the machine. -/
theorem exec_writes {i : Instr} (h : exec i s = .next t) : ∃ u d, t = { s with inst := u, draws := d } := by
  cases i with
  | nop => cases h; exact ⟨_, _, rfl⟩
  | reset n =>
    obtain ⟨-, rfl⟩ | ⟨-, -, -, rfl⟩ | ⟨-, -, -, rfl⟩ := execReset_cases h
    · exact ⟨_, _, rfl⟩
    · exact ⟨_, _, rfl⟩
    · split <;> exact ⟨_, _, rfl⟩
  | setShift dir => obtain ⟨e, -, rfl⟩ | ⟨-, rfl⟩ := execSetShift_cases h <;> exact ⟨_, _, rfl⟩
  | setGain ch => obtain ⟨e, -, rfl⟩ | ⟨-, rfl⟩ := execSetGain_cases h <;> exact ⟨_, _, rfl⟩
  | process n => obtain ⟨e, -, rfl⟩ | ⟨-, -, rfl⟩ := execProcess_cases h <;> exact ⟨_, _, rfl⟩

theorem engineStep_sameMachine (h : engineStep s = .next t) : s.SameMachine t := by
  obtain ⟨-, e⟩ | ⟨-, e⟩ | ⟨i, -, e⟩ := engineStep_cases s <;> rw [e] at h
  · cases h; exact .serve ..
  · cases h; exact .serve ..
  · obtain ⟨u, d, rfl⟩ := exec_writes h
    exact .serve s u d

theorem select_sameMachine {addr : ℕ} (h : s.select addr = .ok t) : s.SameMachine t := by
  rw [State.select] at h
  split at h
  · cases h
  · split at h
    · cases h
    · next hf =>
      cases h
      obtain ⟨hinst, -, hcfg, -⟩ := focus_spec hf
      exact .of_eq hcfg hinst

theorem hostRead_sameMachine {addr size : ℕ} {v : Word} (h : s.hostRead addr size = .ok (v, t)) : s.SameMachine t := by
  rw [State.hostRead] at h
  split at h
  · cases h
  · next hs =>
    split at h <;> cases h
    exact select_sameMachine hs

theorem hostWrite_sameMachine {addr size : ℕ} {v : Word} (h : s.hostWrite addr size v = .ok t) : s.SameMachine t := by
  rw [State.hostWrite] at h
  split at h
  · cases h
  · next hs =>
    split at h <;> cases h
    exact (select_sameMachine hs).withInst _

theorem hostStep_sameMachine {op : HostOp} {rest : List HostOp} (h : hostStep op rest s = .next t) : s.SameMachine t := by
  have htick := State.SameMachine.tick s
  cases op with
  | read addr size =>
    rw [hostStep] at h
    split at h <;> cases h
    next hr => exact (htick.trans (hostRead_sameMachine hr)).answered _ _
  | write addr size v =>
    rw [hostStep] at h
    split at h <;> cases h
    next hw => exact (htick.trans (hostWrite_sameMachine hw)).answered _ _
  | poll i =>
    rw [hostStep] at h
    split at h <;> cases h
    next hr => exact (htick.trans (hostRead_sameMachine hr)).answered _ _

theorem step_sameMachine (h : step s = .next t) : s.SameMachine t := by
  obtain ⟨s', hn, e⟩ | ⟨op, rest, -, -, e⟩ | ⟨-, -, e⟩ := step_cases s <;> rw [e] at h
  · obtain ⟨hinst, hcfg, -⟩ := nextEngine_spec hn
    exact (State.SameMachine.of_eq hcfg hinst).trans (engineStep_sameMachine h)
  · exact hostStep_sameMachine h
  · cases h; exact .refl s

end Machine

/-! ## The obligations -/

/-- Settles O35: WREAD answers the upper half from the lower one (R120), and each word of that is the reference procedure's
or one that passed the check against the enclosed formula. -/
theorem windowSymmetry : Obligations.WindowSymmetry := by
  intro p i hi
  refine ⟨wread_mirror p hi, wread_zero p, (wread_mirror p (by decide)).trans (wread_zero p), wread_unit p hi,
    fun _ hle => ?_⟩
  have hlt : i < 512 := Nat.lt_succ_of_le hle
  obtain ⟨-, hnear⟩ := windowWord_windowHalf p hlt
  have hpow : (2 : ℝ) ^ 1024 = 2 ^ 1074 * (1 / 2 ^ 50) := by rw [show 1074 = 1024 + 50 from rfl, pow_add]; field_simp
  rw [wread_of_lt p hlt, hpow]
  exact (abs_int64Of_sub_le_iff _ _ _).mpr hnear

/-- Settles O53: an engine step writes only the served instance and the count of draws, and a host transaction puts every
instance back in its place. -/
theorem parametersAreConstant : Obligations.ParametersAreConstant := fun _ _ h => step_sameMachine h

/-- Settles O36: the four words are evaluated. -/
theorem windowVectors : Obligations.WindowVectors := by
  refine ⟨?_, ?_, ?_, ?_⟩ <;> decide +kernel

end Sys2Proof.Machine
end

section
/-! PROOFS. The overlap-add buffer of spec/41_overlap_add.md: what a push and a boundary leave (R130 to R138, R144), where the
boundaries fall (R131, R139), the alignment of the ring at each of them (R146), and the delay and gain of the in-phase path
(R140).

A stream of pushes since a RESET is followed block by block: the ring and the cursor change with every push, the accumulator
and the output stage only at a boundary. -/

namespace Sys2Proof.Machine

open Sys2Proof Sys2Proof.Config

/-! ## The push phase -/

/-- R139's cursor: it counts the pushes modulo 256 from where it stood. -/
theorem pushPhase_count (p : Params) (step n : Nat) {u : Instance} (h1 : 768 ≤ u.count) (h2 : u.count ≤ 1023) :
    (pushPhase p step n u).count = 768 + (u.count - 768 + n) % 256 := by
  induction n with
  | zero => rw [pushPhase, forUp_zero]; omega
  | succ n ih =>
    rw [pushPhase] at ih ⊢
    rw [forUp_succ, push_count, ih]
    split <;> omega

/-- One number in 256 leaves the remainder 255: so many of the first `n` from `c` on do. -/
theorem length_filter_range_mod_eq (c n : Nat) (hc : c < 256) :
    ((List.range n).filter fun k => (c + k) % 256 == 255).length = (c + n) / 256 := by
  induction n with
  | zero => exact (Nat.div_eq_of_lt hc).symm
  | succ n ih =>
    rw [List.range_succ, List.filter_append, List.length_append, ih, List.filter_singleton]
    by_cases h : (c + n) % 256 = 255
    · simp only [h, beq_self_eq_true, cond_true, List.length_singleton]; omega
    · simp only [beq_eq_false_iff_ne.mpr h, cond_false, List.length_nil]; omega

/-! ## A boundary -/

section Boundary

variable (p : Params) (step k : Nat) (u : Instance)

@[simp] theorem length_boundary_inputRing : (boundary p step k u).inputRing.length = 1024 := length_ringShift _

/-- R132, R133: the block is HILBERT_IMPL of the windowed ring. -/
theorem boundary_analytic : (boundary p step k u).analytic = hilbert p step k (window p step k u).analytic := rfl

/-- R134, R135: the first 256 accumulated entries go to the output stage. -/
theorem boundary_outStage_of_lt {j : Nat} (h : j < 256) :
    cget (boundary p step k u).outStage j =
      accumulateEntry p step k j (cget u.accum j) (cget (boundary p step k u).analytic j) := by
  rw [boundary_outStage, if_pos h, accumulate_entry, if_pos (by omega)]; rfl

/-- R134, R136: the other accumulated entries move down by 256. -/
theorem boundary_accum_of_lt {j : Nat} (h : j < 768) :
    cget (boundary p step k u).accum j =
      accumulateEntry p step k (j + 256) (cget u.accum (j + 256)) (cget (boundary p step k u).analytic (j + 256)) := by
  rw [boundary_accum, if_pos (by omega), accumulate_entry, if_pos (by omega)]; rfl

variable {u}

/-- R136: zero fill above the entries moved down, where the upper half was zero (R43 (2)). -/
theorem boundary_accum_of_ge (hu : ∀ j, 1024 ≤ j → cget u.accum j = C64.zero) {j : Nat} (h : 768 ≤ j) :
    cget (boundary p step k u).accum j = C64.zero := by
  have hhigh : ¬ j + 256 < 1024 := by omega
  simp only [boundary_accum, accumulate_entry, if_neg hhigh, hilbertStep_accum, window_accum,
    hu (j + 256) (by omega), ite_self]

end Boundary

/-! ## Zeros and finite values -/

theorem finish64_zero (d : Draw) (den : Nat) : finish64 d (.rat false 0 den) = 0 := by
  simp [finish64, Fmt.finish, Fmt.roundCode, Fmt.withSign, rneNat]

theorem view64_zero : view64 0 = .fin false 0 := by decide +kernel

/-- +0.0 times a finite value without a sign is +0.0. -/
theorem mul64_zero_left (d : Draw) {y : F64} {m : Nat} (hy : view64 y = .fin false m) : mul64 d 0 y = 0 := by
  rw [mul64, view64_zero, hy, Fp.mul, Nat.zero_mul]; exact finish64_zero ..

theorem mul64_zero_right (d : Draw) {y : F64} {m : Nat} (hy : view64 y = .fin false m) : mul64 d y 0 = 0 := by
  rw [mul64, view64_zero, hy, Fp.mul, Nat.mul_zero]; exact finish64_zero ..

theorem add64_zero_zero (d : Draw) : add64 d 0 0 = 0 := by
  rw [add64, view64_zero, Fp.add_pos]; exact finish64_zero ..

theorem to64_zero (d : Draw) : to64 d 0 = 0 := by
  have hwide : Fp.widen (view32 0) = .rat false 0 1 := by decide +kernel
  rw [to64, hwide, finish64_zero]

theorem exists_view_of_isFinite32 {x : F32} (h : isFinite32 x = true) : ∃ s m, view32 x = .fin s m := by
  rcases hx : view32 x with _ | _ | ⟨s, m⟩
  · simp [isFinite32, hx] at h
  · simp [isFinite32, hx] at h
  · exact ⟨s, m, rfl⟩

theorem isFinite64_of_small {c : Nat} {x : F64} (h : Small c x) : isFinite64 x = true := by
  obtain ⟨s, m, hx, -⟩ := h
  rw [isFinite64, hx]

/-- A window word is at most 1.0. -/
theorem small_wread (p : Impl) {j : Nat} (hj : j < 1024) : Small 0x3FF0000000000000 (wread p j) := by
  have hone : Fmt.magOf .b64 0x3FF0000000000000 = 2 ^ 1074 := by decide +kernel
  obtain ⟨m, hv, hm⟩ := wread_unit p hj
  exact ⟨false, m, hv, hone ▸ hm⟩

/-- A finite sample is below 2^128. -/
theorem small_to64 (d : Draw) {x : F32} (h : isFinite32 x = true) : Small 0x47F0000000000000 (to64 d x) := by
  have hcap : Fmt.magOf .b32 (Fmt.infCode .b32) * 2 ^ 925 = Fmt.magOf .b64 0x47F0000000000000 := by decide +kernel
  obtain ⟨s, m, hx⟩ := exists_view_of_isFinite32 h
  obtain ⟨c, hc, rfl, -⟩ := view32_fin hx
  exact ⟨s, _, view64_to64 d hx, by rw [← hcap]; exact Nat.mul_le_mul_right _ (magOf_le .b32 _ _ hc.le)⟩

/-- OLA_SCALE times a window word has no sign. -/
theorem view64_scale (d : Draw) (p : Impl) {j : Nat} (hj : j < 1024) :
    ∃ m, view64 (mul64 d half64 (wread p j)) = .fin false m := by
  have hhalf : view64 half64 = .fin false (Fmt.magOf .b64 0x3FE0000000000000) := by decide +kernel
  obtain ⟨m, hv, hm⟩ := wread_unit p hj
  obtain ⟨k, hk, -⟩ := small_finish d false (Fmt.magOf .b64 0x3FE0000000000000 * m) (2 ^ 1074) 0x3FE0000000000000
    two_pow_1074_pos (lt_infCode (by decide)) (Nat.mul_le_mul_left _ hm)
  exact ⟨k, by rw [mul64, hhalf, hv]; exact hk⟩

/-- WINDOW keeps a finite sample finite: the product is below 2^128 too. -/
theorem isFinite64_windowed (d d' : Draw) (p : Impl) {x : F32} {j : Nat} (hx : isFinite32 x = true) (hj : j < 1024) :
    isFinite64 (mul64 d (to64 d' x) (wread p j)) = true := by
  obtain ⟨_, _, _, _, k, -, -, hk, hle⟩ := small_mul d 0x47F0000000000000 (lt_infCode (by decide)) (small_to64 d' hx)
    (small_wread p hj) (by decide +kernel)
  exact isFinite64_of_small ⟨_, k, hk, hle⟩

/-- With RealPartExact a boundary's block has the windowed ring as its real parts, where the samples are finite. -/
theorem boundary_analytic_re {p : Params} (hexact : RealPartExact p) (step k : Nat) {u : Instance}
    (hfin : ∀ j, j < 1024 → isFinite32 (u.inputRing.getD j 0) = true) {j : Nat} (hj : j < 1024) :
    (cget (boundary p step k u).analytic j).re =
      mul64 ⟨step, .windowMul, k, j⟩ (to64 ⟨step, .windowWiden, k, j⟩ (u.inputRing.getD j 0)) (wread p.window j) := by
  have hblock : BlockFinite (window p step k u).analytic := fun i hi => by
    rw [window_entry p step k u i hi]; exact isFinite64_windowed _ _ _ (hfin i hi) hi
  rw [boundary_analytic, hexact step k _ j hblock hj, window_entry p step k u j hj]

/-! ## What the buffer holds, in the samples since a RESET -/

/-- The sample at ring position `j` when `b` boundaries have run since the RESET (R146): the reset zero where no
push has come. -/
def alignedSample (x : Nat → F32) (b j : Nat) : F32 := if 256 * b + j < 768 then 0 else x (256 * b + j - 768)

theorem alignedSample_succ (x : Nat → F32) (b j : Nat) : alignedSample x (b + 1) j = alignedSample x b (j + 256) := by
  have h : 256 * (b + 1) + j = 256 * b + (j + 256) := by ring
  rw [alignedSample, alignedSample, h]

theorem alignedSample_of_lt (x : Nat → F32) {b j : Nat} (h : 256 * b + j < 768) : alignedSample x b j = 0 := if_pos h

theorem alignedSample_of_eq (x : Nat → F32) {b j m : Nat} (h : 256 * b + j = m + 768) : alignedSample x b j = x m := by
  rw [alignedSample, h, if_neg (by omega), Nat.add_sub_cancel]

theorem isFinite32_alignedSample {x : Nat → F32} (hx : ∀ m, isFinite32 (x m) = true) (b j : Nat) :
    isFinite32 (alignedSample x b j) = true := by
  rw [alignedSample]
  split
  · decide +kernel
  · exact hx _

section Overlap

variable (p : Params) (step idx : Nat → Nat) (x : Nat → F32)

/-- The real part ACCUMULATE leaves in an entry that holds `a`, at position `j` of the boundary that follows `b` others. -/
def accumulateRe (b j : Nat) (a : F64) : F64 :=
  let draw (site : Site) : Draw := ⟨step (256 * b + 255), site, idx (256 * b + 255), j⟩
  add64 (draw .accReAdd) a
    (mul64 (draw .accReMul) (mul64 (draw .accScale) half64 (wread p.window j))
      (mul64 (draw .windowMul) (to64 (draw .windowWiden) (alignedSample x b j)) (wread p.window j)))

/-- The real part of accumulator entry `j` after the ACCUMULATE of the `b`-th boundary: one more contribution on the entry
that the ACC_SHIFT before it moved down from `j + 256` (R142). -/
def overlapRe : Nat → Nat → F64
  | 0, _ => 0
  | b + 1, j => accumulateRe p step idx x b j (if j < 768 then overlapRe b (j + 256) else 0)

/-- A reset zero contributes nothing. -/
theorem accumulateRe_zero {b j : Nat} (hj : j < 1024) (h : 256 * b + j < 768) :
    accumulateRe p step idx x b j 0 = 0 := by
  obtain ⟨m, hw, -⟩ := wread_unit p.window hj
  obtain ⟨k, hsc⟩ := view64_scale ⟨step (256 * b + 255), .accScale, idx (256 * b + 255), j⟩ p.window hj
  rw [accumulateRe, alignedSample_of_lt x h, to64_zero, mul64_zero_left _ hw, mul64_zero_right _ hsc, add64_zero_zero]

/-- All contributions to an entry are of one sample, so an entry of no sample holds +0.0. -/
theorem overlapRe_eq_zero {b j : Nat} (hj : j < 1024) (h : 256 * b + j < 1024) :
    overlapRe p step idx x b j = 0 := by
  induction b generalizing j with
  | zero => rfl
  | succ b ih =>
    have hshifted : (if j < 768 then overlapRe p step idx x b (j + 256) else 0) = 0 := by
      split
      · exact ih (by omega) (by omega)
      · rfl
    rw [overlapRe, hshifted, accumulateRe_zero p step idx x hj (by omega)]

/-- R142: from the fourth boundary on, an entry that reaches the output stage holds four contributions. -/
theorem overlapRe_four (c : Nat) {q : Nat} (hq : q < 256) :
    overlapRe p step idx x (c + 4) q =
      accumulateRe p step idx x (c + 3) q (accumulateRe p step idx x (c + 2) (q + 256)
        (accumulateRe p step idx x (c + 1) (q + 512) (accumulateRe p step idx x c (q + 768) 0))) := by
  have h1 : q < 768 := by omega
  have h2 : q + 256 < 768 := by omega
  have h3 : q + 256 + 256 < 768 := by omega
  have h4 : ¬ q + 256 + 256 + 256 < 768 := by omega
  simp only [overlapRe, if_pos h1, if_pos h2, if_pos h3, if_neg h4, Nat.add_assoc, Nat.reduceAdd]

/-- The overlap-add buffer after `b` boundaries, in its real parts. -/
structure InPhase (b : Nat) (acc out : List C64) : Prop where
  accumTail : ∀ j, 768 ≤ j → cget acc j = C64.zero
  accumRe : ∀ j, j < 768 → (cget acc j).re = overlapRe p step idx x b (j + 256)
  stageRe : ∀ j, j < 256 → (cget out j).re = overlapRe p step idx x b j

variable {p step idx x}

theorem inPhase_reset {ch : Nat} {u : Instance} (hu : u.AtReset p.nmax ch) : InPhase p step idx x 0 u.accum u.outStage where
  accumTail j _ := by rw [hu.accum, cget_replicate]
  accumRe j _ := by rw [hu.accum, cget_replicate]; rfl
  stageRe j _ := by rw [hu.outStage, cget_replicate]; rfl

/-- A boundary that finds the ring aligned adds its block's contribution to every entry. -/
theorem InPhase.boundary_step (hexact : RealPartExact p) (hx : ∀ m, isFinite32 (x m) = true) {b : Nat} {w : Instance}
    (hring : ∀ j, j < 1024 → w.inputRing.getD j 0 = alignedSample x b j) (h : InPhase p step idx x b w.accum w.outStage) :
    let t := boundary p (step (256 * b + 255)) (idx (256 * b + 255)) w
    InPhase p step idx x (b + 1) t.accum t.outStage := by
  have hfin (j : Nat) (hj : j < 1024) : isFinite32 (w.inputRing.getD j 0) = true := by
    rw [hring j hj]; exact isFinite32_alignedSample hx b j
  have hentry (j : Nat) (hj : j < 1024) :
      (accumulateEntry p (step (256 * b + 255)) (idx (256 * b + 255)) j (cget w.accum j)
        (cget (boundary p (step (256 * b + 255)) (idx (256 * b + 255)) w).analytic j)).re =
      overlapRe p step idx x (b + 1) j := by
    have hacc : (cget w.accum j).re = if j < 768 then overlapRe p step idx x b (j + 256) else 0 := by
      split
      · exact h.accumRe j ‹_›
      · rw [h.accumTail j (by omega)]
    rw [overlapRe, accumulateRe, ← hacc, ← hring j hj, ← boundary_analytic_re hexact _ _ hfin hj]
    rfl
  exact
    { accumTail := fun j => boundary_accum_of_ge _ _ _ fun i hi => h.accumTail i (by omega)
      accumRe := fun j hj => by rw [boundary_accum_of_lt _ _ _ _ hj, hentry _ (by omega)]
      stageRe := fun j hj => by rw [boundary_outStage_of_lt _ _ _ _ hj, hentry _ (by omega)] }

end Overlap

/-! ## The pushes since a RESET -/

/-- What push `n` leaves before the check for a boundary (R130). -/
abbrev pushedAt (idx : Nat → Nat) (x : Nat → F32) (v : Nat → Instance) (n : Nat) : Instance := pushSample (idx n) (x n) (v n)

end Sys2Proof.Machine

namespace Sys2Proof.Claims.PushesFrom

open Sys2Proof Sys2Proof.Config Sys2Proof.Machine

variable {p : Params} {step idx : Nat → Nat} {ch : Nat} {x : Nat → F32} {u : Instance} {v : Nat → Instance}

theorem count_eq (h : PushesFrom p step idx x u v) (hu : u.count = 768) (n : Nat) : (v n).count = 768 + n % 256 := by
  obtain ⟨⟨-, h0, -⟩, hs⟩ := h
  induction n with
  | zero => rw [h0, hu]
  | succ n ih =>
    obtain ⟨-, hc, -⟩ := hs n
    obtain ⟨hne, e⟩ | ⟨heq, e⟩ := pushValue_cases p (step n) (idx n) (x n) (v n) <;> rw [hc, e]
    · rw [pushSample_count]; omega
    · rw [boundary_count]; omega

/-- R131: push `n` runs a boundary exactly when `n mod 256 = 255`. -/
theorem succ_cases (h : PushesFrom p step idx x u v) (hu : u.count = 768) (n : Nat) :
    ((n + 1) / 256 = n / 256 ∧ (n + 1) % 256 = n % 256 + 1 ∧ (pushedAt idx x v n).SamePipeline (v (n + 1))) ∨
    (n = 256 * (n / 256) + 255 ∧ (n + 1) / 256 = n / 256 + 1 ∧ (n + 1) % 256 = 0 ∧
      (boundary p (step n) (idx n) (pushedAt idx x v n)).SamePipeline (v (n + 1))) := by
  have hcount := h.count_eq hu n
  obtain ⟨-, hs⟩ := h
  obtain ⟨hne, e⟩ | ⟨heq, e⟩ := pushValue_cases p (step n) (idx n) (x n) (v n)
  · exact .inl ⟨by omega, by omega, by simpa only [e] using hs n⟩
  · exact .inr ⟨by omega, by omega, by omega, by simpa only [e] using hs n⟩

/-! ### The ring -/

theorem length_inputRing (h : PushesFrom p step idx x u v) (hu : u.AtReset p.nmax ch) (n : Nat) :
    (v n).inputRing.length = 1024 := by
  induction n with
  | zero =>
    obtain ⟨⟨hring, -⟩, -⟩ := h
    rw [hring, hu.inputRing, List.length_replicate]
  | succ n ih =>
    obtain ⟨-, -, hring, -⟩ | ⟨-, -, -, hring, -⟩ := h.succ_cases hu.count n <;> rw [hring]
    · rw [pushSample_inputRing, List.length_set, ih]
    · exact length_boundary_inputRing ..

/-- A push adds its sample at the cursor of a ring that is aligned up to there. -/
theorem pushedAt_inputRing (h : PushesFrom p step idx x u v) (hu : u.AtReset p.nmax ch) {n : Nat}
    (hn : ∀ j, j < 768 + n % 256 → (v n).inputRing.getD j 0 = alignedSample x (n / 256) j)
    {j : Nat} (hj : j ≤ 768 + n % 256) : (pushedAt idx x v n).inputRing.getD j 0 = alignedSample x (n / 256) j := by
  rw [pushSample_inputRing, getD_set, h.count_eq hu.count, h.length_inputRing hu]
  split
  · next hcur => rw [alignedSample_of_eq x (m := n) (by omega)]
  · exact hn j (by omega)

/-- R146 between boundaries: the ring holds the last samples in place up to the cursor. -/
theorem inputRing_eq (h : PushesFrom p step idx x u v) (hu : u.AtReset p.nmax ch) (n : Nat) :
    ∀ j, j < 768 + n % 256 → (v n).inputRing.getD j 0 = alignedSample x (n / 256) j := by
  induction n with
  | zero =>
    intro j hj
    obtain ⟨⟨hring, -⟩, -⟩ := h
    rw [hring, hu.inputRing, List.getD_replicate _ (by omega), alignedSample_of_lt x (by omega)]
  | succ n ih =>
    intro j hj
    have hpushed {i : Nat} := h.pushedAt_inputRing hu ih (j := i)
    obtain ⟨hdiv, hmod, hring, -⟩ | ⟨hn, hdiv, hmod, hring, -⟩ := h.succ_cases hu.count n <;> rw [hring, hdiv]
    · exact hpushed (by omega)
    · rw [boundary_inputRing _ _ _ _ _ (by omega), if_pos (by omega), hpushed (by omega), alignedSample_succ]

/-- R146 at the boundary of push `256 b + 255`. -/
theorem boundary_ring (h : PushesFrom p step idx x u v) (hu : u.AtReset p.nmax ch) (b : Nat) {j : Nat}
    (hj : j < 1024) : (pushedAt idx x v (256 * b + 255)).inputRing.getD j 0 = alignedSample x b j := by
  have hdiv : (256 * b + 255) / 256 = b := by omega
  have hring := h.pushedAt_inputRing hu (h.inputRing_eq hu (256 * b + 255)) (j := j) (by omega)
  rwa [hdiv] at hring

/-! ### The accumulator and the output stage -/

/-- What holds of the accumulator and the output stage at the RESET, and is kept by every boundary with the count of
boundaries, holds of them at every push: no push changes them between boundaries. -/
theorem boundary_induction (h : PushesFrom p step idx x u v) (hcount : u.count = 768)
    {P : Nat → List C64 → List C64 → Prop} (h0 : P 0 u.accum u.outStage)
    (hb : ∀ b, let n := 256 * b + 255
      let w := boundary p (step n) (idx n) (pushedAt idx x v n)
      P b (v n).accum (v n).outStage → P (b + 1) w.accum w.outStage) (n : Nat) :
    P (n / 256) (v n).accum (v n).outStage := by
  induction n with
  | zero =>
    obtain ⟨⟨-, -, hacc, hout⟩, -⟩ := h
    rw [hacc, hout]
    exact h0
  | succ n ih =>
    obtain ⟨hdiv, -, -, -, hacc, hout⟩ | ⟨hn, hdiv, -, -, -, hacc, hout⟩ := h.succ_cases hcount n <;>
      rw [hacc, hout, hdiv]
    · exact ih
    · have hstep := hb (n / 256)
      rw [← hn] at hstep
      exact hstep ih

/-- The real part that push `n` reads. -/
theorem outStage_re (h : PushesFrom p step idx x u v) (hexact : RealPartExact p) (hu : u.AtReset p.nmax ch)
    (hx : ∀ m, isFinite32 (x m) = true) (n : Nat) :
    (cget (v n).outStage ((v n).count - 768)).re = overlapRe p step idx x (n / 256) (n % 256) := by
  have hinv : InPhase p step idx x (n / 256) (v n).accum (v n).outStage :=
    h.boundary_induction hu.count (inPhase_reset hu) (fun b hb => hb.boundary_step hexact hx fun j => h.boundary_ring hu b) n
  rw [h.count_eq hu.count, Nat.add_sub_cancel_left, hinv.stageRe _ (Nat.mod_lt n (by decide))]

end Sys2Proof.Claims.PushesFrom

/-! ## The obligations -/

namespace Sys2Proof.Machine

open Sys2Proof Sys2Proof.Config Sys2Proof.Claims

/-- Settles O21: the cursor counts the pushes modulo 256, and stands at 1023 before one push in 256. -/
theorem pushPhaseCount : Obligations.PushPhaseCount := by
  intro p step n u h1 h2
  have hbefore (k : Nat) : ((pushPhase p step k u).count == 1023) = ((u.count - 768 + k) % 256 == 255) := by
    rw [pushPhase_count p step k h1 h2, Bool.eq_iff_iff, beq_iff_eq, beq_iff_eq]
    omega
  simp only [hbefore]
  exact ⟨pushPhase_count p step n h1 h2, length_filter_range_mod_eq _ n (by omega)⟩

/-- Settles O27: the elements named are those the sub-steps write; the output stage is copied above entry 255, and the ring
from entry 768 on. -/
theorem pushFrame : Obligations.PushFrame := by
  intro p step k x u hring hstage _
  refine ⟨fun hne => ?_, (boundary p step k u).analytic, (boundary p step k u).accum, (boundary p step k u).outStage,
    (boundary p step k u).inputRing, rfl, fun j hj => ?_, fun j hj => ?_⟩
  · obtain ⟨-, e⟩ | ⟨heq, -⟩ := pushValue_cases p step k x u
    · exact e
    · omega
  · rw [boundary_outStage, if_neg (by omega)]
    split
    · rfl
    · exact (List.getD_eq_default _ _ (by omega)).symm
  · by_cases hj' : j < 1024
    · rw [boundary_inputRing _ _ _ _ _ hj', if_neg (by omega)]
    · rw [List.getD_eq_default _ _ (by rw [length_boundary_inputRing]; omega), List.getD_eq_default _ _ (by omega)]

/-- Settles O28: before push `n` the cursor is `768 + n mod 256`. -/
theorem boundaryEvery256Pushes : Obligations.BoundaryEvery256Pushes := by
  intro p step idx x u v n h hu
  have hcount := h.count_eq hu n
  refine ⟨?_, rfl⟩
  rw [pushSample_count]
  omega

/-- Settles O29: each array is read through the sub-step that writes it. -/
theorem boundaryShifts : Obligations.BoundaryShifts := fun p step k u _ htail =>
  ⟨boundary_analytic p step k u, fun _ => boundary_outStage_of_lt p step k u, fun _ => boundary_accum_of_lt p step k u,
    fun _ => boundary_accum_of_ge p step k htail,
    fun j hj => by rw [boundary_inputRing p step k u j (by omega), if_pos hj]⟩

/-- Settles O30, by the ring's alignment up to the cursor at every push. -/
theorem ringAlignment : Obligations.RingAlignment := fun _ _ _ _ _ _ _ b _ hu h hj => h.boundary_ring hu b hj

/-- Settles O31: the entry that push `n` reads holds the contributions of one sample alone, of the sample `n - 1024` where
there is one. -/
theorem inPhaseDelayAndGain : Obligations.InPhaseDelayAndGain := by
  intro p step idx ch x u v n hexact hu h hx
  have hread := h.outStage_re hexact hu hx n
  refine ⟨fun hn => hread.trans (overlapRe_eq_zero p step idx x (by omega) (by omega)), fun hn => ?_⟩
  obtain ⟨c, hc⟩ : ∃ c, n / 256 = c + 4 := ⟨n / 256 - 4, by omega⟩
  have hsample (i pos : Nat) (hpos : 256 * i + pos = n % 256 + 768) : alignedSample x (c + i) pos = x (n - 1024) :=
    alignedSample_of_eq x (by omega)
  rw [hc, overlapRe_four p step idx x c (Nat.mod_lt n (by decide))] at hread
  rw [accumulateRe, accumulateRe, accumulateRe, accumulateRe, hsample 3 _ (by omega), hsample 2 _ (by omega),
    hsample 1 _ (by omega), show alignedSample x c (n % 256 + 768) = _ from hsample 0 _ (by omega)] at hread
  simp only [hc, Nat.add_sub_cancel]
  exact hread

end Sys2Proof.Machine
end

section
/-! PROOFS. The Hilbert step of spec/42_hilbert.md: what it answers for a finite block and for any other (R163, R164, R167), the
blocks the reference function passes unchanged (R168), its answer on an impulse, and the accuracy of every HILBERT_IMPL. -/

namespace Sys2Proof.Machine

open Sys2Proof Sys2Proof.Config

/-! ## A non-finite block -/

/-- A sign and a code above infinity's, viewed. -/
theorem view_withSign_nan (f : Fmt) (neg : Bool) {c : Nat} (hinf : Fmt.infCode f < c) (hlt : c < 2 ^ Fmt.signPos f) :
    Fmt.view f (Fmt.withSign f neg c) = .nan := by
  have hcode : Fmt.withSign f neg c % 2 ^ Fmt.signPos f = c := by
    cases neg <;> simp [Fmt.withSign, Nat.mod_eq_of_lt hlt]
  simp only [Fmt.view, hcode]
  rw [if_neg (by omega), if_neg (by omega)]

theorem withSign_lt (f : Fmt) (neg : Bool) {c : Nat} (h : c < 2 ^ Fmt.signPos f) :
    Fmt.withSign f neg c < 2 ^ (Fmt.signPos f + 1) := by
  rw [Fmt.withSign, Nat.pow_succ]
  split <;> omega

theorem infCode_add_two_pow_frac (f : Fmt) : Fmt.infCode f + 2 ^ f.frac = 2 ^ Fmt.signPos f := by
  rw [Fmt.infCode, Nat.shiftLeft_eq, ← Nat.succ_mul, Nat.succ_eq_add_one, Nat.sub_add_cancel (Nat.two_pow_pos _), Fmt.signPos,
    ← Nat.pow_add, Nat.add_comm]

/-- The code of a NaN lies above infinity's and below the sign, because its payload is not 0 (R8). -/
theorem exists_nanCode_eq (f : Fmt) (hfrac : 0 < f.frac) (free : Nat) :
    ∃ neg c, Fmt.nanCode f free = Fmt.withSign f neg c ∧ Fmt.infCode f < c ∧ c < 2 ^ Fmt.signPos f := by
  have hmod : free % 2 ^ f.frac < 2 ^ f.frac := Nat.mod_lt _ (Nat.two_pow_pos _)
  have hone : 1 < 2 ^ f.frac := Nat.one_lt_two_pow hfrac.ne'
  refine ⟨_, _, rfl, ?_, ?_⟩
  · split <;> omega
  · rw [← infCode_add_two_pow_frac]
    split <;> omega

theorem isNaN64_nan64 (d : Draw) : IsNaN64 (nan64 d) := by
  obtain ⟨neg, c, hcode, hinf, hlt⟩ := exists_nanCode_eq .b64 (by decide) (freeBits d).toNat
  have hword : Fmt.withSign .b64 neg c < 2 ^ 64 := withSign_lt .b64 neg hlt
  rw [IsNaN64, view64, nan64, finish64, Fmt.finish, hcode, BitVec.toNat_ofNat, Nat.mod_eq_of_lt hword]
  exact view_withSign_nan .b64 neg hinf hlt

/-! ## What the step answers -/

theorem allBelow_isFinite64_iff (b : List C64) :
    allBelow 1024 (fun n => isFinite64 (b.getD n C64.zero).re) = true ↔ BlockFinite b := allBelow_iff ..

theorem hilbert_of_not_blockFinite (p : Params) (step k : Nat) {b : List C64} (h : ¬ BlockFinite b) :
    hilbert p step k b = nanBlock step k := by
  rw [hilbert, if_neg (mt (allBelow_isFinite64_iff b).mp h)]

theorem hilbert_of_reference {p : Params} (step k : Nat) {b : List C64} (hp : p.hilbert = .reference)
    (hb : BlockFinite b) : hilbert p step k b = hilbertFinite b := by
  rw [hilbert, if_pos ((allBelow_isFinite64_iff b).mpr hb), hp]

theorem hilbert_of_other {p : Params} (step k : Nat) {b : List C64} {id : Nat} (hp : p.hilbert = .other id)
    (hb : BlockFinite b) : hilbert p step k b =
      if hilbertAccepts p b (rawHilbert id (tabulate 1024 fun n => (cget b n).re)) then
        rawHilbert id (tabulate 1024 fun n => (cget b n).re)
      else hilbertFinite b := by
  rw [hilbert, if_pos ((allBelow_isFinite64_iff b).mpr hb), hp]
  rfl

theorem cget_nanBlock (step k : Nat) {n : Nat} (hn : n < 1024) :
    cget (nanBlock step k) n = ⟨nan64 ⟨step, .hilbertRe, k, n⟩, nan64 ⟨step, .hilbertIm, k, n⟩⟩ := by
  rw [nanBlock, cget_tabulate, if_pos hn]

/-- A quadrature component depends on the 1024 samples only. -/
theorem quadratureRef_congr (taps : Array Ball) {a a' : Nat → Int} (h : ∀ q, q < 1024 → a q = a' q) (n : Nat) :
    quadratureRef taps a n = quadratureRef taps a' n := by
  rw [quadratureRef, quadratureRef, tapTerms_congr h n]

/-- An entry of the reference function's answer (R163). -/
theorem cget_hilbertFinite (b : List C64) {n : Nat} (hn : n < 1024) :
    cget (hilbertFinite b) n = ⟨(cget b n).re, quadratureRef (tapsAt 320) (realOf b) n⟩ := by
  rw [hilbertFinite, cget_tabulate, if_pos hn, quadratureRef_congr _ (fun q hq => realInts_get b hq)]
  rfl

theorem cget_hilbert_of_reference {p : Params} (step k : Nat) {b : List C64} (hp : p.hilbert = .reference)
    (hb : BlockFinite b) {n : Nat} (hn : n < 1024) :
    cget (hilbert p step k b) n = ⟨(cget b n).re, quadratureRef (tapsAt 320) (realOf b) n⟩ := by
  rw [hilbert_of_reference step k hp hb, cget_hilbertFinite b hn]

/-! ## Blocks of a known form -/

/-- Samples alike at every pair of odd distances have no quadrature component. -/
theorem quadratureRef_eq_zero (taps : Array Ball) {a : Nat → Int} {n : Nat}
    (h : ∀ j, j % 2 = 1 → j < 512 → a ((n + 1024 - j) % 1024) = a ((n + j) % 1024)) : quadratureRef taps a n = 0 := by
  have hnil : tapTerms a n = [] := by
    rw [List.eq_nil_iff_forall_not_mem]
    intro t ht
    obtain ⟨hodd, hlt⟩ := tapTerms_indices a n t ht
    obtain ⟨hmem, hne⟩ := List.mem_filter.mp ht
    obtain ⟨j, -, rfl⟩ := List.mem_map.mp hmem
    exact of_decide_eq_true hne (sub_eq_zero.mpr (h j hodd hlt))
  rw [quadratureRef, hnil]

section RealBlock

variable (f : Nat → F64)

/-- A block with the real parts `f` and the imaginary parts +0.0. -/
def realBlock : List C64 := tabulate 1024 fun j => ⟨f j, 0⟩

theorem cget_realBlock {n : Nat} (hn : n < 1024) : cget (realBlock f) n = ⟨f n, 0⟩ := by
  rw [realBlock, cget_tabulate, if_pos hn]

theorem realOf_realBlock {n : Nat} (hn : n < 1024) : realOf (realBlock f) n = int64Of (f n) :=
  congrArg (fun x : C64 => int64Of x.re) (cget_realBlock f hn)

variable {f}

theorem blockFinite_realBlock (h : ∀ n, isFinite64 (f n) = true) : BlockFinite (realBlock f) := fun n hn => by
  rw [cget_realBlock f hn]; exact h n

theorem cget_hilbert_realBlock {p : Params} (step k : Nat) (hp : p.hilbert = .reference) (h : ∀ n, isFinite64 (f n) = true)
    {n : Nat} (hn : n < 1024) : cget (hilbert p step k (realBlock f)) n =
      ⟨f n, quadratureRef (tapsAt 320) (fun q => int64Of (f q)) n⟩ := by
  rw [cget_hilbert_of_reference step k hp (blockFinite_realBlock h) hn, cget_realBlock f hn,
    quadratureRef_congr _ (fun q hq => realOf_realBlock f hq)]

end RealBlock

/-! ## The step depends on the real parts -/

theorem tabulate_congr {α : Type} {n : Nat} {f g : Nat → α} (h : ∀ k, k < n → f k = g k) : tabulate n f = tabulate n g := by
  unfold tabulate
  exact List.map_congr_left fun k hk => h k (List.mem_range.mp hk)

theorem allBelow_congr {n : Nat} {f g : Nat → Bool} (h : ∀ k, k < n → f k = g k) : allBelow n f = allBelow n g := by
  rw [Bool.eq_iff_iff, allBelow_iff, allBelow_iff]
  exact forall₂_congr fun k hk => by rw [h k hk]

section SameRealParts

variable {b b' : List C64} (h : ∀ n, n < 1024 → (cget b' n).re = (cget b n).re)

include h

theorem realOf_congr {n : Nat} (hn : n < 1024) : realOf b' n = realOf b n := congrArg int64Of (h n hn)

theorem blockFinite_congr (hb : BlockFinite b) : BlockFinite b' := fun n hn => by rw [h n hn]; exact hb n hn

theorem hilbertFinite_congr : hilbertFinite b' = hilbertFinite b := by
  rw [hilbertFinite, hilbertFinite, realInts, realInts, tabulate_congr fun n hn => realOf_congr h hn]
  exact tabulate_congr fun n hn => congrArg (C64.mk · _) (h n hn)

theorem hilbertAccepts_congr (p : Params) (o : List C64) : hilbertAccepts p b' o = hilbertAccepts p b o := by
  rw [hilbertAccepts, hilbertAccepts, realInts, realInts, absSum, absSum, tabulate_congr fun n hn => realOf_congr h hn]
  exact congrArg (_ && ·) (allBelow_congr fun n hn => by rw [realOf_congr h hn])

/-- R164 (1): a function of the real parts alone, for every implementation. -/
theorem hilbert_congr (hb : BlockFinite b) (p : Params) (step k step' k' : Nat) :
    hilbert p step' k' b' = hilbert p step k b := by
  have hb' := blockFinite_congr h hb
  cases hp : p.hilbert with
  | reference => rw [hilbert_of_reference _ _ hp hb', hilbert_of_reference _ _ hp hb, hilbertFinite_congr h]
  | other id =>
    rw [hilbert_of_other _ _ hp hb', hilbert_of_other _ _ hp hb, hilbertFinite_congr h, hilbertAccepts_congr h,
      tabulate_congr h]

end SameRealParts

/-! ## The size of the quadrature sum -/

theorem abs_kernelTap_le {j : Nat} (hj : j < 1024) : |kernelTap j| ≤ 1 := by
  rcases Nat.mod_two_eq_zero_or_one j with heven | hodd
  · rw [kernelTap_even j heven, abs_zero]; exact zero_le_one
  · obtain ⟨m, hm, rfl | rfl⟩ : ∃ m, m < 256 ∧ (j = 2 * m + 1 ∨ j = 1024 - (2 * m + 1)) := by
      rcases Nat.lt_or_ge j 512 with h | h
      · exact ⟨j / 2, by omega, .inl (by omega)⟩
      · exact ⟨(1023 - j) / 2, by omega, .inr (by omega)⟩
    · rw [kernelTap_odd]; exact abs_tapValue_le _ (by omega) (by omega)
    · rw [kernelTap_reflect m hm, abs_neg]; exact abs_tapValue_le _ (by omega) (by omega)

theorem absSum_cast (b : List C64) : (absSum b : ℝ) = ∑ q ∈ Finset.range 1024, |(realOf b q : ℝ)| := by
  rw [absSum]
  unfold tabulate
  rw [List.map_map, Nat.cast_list_sum, List.map_map, ← sum_map_range]
  exact congrArg List.sum (List.map_congr_left fun q _ => by simp [Nat.cast_natAbs])

/-- No tap is above 1, so the exact sum of R162 (2) is at most the `S` of R164. -/
theorem abs_quadrature_le (b : List C64) (n : Nat) : |quadrature (realOf b) n| ≤ absSum b := by
  rw [quadrature, abs_neg, absSum_cast]
  refine (Finset.abs_sum_le_sum_abs ..).trans (Finset.sum_le_sum fun q _ => ?_)
  rw [abs_mul]
  exact mul_le_of_le_one_left (abs_nonneg _) (abs_kernelTap_le (Nat.mod_lt _ (by decide)))

/-- RNE64 of a number of magnitude up to `S` is within `2^-53·S` of it, where `S` is 0 or in the range of the normal numbers. -/
theorem RoundsTo.error_le {v : ℝ} {x : F64} {S : Nat} (h : RoundsTo v x) (hv : |v| ≤ S)
    (hS : S = 0 ∨ (2 ^ 54 ≤ S ∧ S ≤ 2 ^ 2097)) : isFinite64 x = true ∧ |(int64Of x : ℝ) - v| ≤ S / 2 ^ 53 := by
  have hcast : ((2 ^ 2097 : ℕ) : ℝ) = 2 ^ 2097 := by rw [Nat.cast_pow, Nat.cast_ofNat]
  rcases hS with rfl | ⟨hlow, hhigh⟩
  · obtain rfl : v = 0 := abs_nonpos_iff.mp (by simpa using hv)
    obtain ⟨hfin, herr⟩ := h.error (by rw [abs_zero]; positivity)
    have hint : |(int64Of x : ℝ)| < 1 := by
      rw [sub_zero, abs_zero, zero_div] at herr
      exact herr.trans_lt (by norm_num)
    have hzero : int64Of x = 0 := Int.abs_lt_one_iff.mp (by exact_mod_cast hint)
    exact ⟨hfin, by rw [hzero]; simp⟩
  · obtain ⟨hfin, herr⟩ := h.error (hv.trans (by rw [← hcast]; exact_mod_cast hhigh))
    have hlow' : (2 : ℝ) ^ 54 ≤ S := by exact_mod_cast hlow
    refine ⟨hfin, herr.trans (max_le ?_ (by gcongr))⟩
    rw [le_div_iff₀ (by positivity)]
    linarith

/-! ## Accuracy -/

/-- `EPS_H·S` of R164. -/
noncomputable def epsBound (p : Params) (b : List C64) : ℝ := p.epsNum / (p.epsDenPred + 1 : Nat) * absSum b

/-- R164 (2), (3) at the place `n`: finite, and each component within `EPS_H·S` of the exact analytic signal's (R162). -/
def NearAnalytic (p : Params) (b : List C64) (n : Nat) (y : C64) : Prop :=
  isFinite64 y.re = true ∧ isFinite64 y.im = true ∧
    |(int64Of y.re : ℝ) - realOf b n| ≤ epsBound p b ∧ |(int64Of y.im : ℝ) - quadrature (realOf b) n| ≤ epsBound p b

theorem le_epsBound_iff (p : Params) (b : List C64) (x : ℝ) :
    x ≤ epsBound p b ↔ x * (errorBound p (absSum b)).2 ≤ (errorBound p (absSum b)).1 := by
  have hden : (0 : ℝ) < (p.epsDenPred + 1 : Nat) := by exact_mod_cast Nat.succ_pos _
  rw [epsBound, errorBound, div_mul_eq_mul_div, le_div_iff₀ hden, Nat.cast_mul]

theorem epsBound_nonneg (p : Params) (b : List C64) : 0 ≤ epsBound p b := by unfold epsBound; positivity

/-- An EPS_H of at least 2^-53 allows one rounding of a number of magnitude up to `S`. -/
theorem absSum_div_le_epsBound {p : Params} (b : List C64) (heps : p.epsDenPred + 1 ≤ p.epsNum * 2 ^ 53) :
    (absSum b : ℝ) / 2 ^ 53 ≤ epsBound p b := by
  have hden : (0 : ℝ) < (p.epsDenPred + 1 : Nat) := by exact_mod_cast Nat.succ_pos _
  have heps' : ((p.epsDenPred + 1 : Nat) : ℝ) ≤ p.epsNum * 2 ^ 53 := by exact_mod_cast heps
  rw [epsBound, div_mul_eq_mul_div, div_le_div_iff₀ (by positivity) hden]
  calc (absSum b : ℝ) * (p.epsDenPred + 1 : Nat) ≤ absSum b * (p.epsNum * 2 ^ 53) := by gcongr
    _ = p.epsNum * absSum b * 2 ^ 53 := by ring

theorem accurateRe_iff (bound : Nat × Nat) (a y : Int) :
    accurateRe bound a y = true ↔ |(y : ℝ) - a| * bound.2 ≤ bound.1 := by
  rw [accurateRe, decide_eq_true_iff, ← Nat.cast_le (α := ℝ), Nat.cast_mul, Nat.cast_natAbs, Int.cast_abs, Int.cast_sub]

theorem nearAnalytic_of_hilbertAccepts {p : Params} {b o : List C64} (h : hilbertAccepts p b o = true) {n : Nat}
    (hn : n < 1024) : NearAnalytic p b n (cget o n) := by
  rw [hilbertAccepts, Bool.and_eq_true, allBelow_iff] at h
  have hcheck := h.2 n hn
  simp only [Bool.and_eq_true] at hcheck
  obtain ⟨⟨⟨hre, him⟩, haccRe⟩, haccIm⟩ := hcheck
  rw [tapTerms_congr fun q hq => realInts_get b hq] at haccIm
  refine ⟨hre, him, (le_epsBound_iff ..).mpr ((accurateRe_iff ..).mp haccRe), (le_epsBound_iff ..).mpr ?_⟩
  rw [quadrature_eq _ n hn]
  exact accurateIm_sound (tapTerms_indices _ n) haccIm

/-- The reference function's quadrature component is the exact sum, rounded once (R163). -/
theorem quadratureRef_realOf_roundsTo (b : List C64) {n : Nat} (hn : n < 1024) :
    RoundsTo (quadrature (realOf b) n) (quadratureRef (tapsAt 320) (realOf b) n) :=
  quadratureRef_roundsTo (fun _ => int64Of_le _) hn

theorem nearAnalytic_hilbertFinite {p : Params} {b : List C64} (hb : BlockFinite b)
    (heps : p.epsDenPred + 1 ≤ p.epsNum * 2 ^ 53) (hS : absSum b = 0 ∨ (2 ^ 54 ≤ absSum b ∧ absSum b ≤ 2 ^ 2097)) {n : Nat}
    (hn : n < 1024) : NearAnalytic p b n (cget (hilbertFinite b) n) := by
  obtain ⟨hfin, herr⟩ := (quadratureRef_realOf_roundsTo b hn).error_le (abs_quadrature_le b n) hS
  have hre : int64Of (cget b n).re = realOf b n := rfl
  rw [cget_hilbertFinite b hn]
  refine ⟨hb n hn, hfin, ?_, herr.trans (absSum_div_le_epsBound b heps)⟩
  rw [hre, sub_self, abs_zero]
  exact epsBound_nonneg p b

/-- R164 (2), (3), for every implementation. -/
theorem nearAnalytic_hilbert {p : Params} (step k : Nat) {b : List C64} (hb : BlockFinite b)
    (heps : p.epsDenPred + 1 ≤ p.epsNum * 2 ^ 53) (hS : absSum b = 0 ∨ (2 ^ 54 ≤ absSum b ∧ absSum b ≤ 2 ^ 2097)) {n : Nat}
    (hn : n < 1024) : NearAnalytic p b n (cget (hilbert p step k b) n) := by
  cases hp : p.hilbert with
  | reference =>
    rw [hilbert_of_reference _ _ hp hb]
    exact nearAnalytic_hilbertFinite hb heps hS hn
  | other id =>
    rw [hilbert_of_other _ _ hp hb]
    split
    · next hacc => exact nearAnalytic_of_hilbertAccepts hacc hn
    · exact nearAnalytic_hilbertFinite hb heps hS hn

/-! ## The impulse -/

/-- The real parts of the impulse of spec/95_test_vectors.md 2.3.1. -/
def impulseRe (j : Nat) : F64 := if j = 0 then one64 else 0

theorem isFinite64_impulseRe (j : Nat) : isFinite64 (impulseRe j) = true := by
  rw [impulseRe]
  split <;> decide +kernel

/-- From an even place every odd distance leads to an odd place, where the impulse is zero. -/
theorem quadratureRef_impulseRe_even (taps : Array Ball) {n : Nat} (heven : n % 2 = 0) :
    quadratureRef taps (fun q => int64Of (impulseRe q)) n = 0 := by
  refine quadratureRef_eq_zero taps fun j hodd hj => ?_
  rw [impulseRe, impulseRe, if_neg (by omega), if_neg (by omega)]

/-- The odd places of the table in spec/95_test_vectors.md 2.3.1. -/
theorem quadratureRef_impulseRe_odd :
    quadratureRef (tapsAt 320) (fun q => int64Of (impulseRe q)) 1 = 0xBFE45F2C3D750E5E#64 ∧
    quadratureRef (tapsAt 320) (fun q => int64Of (impulseRe q)) 3 = 0xBFCB2963A3AE72E1#64 ∧
    quadratureRef (tapsAt 320) (fun q => int64Of (impulseRe q)) 5 = 0xBFC04BD2F749CC85#64 ∧
    quadratureRef (tapsAt 320) (fun q => int64Of (impulseRe q)) 511 = 0xBED922007F34AD0E#64 ∧
    quadratureRef (tapsAt 320) (fun q => int64Of (impulseRe q)) 513 = 0x3ED922007F34AD0E#64 ∧
    quadratureRef (tapsAt 320) (fun q => int64Of (impulseRe q)) 1021 = 0x3FCB2963A3AE72E1#64 ∧
    quadratureRef (tapsAt 320) (fun q => int64Of (impulseRe q)) 1023 = 0x3FE45F2C3D750E5E#64 := by
  decide +kernel

/-! ## The obligations -/

/-- Settles O38: such a block is not finite, and the step answers a block of drawn NaNs. -/
theorem nonFiniteBlockGivesNaN : Obligations.NonFiniteBlockGivesNaN := by
  intro p step k b ⟨m, hm, hnot⟩ n hn
  have hb : ¬ BlockFinite b := fun h => Bool.false_ne_true (hnot.symm.trans (h m hm))
  rw [hilbert_of_not_blockFinite p step k hb, cget_nanBlock step k hn]
  exact ⟨isNaN64_nan64 _, isNaN64_nan64 _, rfl, rfl⟩

/-- Settles O39: places at an odd distance on either side have the same parity, so the same sample. -/
theorem dcAndNyquistPass : Obligations.DcAndNyquistPass := by
  intro p step k c d hp hc hd n hn
  have hfin : ∀ j, isFinite64 (if j % 2 = 0 then c else d) = true := fun j => by split <;> assumption
  refine (cget_hilbert_realBlock step k hp hfin hn).trans (congrArg (C64.mk _) (quadratureRef_eq_zero _ fun j _ hj => ?_))
  rw [show (n + 1024 - j) % 1024 % 2 = (n + j) % 1024 % 2 by omega]

/-- Settles O40: the reference function copies the real parts. -/
theorem referenceRealPartExact : Obligations.ReferenceRealPartExact := by
  intro p hp step k b n hb hn
  rw [cget_hilbert_of_reference step k hp hb hn]

/-- Settles O56: another implementation's answer stands where it was judged accurate, and elsewhere the reference's is, by one
rounding of a sum of magnitude up to `S`. -/
theorem hilbertIsAccurate : Obligations.HilbertIsAccurate := fun p step k _ hb heps hS =>
  ⟨length_hilbert p step k _, fun step' k' _ h => hilbert_congr h hb p step k step' k',
    fun _ hn => nearAnalytic_hilbert step k hb heps hS hn⟩

/-- Settles O57: the enclosures and the exact case round every finite block's sum correctly. -/
theorem quadratureIsRounded : Obligations.QuadratureIsRounded := by
  intro p step k n b hp hb hn
  rw [cget_hilbert_of_reference step k hp hb hn]
  exact quadratureRef_realOf_roundsTo b hn

/-- Settles O58: the real parts are copied, the even places have no term, and the odd places of the table are evaluated. -/
theorem hilbertImpulse : Obligations.HilbertImpulse := by
  intro p step k hp
  have hentry {n : Nat} (hn : n < 1024) := cget_hilbert_realBlock step k hp isFinite64_impulseRe hn
  have him {n : Nat} (hn : n < 1024) := congrArg C64.im (hentry hn)
  obtain ⟨h1, h3, h5, h511, h513, h1021, h1023⟩ := quadratureRef_impulseRe_odd
  exact ⟨fun n hn => congrArg C64.re (hentry hn), fun n hn heven => (him hn).trans (quadratureRef_impulseRe_even _ heven),
    (him (by decide)).trans h1, (him (by decide)).trans h3, (him (by decide)).trans h5, (him (by decide)).trans h511,
    (him (by decide)).trans h513, (him (by decide)).trans h1021, (him (by decide)).trans h1023⟩

end Sys2Proof.Machine
end

section
/-! PROOFS. The modulator and the mixer of spec/43_modulator_mixer.md: the phase sequence and the rotated samples of a PROCESS
(R180, R195), the order of pushes and modulations (R181), TRIG_IMPL (R183) and the off path (R186), and the crossfaded
accumulation into the output words with the gains it leaves (R187 to R191).

The modulate phase is followed sample by sample, the mix phase channel by channel and, within one, sample by sample. -/

namespace Sys2Proof.Machine

open Sys2Proof Sys2Proof.Config Sys2Proof.Claims

/-! ## The block of a PROCESS -/

/-- A PROCESS that passes its checks and answers next has run the block (R215). -/
theorem exec_process_next {s t : State} {n : Nat} (h : exec (.process n) s = .next t) (hinit : s.inst.status.init = true)
    (h1 : 1 ≤ n) (hn : n ≤ s.cfg.nmax) : t = s.drawn.complete (processBlock s.cfg s.draws n s.inst) := by
  have hlen : checkLength n s.cfg.nmax = none := if_neg (by omega)
  have hok : requireInit s.inst.status (checkLength n s.cfg.nmax) = none := (if_pos hinit).trans hlen
  obtain ⟨e, he, -⟩ | ⟨-, -, rfl⟩ := execProcess_cases h
  · rw [hok] at he
    cases he
  · rfl

@[simp] theorem processBlock_inc (p : Params) (step n : Nat) (u : Instance) :
    (processBlock p step n u).inc = (modulatePhase p step n (pushPhase p step n u)).inc := by simp [processBlock]

@[simp] theorem processBlock_rawOut (p : Params) (step n : Nat) (u : Instance) :
    (processBlock p step n u).rawOut = (modulatePhase p step n (pushPhase p step n u)).rawOut := by simp [processBlock]

/-! ## The modulate phase -/

section Modulate

variable (p : Params) (step n : Nat) (u : Instance)

theorem modulatePhase_succ :
    modulatePhase p step (n + 1) u = modulate p step n (modulatePhase p step n u) := rfl

theorem length_modulatePhase_rawOut : (modulatePhase p step n u).rawOut.length = u.rawOut.length :=
  forUp_frame (f := modulate p step) (fun v => v.rawOut.length) (fun _ _ => List.length_set) n u

/-- R195: the stored phase after the samples so far. -/
theorem modulatePhase_inc : (modulatePhase p step n u).inc = phaseSeq step u.inc u.fracFreq n := by
  induction n with
  | zero => rfl
  | succ n ih => rw [modulatePhase_succ, modulate_inc, ih, modulatePhase_fracFreq]; rfl

/-- R180: each sample is rotated by the wrapped phase of its place. -/
theorem modulatePhase_rawOut {k : Nat} (hk : k < n) (hlen : n ≤ u.rawOut.length) :
    (modulatePhase p step n u).rawOut.getD k 0 =
      rotate p step k u.sign (wrapPhase step k (phaseSeq step u.inc u.fracFreq k)) (cget u.outdata k) := by
  induction n with
  | zero => cases hk
  | succ n ih =>
    rw [modulatePhase_succ, modulate_rawOut, getD_set, length_modulatePhase_rawOut]
    rcases Nat.lt_succ_iff_lt_or_eq.mp hk with hlt | rfl
    · rw [if_neg (by omega), ih hlt (by omega)]
    · rw [if_pos ⟨rfl, hlen⟩, modulatePhase_inc, modulatePhase_sign, modulatePhase_outdata]

end Modulate

/-! ## Pushes and modulations commute -/

section Interleave

variable (p : Params) (step : Nat) (u : Instance)

/-- A push neither reads nor writes what a modulation writes. -/
theorem push_withModulated (k : Nat) (r : List F32) (i : F64) :
    push p step k { u with rawOut := r, inc := i } = { push p step k u with rawOut := r, inc := i } := by
  by_cases hc : u.count + 1 = 1024
  · have e : push p step k u = boundary p step k (pushSample k (Memory.sample u.mem (inAddr k)) u) := if_pos hc
    rw [e]
    exact if_pos hc
  · have e : push p step k u = pushSample k (Memory.sample u.mem (inAddr k)) u := if_neg hc
    rw [e]
    exact if_neg hc

/-- Of what a push writes, a modulation reads the delayed sample of its own place alone. -/
theorem modulate_push_comm {j k : Nat} (h : j ≠ k) :
    modulate p step j (push p step k u) = push p step k (modulate p step j u) := by
  have hout : cget (push p step k u).outdata j = cget u.outdata j := by
    rw [push_outdata, cget_set, if_neg fun hkj => h hkj.1.symm]
  calc modulate p step j (push p step k u)
      = { push p step k u with
          rawOut := u.rawOut.set j (rotate p step j u.sign (wrapPhase step j u.inc) (cget u.outdata j))
          inc := advance step j (wrapPhase step j u.inc) u.fracFreq } := by
        simp only [modulate, push_rawOut, push_inc, push_sign, push_fracFreq, hout]
    _ = push p step k (modulate p step j u) := (push_withModulated ..).symm

/-- A push comes as well before as after the modulations of other places. -/
theorem modulatePhase_push_comm {n k : Nat} (h : n ≤ k) :
    modulatePhase p step n (push p step k u) = push p step k (modulatePhase p step n u) := by
  induction n with
  | zero => rfl
  | succ n ih => rw [modulatePhase_succ, modulatePhase_succ, ih (by omega), modulate_push_comm p step _ (by omega)]

theorem modulatePhase_pushPhase (n : Nat) :
    modulatePhase p step n (pushPhase p step n u) = forUp (fun k v => modulate p step k (push p step k v)) n u := by
  induction n with
  | zero => rfl
  | succ n ih =>
    have hpush : pushPhase p step (n + 1) u = push p step n (pushPhase p step n u) := rfl
    rw [hpush, modulatePhase_succ, modulatePhase_push_comm p step _ le_rfl, ih, forUp_succ]

end Interleave

/-! ## The mix phase -/

section Mix

variable (step n : Nat) (u : Instance)

theorem mixPhase_succ (nch : Nat) : mixPhase step n (nch + 1) u = mix step n nch (mixPhase step n nch u) := rfl

theorem length_mixPhase_current (nch : Nat) : (mixPhase step n nch u).current.length = u.current.length :=
  forUp_frame (f := mix step n) (fun v => v.current.length) (fun _ _ => List.length_set) nch u

/-- R189: the current gain of a mixed channel is its target. -/
theorem mixPhase_current_lt {nch c : Nat} (hc : c < nch) (hlen : nch ≤ u.current.length) :
    (mixPhase step n nch u).current.getD c 0 = u.target.getD c 0 := by
  induction nch with
  | zero => cases hc
  | succ nch ih =>
    rw [mixPhase_succ, mix_current, getD_set, length_mixPhase_current, mixPhase_target]
    rcases Nat.lt_succ_iff_lt_or_eq.mp hc with hlt | rfl
    · rw [if_neg (by omega), ih hlt (by omega)]
    · rw [if_pos ⟨rfl, hlen⟩]

/-- Two words that share no byte. -/
def WordsApart (a b : Nat) : Prop := a + 3 < b ∨ b + 3 < a

/-- Output words of a channel are apart (R63). -/
theorem outAddr_apart_sample {c k j : Nat} (h : k ≠ j) : WordsApart (outAddr c k) (outAddr c j) := by
  simp only [WordsApart, outAddr]
  omega

/-- A channel's 2048 output words are apart from every other channel's (R63). -/
theorem outAddr_apart_channel {c d k j : Nat} (h : c ≠ d) (hk : k < 2048) (hj : j < 2048) :
    WordsApart (outAddr c k) (outAddr d j) := by
  simp only [WordsApart, outAddr]
  omega

section Channel

variable {step n u} {c : Nat} {m : Memory}

/-- A channel's mix leaves a word apart from those it accumulates into. -/
theorem word_mixSamples_of_apart (hm : Memory.Wf m) {i a : Nat} (ha : ∀ k, k < i → WordsApart a (outAddr c k)) :
    Memory.word (forUp (mixSample step n c u) i m) a = Memory.word m a := by
  induction i with
  | zero => rfl
  | succ i ih =>
    rw [forUp_succ, mixSample, Memory.word_setWord_of_ne _ _ _ _ (wf_mixSamples step n c u i m hm) (ha i i.lt_succ_self),
      ih fun k hk => ha k (Nat.lt_succ_of_lt hk)]

/-- R187, R188: a channel's mix adds to each of its words once. -/
theorem word_mixSamples (hm : Memory.Wf m) {i k : Nat} (hk : k < i) {old : F32}
    (hold : Memory.word m (outAddr c k) = some old) :
    Memory.word (forUp (mixSample step n c u) i m) (outAddr c k) =
      some (mixWord step c k n (u.current.getD c 0) (u.target.getD c 0) (u.rawOut.getD k 0) old) := by
  induction i with
  | zero => cases hk
  | succ i ih =>
    have hwf := wf_mixSamples step n c u i m hm
    rw [forUp_succ, mixSample]
    rcases Nat.lt_succ_iff_lt_or_eq.mp hk with hlt | rfl
    · rw [Memory.word_setWord_of_ne _ _ _ _ hwf (outAddr_apart_sample hlt.ne), ih hlt]
    · have hread : Memory.word (forUp (mixSample step n c u) k m) (outAddr c k) = some old := by
        rw [word_mixSamples_of_apart hm fun j hj => outAddr_apart_sample (Nat.ne_of_gt hj), hold]
      rw [Memory.word_setWord _ _ _ hwf, Memory.sample, hread]
      rfl

end Channel

variable {u}

theorem wf_mixPhase (hm : Memory.Wf u.mem) (nch : Nat) : Memory.Wf (mixPhase step n nch u).mem :=
  forUp_induction (f := mix step n) (P := fun v => Memory.Wf v.mem) hm fun c v _ hv => wf_mixSamples step n c v n v.mem hv

/-- A mix phase leaves a word apart from those it accumulates into. -/
theorem word_mixPhase_of_apart (hm : Memory.Wf u.mem) {nch a : Nat}
    (ha : ∀ c k, c < nch → k < n → WordsApart a (outAddr c k)) :
    Memory.word (mixPhase step n nch u).mem a = Memory.word u.mem a := by
  induction nch with
  | zero => rfl
  | succ nch ih =>
    rw [mixPhase_succ, mix_mem, word_mixSamples_of_apart (wf_mixPhase step n hm nch) fun k hk => ha nch k nch.lt_succ_self hk,
      ih fun c k hc hk => ha c k (Nat.lt_succ_of_lt hc) hk]

/-- R187, R191: a mix phase adds to each output word of its channels once, with the channel's gains before the block. -/
theorem word_mixPhase (hm : Memory.Wf u.mem) (hn : n ≤ 2048) {nch c k : Nat} (hc : c < nch) (hk : k < n) {old : F32}
    (hold : Memory.word u.mem (outAddr c k) = some old) :
    Memory.word (mixPhase step n nch u).mem (outAddr c k) =
      some (mixWord step c k n (u.current.getD c 0) (u.target.getD c 0) (u.rawOut.getD k 0) old) := by
  induction nch with
  | zero => cases hc
  | succ nch ih =>
    have hwf := wf_mixPhase step n hm nch
    have hapart {d j : Nat} (hd : c ≠ d) (hj : j < n) : WordsApart (outAddr c k) (outAddr d j) :=
      outAddr_apart_channel hd (by omega) (by omega)
    rw [mixPhase_succ, mix_mem]
    rcases Nat.lt_succ_iff_lt_or_eq.mp hc with hlt | rfl
    · rw [word_mixSamples_of_apart hwf fun j hj => hapart hlt.ne hj, ih hlt]
    · have hread : Memory.word (mixPhase step n c u).mem (outAddr c k) = some old := by
        rw [word_mixPhase_of_apart step n hm fun d j hd hj => hapart (Nat.ne_of_gt hd) hj, hold]
      rw [word_mixSamples hwf hk hread, mixPhase_current_ge step n c c u le_rfl, mixPhase_target, mixPhase_rawOut]

end Mix

/-! ## TRIG_IMPL -/

section Trig

variable {x : F64} {s : Bool} {m : Nat}

/-- The default cosine of a finite number draws nothing. -/
theorem cosRef_draw_irrelevant (hx : view64 x = .fin s m) (d e : Draw) : cosRef d x = cosRef e x := by
  rw [cosRef, cosRef, hx]

theorem sinRef_draw_irrelevant (hx : view64 x = .fin s m) (d e : Draw) : sinRef d x = sinRef e x := by
  rw [sinRef, sinRef, hx]

/-- R183: a TRIG_IMPL is a function of its argument alone. -/
theorem cos64_draw_irrelevant (hx : view64 x = .fin s m) (p : Impl) (d e : Draw) : cos64 p d x = cos64 p e x := by
  cases p with
  | reference => exact cosRef_draw_irrelevant hx d e
  | other id =>
    rw [cos64, cos64]
    split
    · rfl
    · exact cosRef_draw_irrelevant hx d e

theorem sin64_draw_irrelevant (hx : view64 x = .fin s m) (p : Impl) (d e : Draw) : sin64 p d x = sin64 p e x := by
  cases p with
  | reference => exact sinRef_draw_irrelevant hx d e
  | other id =>
    rw [sin64, sin64]
    split
    · rfl
    · exact sinRef_draw_irrelevant hx d e

/-- The domain of R183 by a number's sign and magnitude, a negative zero included. -/
theorem inTrigDomain_of_view (hx : view64 x = .fin s m) (hs : s = false ∨ m = 0)
    (hm : m < 2 * (int64Of twoPi64).toNat) : inTrigDomain x = true ∧ int64Of x = m := by
  generalize hT : int64Of twoPi64 = T at hm
  have hlt : (m : Int) < 2 * T := by omega
  rw [inTrigDomain, int64Of_of_view hx, hx, hT]
  obtain rfl | rfl := hs
  · simpa [signed] using hlt
  · simpa [signed] using hlt

end Trig

theorem cos64_zero (p : Impl) (d : Draw) : cos64 p d 0 = one64 := (trig_meets p d).1

theorem sin64_zero (p : Impl) (d : Draw) : sin64 p d 0 = 0 := (trig_meets p d).2.1

/-- The vectors of spec/95_test_vectors.md 2.4.3, under one draw. -/
theorem trigRef_vectors :
    let d : Draw := ⟨0, .cosine, 0, 0⟩
    cosRef d 0x3FF921FB54442D18#64 = 0x3C91A62633145C07#64 ∧ sinRef d 0x3FF921FB54442D18#64 = one64 ∧
    cosRef d 0x3FE921FB54442D18#64 = 0x3FE6A09E667F3BCD#64 ∧ sinRef d 0x3FE921FB54442D18#64 = 0x3FE6A09E667F3BCC#64 := by
  decide +kernel

/-! ## The off path -/

section OffPath

variable {x y : F64} {s t : Bool} {m : Nat}

/-- A product with a number of magnitude 1.0 is exact (R182). -/
theorem view64_mul_unit (d : Draw) (hx : view64 x = .fin s m) (hy : view64 y = .fin t (2 ^ 1074)) :
    view64 (mul64 d x y) = .fin (s ^^ t) m := by
  obtain ⟨c, hc, rfl⟩ := view64_fin hx
  rw [mul64, hx, hy, Fp.mul, view64_finish, roundCode_scale .b64 _ _ two_pow_1074_pos, roundCode_magOf .b64 c hc, if_pos hc]

theorem view64_unit_mul (d : Draw) (hx : view64 x = .fin t (2 ^ 1074)) (hy : view64 y = .fin s m) :
    view64 (mul64 d x y) = .fin (t ^^ s) m := by
  have hcomm : mul64 d x y = mul64 d y x := by rw [mul64, mul64, hx, hy, Fp.mul, Fp.mul, Bool.xor_comm, Nat.mul_comm]
  rw [hcomm, view64_mul_unit d hy hx, Bool.xor_comm]

theorem view64_signValue (sign : BitVec 1) : ∃ r, view64 (signValue sign) = .fin r (2 ^ 1074) := by
  rw [signValue]
  split
  · exact ⟨false, by decide +kernel⟩
  · exact ⟨true, by decide +kernel⟩

theorem roundCode_zero (f : Fmt) (den : Nat) : Fmt.roundCode f 0 den = 0 := by simp [Fmt.roundCode, rneNat]

theorem magOf_zero (f : Fmt) : Fmt.magOf f 0 = 0 := magOf_small f 0 (Nat.two_pow_pos _)

/-- A zero that a finite number is multiplied by gives a zero. -/
theorem view64_mul_zero (d : Draw) (hx : view64 x = .fin s m) : view64 (mul64 d x 0) = .fin s 0 := by
  rw [mul64, hx, view64_zero, Fp.mul, Nat.mul_zero, Bool.xor_false, view64_finish, roundCode_zero, magOf_zero,
    if_pos (by decide)]

theorem Fp.add_fin_zero (s t : Bool) (m : Nat) :
    ∃ r, Fp.add (.fin s m) (.fin t 0) = .rat r m 1 ∧ (m ≠ 0 → r = s) := by
  by_cases hm : m = 0
  · rw [hm]
    exact ⟨s && t, by cases s <;> cases t <;> rfl, fun h => absurd rfl h⟩
  · refine ⟨s, ?_, fun _ => rfl⟩
    cases s <;> simp [Fp.add, signed, hm, Nat.pos_of_ne_zero hm]

/-- Adding a zero changes nothing but, of a zero, the sign. -/
theorem view64_add_zero (d : Draw) (hx : view64 x = .fin s m) (hy : view64 y = .fin t 0) :
    ∃ r, view64 (add64 d x y) = .fin r m ∧ (m ≠ 0 → r = s) := by
  obtain ⟨r, hr, hsign⟩ := Fp.add_fin_zero s t m
  obtain ⟨c, hc, rfl⟩ := view64_fin hx
  exact ⟨r, by rw [add64, hx, hy, hr, view64_finish, roundCode_magOf .b64 c hc, if_pos hc], hsign⟩

/-- Narrowing depends on what a number denotes. -/
theorem to32_congr (d : Draw) (h : view64 x = view64 y) : to32 d x = to32 d y := by rw [to32, to32, h]

/-- A zero narrows to a zero. -/
theorem isZero32_to32 (d : Draw) (hx : view64 x = .fin s 0) : IsZero32 (to32 d x) := by
  refine ⟨s, ?_⟩
  rw [to32, hx, Fp.narrow, view32_finish, roundCode_zero, magOf_zero, if_pos (by decide)]

/-- R186: at phase +0.0 the rotation is the real part with a zero added, narrowed. -/
theorem rotate_zero (p : Params) (step k : Nat) (sign : BitVec 1) {z : C64} {a b : Bool} {i : Nat}
    (hre : view64 z.re = .fin a m) (him : view64 z.im = .fin b i) :
    ∃ w r, rotate p step k sign 0 z = to32 ⟨step, .modNarrow, k, 0⟩ w ∧ view64 w = .fin r m ∧ (m ≠ 0 → r = a) := by
  have hone : view64 one64 = .fin false (2 ^ 1074) := by decide +kernel
  have htwoPi : view64 twoPi64 = .fin false (int64Of twoPi64).natAbs := by decide +kernel
  obtain ⟨g, hg⟩ := view64_signValue sign
  have ht1 := view64_mul_unit ⟨step, .modRe, k, 0⟩ hre hone
  have ht2 := view64_mul_zero ⟨step, .modIm, k, 0⟩ (view64_unit_mul ⟨step, .modSign, k, 0⟩ hg him)
  obtain ⟨r, hr, hsign⟩ := view64_add_zero ⟨step, .modAdd, k, 0⟩ ht1 ht2
  rw [Bool.xor_false] at hsign
  rw [rotate, mul64_zero_right _ htwoPi, cos64_zero, sin64_zero]
  exact ⟨_, r, rfl, hr, hsign⟩

end OffPath

/-! ## The obligations -/

/-- Settles O22: the mix phase sets the gains of the active channels, and no other sub-step of the block writes a gain. -/
theorem processGains : Obligations.ProcessGains := by
  intro s t n h hinit h1 hn hlen hnch c
  obtain rfl := exec_process_next h hinit h1 hn
  rw [State.complete_inst, processBlock]
  split
  · next hc =>
    rw [mixPhase_current_lt _ _ _ hc (by simpa [hlen] using hnch), modulatePhase_target, pushPhase_target]
  · next hc =>
    rw [mixPhase_current_ge _ _ _ _ _ (Nat.le_of_not_lt hc), modulatePhase_current, pushPhase_current]

/-- Settles O23: the mix phase alone writes the buffers, and the output words of a channel and of different channels are
apart. -/
theorem processAccumulates : Obligations.ProcessAccumulates := by
  intro s t n h hinit h1 hn hmax hwf
  obtain rfl := exec_process_next h hinit h1 hn
  generalize hv : modulatePhase s.cfg s.draws n (pushPhase s.cfg s.draws n s.inst) = v
  have hblock : processBlock s.cfg s.draws n s.inst = mixPhase s.draws n s.inst.nch v := by rw [← hv]; rfl
  have hmem : v.mem = s.inst.mem := by rw [← hv, modulatePhase_mem, pushPhase_mem]
  have hcurrent : v.current = s.inst.current := by rw [← hv, modulatePhase_current, pushPhase_current]
  have htarget : v.target = s.inst.target := by rw [← hv, modulatePhase_target, pushPhase_target]
  rw [State.complete_inst, hblock]
  refine ⟨fun c k old hc hk hold => ?_, fun a ha => (mixPhase_mem_outside _ _ _ a v ha).trans (by rw [hmem])⟩
  have hword := word_mixPhase s.draws n (hmem ▸ hwf) (hn.trans hmax) hc hk (hmem ▸ hold)
  rw [hcurrent, htarget] at hword
  rw [mixPhase_rawOut]
  exact hword

/-- Settles O24: the modulate phase follows the phase sequence, and the pushes before it leave its start, the frequency and the
sign alone. -/
theorem processModulates : Obligations.ProcessModulates := by
  intro s t n h hinit h1 hn hlen
  obtain rfl := exec_process_next h hinit h1 hn
  rw [State.complete_inst]
  refine ⟨?_, fun k hk => ?_⟩
  · rw [processBlock_inc, modulatePhase_inc, pushPhase_inc, pushPhase_fracFreq]
  · have hraw := modulatePhase_rawOut s.cfg s.draws n (pushPhase s.cfg s.draws n s.inst) hk
      (by rw [pushPhase_rawOut, hlen]; exact hn)
    rw [pushPhase_sign, pushPhase_inc, pushPhase_fracFreq] at hraw
    rw [processBlock_rawOut, processBlock_outdata]
    exact hraw

/-- Settles O25: a push and a modulation of another place commute. -/
theorem modulateCommutesWithPush : Obligations.ModulateCommutesWithPush := fun p step n u =>
  modulatePhase_pushPhase p step u n

/-- Settles O32: the cosine is 1.0 and the sine +0.0, so a zero is added to the real part. -/
theorem offPathPassesThrough : Obligations.OffPathPassesThrough := by
  intro p step k sign y hre him
  obtain ⟨a, m, hre⟩ := exists_view_of_isFinite64 hre
  obtain ⟨b, i, him⟩ := exists_view_of_isFinite64 him
  obtain ⟨w, r, hw, hview, hsign⟩ := rotate_zero p step k sign hre him
  rw [hw]
  by_cases hm : m = 0
  · rw [hm] at hre hview
    exact .inr ⟨isZero32_to32 _ hview, isZero32_to32 _ hre⟩
  · exact .inl (to32_congr _ (by rw [hview, hre, hsign hm]))

/-- Settles O37: every TRIG_IMPL of the model meets R183, and the default's four vectors are evaluated. -/
theorem trigAtZero : Obligations.TrigAtZero := by
  refine ⟨fun p d => ⟨cos64_zero p d, sin64_zero p d, fun x s m hx hs hm => ?_⟩, fun d => ?_⟩
  · obtain ⟨-, -, hnear⟩ := trig_meets p d
    obtain ⟨hdom, hint⟩ := inTrigDomain_of_view hx hs hm
    obtain ⟨⟨hcfin, hcone, hcnear⟩, hsfin, hsone, hsnear⟩ := hnear x hdom
    rw [hint, Int.cast_natCast] at hcnear hsnear
    exact ⟨fun e => ⟨cos64_draw_irrelevant hx p e d, sin64_draw_irrelevant hx p e d⟩, hcfin, hsfin, hcone, hsone, hcnear,
      hsnear⟩
  · have hhalf : view64 0x3FF921FB54442D18#64 = .fin false (int64Of 0x3FF921FB54442D18#64).natAbs := by decide +kernel
    have hquarter : view64 0x3FE921FB54442D18#64 = .fin false (int64Of 0x3FE921FB54442D18#64).natAbs := by decide +kernel
    obtain ⟨hch, hsh, hcq, hsq⟩ := trigRef_vectors
    exact ⟨(cosRef_draw_irrelevant hhalf d _).trans hch, (sinRef_draw_irrelevant hhalf d _).trans hsh,
      (cosRef_draw_irrelevant hquarter d _).trans hcq, (sinRef_draw_irrelevant hquarter d _).trans hsq⟩

end Sys2Proof.Machine
end

section
/-! PROOFS. The commands and the host transactions of spec/44_host_commands.md: what a step runs (R210, R220); what each command
leaves, and when it is refused (R211 to R215, R223); what a host transaction reads and writes of its instance (R210, R216 to
R219); and that commands and transactions leave every other instance alone (R224).

The equations of the operations come first, an obligation's proof puts them together. -/

namespace Sys2Proof.Machine

open Sys2Proof Sys2Proof.Config Sys2Proof.Claims

/-! ## Steps -/

section Steps

variable {s s' : State}

theorem engineStep_of_cmd {i : Instr} (h : decode s.inst.pcmd = .cmd i) : engineStep s = exec i s := by
  rw [engineStep, h]

theorem step_of_nextEngine (h : s.nextEngine = some s') : step s = engineStep s' := by
  rw [step, h]

theorem step_of_host {op : HostOp} {rest : List HostOp} (hn : s.nextEngine = none) (hh : s.host = op :: rest) :
    step s = hostStep op rest s := by
  simp only [step, hn, hh]

/-- A command word of 32 bits is accepted as it is (log 19). -/
theorem withFetchWord_eq (s : State) (w : Word) : s.withFetchWord 32 w.toNat = s.withInst (accept 0 w s.inst) := by
  rw [State.withFetchWord, Nat.mod_eq_of_lt w.isLt, BitVec.ofNat_toNat, BitVec.setWidth_eq]

/-- NOP's word is the only one of opcode 0 with no reserved bit (R91). -/
theorem reservedBitSet_of_opcField_zero {w : Word} (hopc : opcField w = 0) (hw : w ≠ 0) : ReservedBitSet w := by
  by_contra hres
  have hlow := (not_reservedBitSet_iff (by omega)).mp hres
  rw [hopc, operandBits] at hlow
  have hdiv := opcField_eq_div w
  exact hw (BitVec.eq_of_toNat_eq (show w.toNat = 0 by omega))

end Steps

/-! ## What an engine step writes -/

section EngineStep

variable {s t : State}

/-- A command ends in a refusal or a completion, and both clear BUSY (R210, R253). -/
theorem exec_clears_busy {i : Instr} (h : exec i s = .next t) : t.inst.status.busy = false := by
  cases i with
  | nop => cases h; rfl
  | reset n => obtain ⟨-, rfl⟩ | ⟨-, -, -, rfl⟩ | ⟨-, -, -, rfl⟩ := execReset_cases h <;> rfl
  | setShift dir => obtain ⟨e, -, rfl⟩ | ⟨-, rfl⟩ := execSetShift_cases h <;> rfl
  | setGain ch => obtain ⟨e, -, rfl⟩ | ⟨-, rfl⟩ := execSetGain_cases h <;> rfl
  | process n => obtain ⟨e, -, rfl⟩ | ⟨-, -, rfl⟩ := execProcess_cases h <;> rfl

/-- An engine step writes the served instance and the count of draws, and no other element of the machine. -/
theorem engineStep_writes (h : engineStep s = .next t) : ∃ u d, t = { s with inst := u, draws := d } := by
  obtain ⟨-, e⟩ | ⟨-, e⟩ | ⟨i, -, e⟩ := engineStep_cases s <;> rw [e] at h
  · cases h; exact ⟨_, _, rfl⟩
  · cases h; exact ⟨_, _, rfl⟩
  · exact exec_writes h

end EngineStep

/-! ## The checks of a command -/

theorem requireInit_of_init {st : Status} {own : Option ErrorName} (h : st.init = true) : requireInit st own = own := if_pos h

/-- NOT_INIT comes before a command's own checks (R254). -/
theorem requireInit_of_not_init {st : Status} {own : Option ErrorName} (h : st.init = false) :
    requireInit st own = some .notInit :=
  if_neg (ne_true_of_eq_false h)

theorem checkNch_eq_none {n : Nat} (h1 : 1 ≤ n) (h16 : n ≤ 16) : checkNch n = none := if_neg (by omega)

/-- A finite number compared with 0 and with a positive bound: a negative zero is not below 0. -/
theorem Fp.inRange_iff (neg : Bool) (m : Nat) {bound : Nat} (hbound : 0 < bound) :
    Fp.ge (.fin neg m) (.fin false 0) = true ∧ Fp.ge (.fin neg m) (.fin false bound) = false ↔
      m = 0 ∨ (neg = false ∧ m < bound) := by
  simp only [Fp.ge, decide_eq_true_eq, decide_eq_false_iff_not]
  cases neg with
  | false => simp only [signed, Bool.false_eq_true, if_false, true_and]; omega
  | true => simp only [signed, Bool.false_eq_true, if_false, if_true, Bool.true_eq_false, false_and, or_false]; omega

/-- R213: a latched frequency passes exactly when it is finite and in [0, 1), a negative zero included. -/
theorem badFreq_eq_false_iff (f : F64) : badFreq f = false ↔ FreqOk f := by
  have hone : view64 one64 = .fin false (2 ^ 1074) := by decide +kernel
  rw [badFreq, isFinite64, ge64, ge64, view64_zero, hone, FreqOk]
  cases view64 f with
  | nan => exact iff_of_false nofun nofun
  | inf neg => exact iff_of_false nofun nofun
  | fin neg m =>
    have hrange := Fp.inRange_iff neg m two_pow_1074_pos
    rw [Bool.or_eq_false_iff, Bool.or_eq_false_iff, Bool.not_eq_false', Bool.not_eq_false']
    constructor
    · rintro ⟨⟨-, hlow⟩, hhigh⟩
      exact ⟨neg, m, rfl, hrange.mp ⟨hlow, hhigh⟩⟩
    · rintro ⟨_, _, ⟨⟩, h⟩
      obtain ⟨hlow, hhigh⟩ := hrange.mpr h
      exact ⟨⟨rfl, hlow⟩, hhigh⟩

theorem checkShift_of_freqOk {dir : Dir} {f : F64} (hdir : dir = .up ∨ dir = .down) (h : FreqOk f) :
    checkShift dir f = none := by
  have hf := ne_true_of_eq_false ((badFreq_eq_false_iff f).mpr h)
  obtain rfl | rfl := hdir <;> exact if_neg hf

theorem checkShift_of_not_freqOk {dir : Dir} {f : F64} (hdir : dir = .up ∨ dir = .down) (h : ¬ FreqOk f) :
    checkShift dir f = some .badFreq := by
  rw [← badFreq_eq_false_iff, Bool.not_eq_false] at h
  obtain rfl | rfl := hdir <;> exact if_pos h

theorem isZero64_iff (f : F64) : isZero64 f = true ↔ ∃ neg, view64 f = .fin neg 0 := by
  rw [isZero64]
  cases view64 f <;> simp

theorem storedFreq_of_zero {f : F64} (h : ∃ neg, view64 f = .fin neg 0) : storedFreq f = 0 :=
  if_pos ((isZero64_iff f).mpr h)

theorem storedFreq_of_not_zero {f : F64} (h : ¬ ∃ neg, view64 f = .fin neg 0) : storedFreq f = f :=
  if_neg ((isZero64_iff f).not.mpr h)

theorem isFinite32_iff (g : F32) : isFinite32 g = true ↔ GainOk g := by
  rw [isFinite32, GainOk]
  cases view32 g <;> simp

theorem checkGain_of_inactive {ch nch : Nat} (g : F32) (hch : nch ≤ ch) : checkGain ch nch g = some .badChannel := if_pos hch

theorem checkGain_of_gainOk {ch nch : Nat} {g : F32} (hch : ch < nch) (h : GainOk g) : checkGain ch nch g = none := by
  rw [checkGain, if_neg (Nat.not_le.mpr hch), if_pos ((isFinite32_iff g).mpr h)]

theorem checkGain_of_not_gainOk {ch nch : Nat} {g : F32} (hch : ch < nch) (h : ¬ GainOk g) :
    checkGain ch nch g = some .badGain := by
  rw [checkGain, if_neg (Nat.not_le.mpr hch), if_neg ((isFinite32_iff g).not.mpr h)]

theorem checkLength_eq_none {n nmax : Nat} (h1 : 1 ≤ n) (hn : n ≤ nmax) : checkLength n nmax = none := if_neg (by omega)

theorem checkLength_eq_some {n nmax : Nat} (h : n = 0 ∨ nmax < n) : checkLength n nmax = some .badLength := if_pos h

theorem buffersWritten_iff_premise (s : State) (n nch : Nat) :
    buffersWritten s.inst.mem n nch = true ↔ BuffersWritten n nch s := by
  rw [buffersWritten_iff, BuffersWritten]
  exact ⟨fun h => ⟨fun k hk => (h k hk).1, fun c k hc hk => (h k hk).2 c hc⟩,
    fun ⟨hin, hout⟩ k hk => ⟨hin k hk, fun c hc => hout c k hc hk⟩⟩

/-! ## What a command answers, by its checks -/

section Answers

variable {s : State} {e : ErrorName} {dir : Dir} {ch n : Nat}

theorem exec_setShift_refused (h : requireInit s.inst.status (checkShift dir s.inst.pfreq) = some e) :
    exec (.setShift dir) s = .next (refusedWith (errorCode e) s) := by
  rw [exec, execSetShift, h, ← raise_eq_refusedWith]

theorem exec_setShift_done (h : requireInit s.inst.status (checkShift dir s.inst.pfreq) = none) :
    exec (.setShift dir) s = .next (doneWith (shiftInstance dir s.inst) s) := by
  rw [exec, execSetShift, h]
  rfl

theorem exec_setGain_refused (h : requireInit s.inst.status (checkGain ch s.inst.nch s.inst.pgain) = some e) :
    exec (.setGain ch) s = .next (refusedWith (errorCode e) s) := by
  rw [exec, execSetGain, h, ← raise_eq_refusedWith]

theorem exec_setGain_done (h : requireInit s.inst.status (checkGain ch s.inst.nch s.inst.pgain) = none) :
    exec (.setGain ch) s = .next (doneWith { s.inst with target := s.inst.target.set ch s.inst.pgain } s) := by
  rw [exec, execSetGain, h]
  rfl

theorem exec_process_refused (h : requireInit s.inst.status (checkLength n s.cfg.nmax) = some e) :
    exec (.process n) s = .next (refusedWith (errorCode e) s) := by
  rw [exec, execProcess, h, ← raise_eq_refusedWith]

/-- A PROCESS of a legal length depends on the words it reads alone (R42, R215). -/
theorem exec_process_of_length (hinit : s.inst.status.init = true) (h1 : 1 ≤ n) (hn : n ≤ s.cfg.nmax) :
    exec (.process n) s =
      if buffersWritten s.inst.mem n s.inst.nch then .next (s.drawn.complete (processBlock s.cfg s.draws n s.inst))
      else .fault .unwrittenBuffer := by
  rw [exec, execProcess, requireInit_of_init hinit, checkLength_eq_none h1 hn]

end Answers

/-! ## The push phase of a PROCESS -/

theorem Memory.word_eq_sample {m : Memory} {a : Nat} (h : (Memory.word m a).isSome) :
    Memory.word m a = some (Memory.sample m a) := by
  obtain ⟨w, hw⟩ := Option.isSome_iff_exists.mp h
  rw [Memory.sample, hw, Option.getD_some]

/-- The pushes take the words of IN_BUF as they were before the PROCESS, in order (R130). -/
theorem pushPhase_succ (p : Params) (step n : Nat) (u : Instance) :
    pushPhase p step (n + 1) u = pushValue p step n (Memory.sample u.mem (inAddr n)) (pushPhase p step n u) := by
  rw [← pushPhase_mem p step n u]
  rfl

/-! ## The targets of the register space -/

section Targets

variable {nmax step off size c k : Nat} {v : Word} {u : Instance} {tg : Target}

theorem busRead_of_target (h : target nmax off size = some tg) : busRead nmax step off size u = readTarget nmax step u tg := by
  rw [busRead, h]

theorem busWrite_of_target (h : target nmax off size = some tg) :
    busWrite nmax step off size v u = writeTarget step v u tg := by
  rw [busWrite, h]

theorem target_curGain (nmax : Nat) (hc : c < 16) : target nmax (0x040 + 4 * c) 4 = some (.curGain c) := by
  rw [target, if_pos (by omega), mapOffset, if_neg (by omega), if_pos (by omega)]
  congr
  omega

theorem target_tgtGain (nmax : Nat) (hc : c < 16) : target nmax (0x080 + 4 * c) 4 = some (.tgtGain c) := by
  rw [target, if_pos (by omega), mapOffset, if_neg (by omega), if_neg (by omega), if_pos (by omega)]
  congr
  omega

theorem target_inBuf (hk : k < nmax) (hmax : nmax ≤ 2048) : target nmax (inAddr k) 4 = some (.inBuf k) := by
  have hidx : (inAddr k - 0x2000) / 4 = k := by rw [inAddr]; omega
  rw [target, if_pos (by rw [inAddr]; omega), mapOffset, hidx, if_pos hk]
  rw [inAddr, if_neg (by omega), if_neg (by omega), if_neg (by omega), if_neg (by omega), if_pos (by omega)]

theorem target_outBuf (hc : c < 16) (hk : k < nmax) (hmax : nmax ≤ 2048) :
    target nmax (outAddr c k) 4 = some (.outBuf c k) := by
  have hch : (outAddr c k - 0x10000) / 0x2000 = c := by rw [outAddr]; omega
  have hidx : (outAddr c k - 0x10000) % 0x2000 / 4 = k := by rw [outAddr]; omega
  rw [target, if_pos (by rw [outAddr]; omega), mapOffset, hch, hidx, if_pos hk]
  rw [outAddr, if_neg (by omega), if_neg (by omega), if_neg (by omega), if_neg (by omega), if_neg (by omega),
    if_neg (by omega), if_pos (by omega)]

theorem readTarget_inBuf_of_word {w : Word} (h : Memory.word u.mem (inAddr k) = some w) :
    readTarget nmax step u (.inBuf k) = .ok w := by
  rw [readTarget, h]

theorem readTarget_outBuf_of_word {w : Word} (h : Memory.word u.mem (outAddr c k) = some w) :
    readTarget nmax step u (.outBuf c k) = .ok (readback step u w) := by
  rw [readTarget, h]

theorem readback_of_idle (step : Nat) (v : Word) (h : u.status.busy = false) : readback step u v = v :=
  if_neg (ne_true_of_eq_false h)

end Targets

/-! ## The fields of a STATUS read -/

/-- Five flags below a word, the last of them at bit 0. -/
theorem getLsbD_append_flags {n : Nat} (x : BitVec n) (f m e b i : Bool) :
    let w := x ++ BitVec.ofBool f ++ BitVec.ofBool m ++ BitVec.ofBool e ++ BitVec.ofBool b ++ BitVec.ofBool i
    w.getLsbD 0 = i ∧ w.getLsbD 1 = b ∧ w.getLsbD 2 = e ∧ w.getLsbD 3 = m ∧ w.getLsbD 4 = f := by
  simp [BitVec.getElem_append]

theorem extractLsb'_append_flags {n : Nat} (x : BitVec n) (f m e b i : Bool) (start len : Nat) :
    (x ++ BitVec.ofBool f ++ BitVec.ofBool m ++ BitVec.ofBool e ++ BitVec.ofBool b ++ BitVec.ofBool i).extractLsb'
      (start + 5) len = x.extractLsb' start len := by
  simp [BitVec.extractLsb'_append_eq_of_le]

theorem extractLsb'_errCode (c : BitVec 4) :
    (0#20 ++ c ++ 0#3).extractLsb' 0 3 = 0 ∧ (0#20 ++ c ++ 0#3).extractLsb' 3 4 = c ∧
      (0#20 ++ c ++ 0#3).extractLsb' 7 20 = 0 := by
  revert c
  decide

/-- The fields of STATUS and its reserved bits, by their places in the word (R31). -/
theorem Status.word_fields (st : Status) :
    st.word.getLsbD 0 = st.init ∧ st.word.getLsbD 1 = st.busy ∧ st.word.getLsbD 2 = st.err ∧
      st.word.getLsbD 3 = st.errMulti ∧ st.word.getLsbD 4 = st.fatal ∧ st.word.extractLsb' 5 3 = 0 ∧
      st.word.extractLsb' 8 4 = st.errCode ∧ st.word.extractLsb' 12 20 = 0 := by
  obtain ⟨hinit, hbusy, herr, hmulti, hfatal⟩ :=
    getLsbD_append_flags (0#20 ++ st.errCode ++ 0#3) st.fatal st.errMulti st.err st.busy st.init
  have habove (start len : Nat) : st.word.extractLsb' (start + 5) len = (0#20 ++ st.errCode ++ 0#3).extractLsb' start len :=
    extractLsb'_append_flags _ st.fatal st.errMulti st.err st.busy st.init start len
  obtain ⟨hlow, hcode, hhigh⟩ := extractLsb'_errCode st.errCode
  exact ⟨hinit, hbusy, herr, hmulti, hfatal, (habove 0 3).trans hlow, (habove 3 4).trans hcode, (habove 7 20).trans hhigh⟩

/-! ## Host transactions and the instances -/

section HostWrite

variable {s t : State} {i off size addr : Nat} {u u' : Instance} {v : Word} {rest : List HostOp}

theorem getElem?_tick (hu : s.instances[i]? = some u) : (s.instances.map Instance.tick)[i]? = some u.tick := by
  rw [List.getElem?_map, hu, Option.map_some]

theorem lt_length_tick (hu : s.instances[i]? = some u) : i < (s.instances.map Instance.tick).length :=
  (List.getElem?_eq_some_iff.mp (getElem?_tick hu)).1

/-- A host write that its instance takes is done with it; the instance is put back in its place, and every instance is one
transaction nearer its engine step (log 6). -/
theorem hostStep_write_ok (rest : List HostOp) (ho : off < 0x40000) (hu : s.instances[i]? = some u)
    (hw : busWrite s.cfg.nmax s.draws off size v u.tick = .ok u') :
    ∃ t, hostStep (.write (s.cfg.base + i * 0x40000 + off) size v) rest s = .next t ∧
      t.instances = (s.instances.map Instance.tick).set i u' ∧ t.host = rest ∧ t.reads = s.reads ∧ t.cfg = s.cfg := by
  rw [hostStep_write v rest ho hu, hw, State.tick_instances, List.set_eq_take_append_cons_drop, if_pos (lt_length_tick hu)]
  exact ⟨_, rfl, rfl, rfl, List.append_nil _, rfl⟩

theorem hostStep_write_error (rest : List HostOp) (ho : off < 0x40000) (hu : s.instances[i]? = some u) {f : Fault}
    (hf : busWrite s.cfg.nmax s.draws off size v u.tick = .error f) :
    hostStep (.write (s.cfg.base + i * 0x40000 + off) size v) rest s = .fault f := by
  rw [hostStep_write v rest ho hu, hf]

/-- A host write that answers next belongs to an instance, which takes it. -/
theorem hostStep_write_next (h : hostStep (.write addr size v) rest s = .next t) :
    ∃ i off u u', off < 0x40000 ∧ addr = s.cfg.base + i * 0x40000 + off ∧ s.instances[i]? = some u ∧
      busWrite s.cfg.nmax s.draws off size v u.tick = .ok u' ∧
      t.instances = (s.instances.map Instance.tick).set i u' := by
  have hin : ¬ (addr < s.cfg.base ∨ s.instances.length ≤ (addr - s.cfg.base) / 0x40000) := fun hout => by
    rw [(hostStep_outside size v rest hout).2] at h
    cases h
  obtain ⟨i, off, u, ho, rfl, hu⟩ := exists_address hin
  cases hw : busWrite s.cfg.nmax s.draws off size v u.tick with
  | ok u' =>
    obtain ⟨t', ht', hinst, -⟩ := hostStep_write_ok rest ho hu hw
    cases h.symm.trans ht'
    exact ⟨i, off, u, u', ho, rfl, hu, hw, hinst⟩
  | error f =>
    rw [hostStep_write_error rest ho hu hw] at h
    cases h

theorem select_instances (h : s.select addr = .ok t) : t.instances = s.instances := by
  rw [State.select] at h
  split at h
  · cases h
  · split at h <;> cases h
    next hf => exact (focus_spec hf).1

theorem hostRead_instances {w : Word} (h : s.hostRead addr size = .ok (w, t)) : t.instances = s.instances := by
  rw [State.hostRead] at h
  split at h
  · cases h
  · next hs =>
    split at h <;> cases h
    exact select_instances hs

/-- What a host transaction leaves of the instances: all of them one transaction nearer their engine steps (log 6), and one of
them written if the transaction is a write. -/
theorem hostStep_instances {op : HostOp} (h : hostStep op rest s = .next t) :
    t.instances = s.instances.map Instance.tick ∨
    ∃ i off size v u u', s.instances[i]? = some u ∧ busWrite s.cfg.nmax s.draws off size v u.tick = .ok u' ∧
      t.instances = (s.instances.map Instance.tick).set i u' := by
  cases op with
  | read addr size =>
    rw [hostStep] at h
    split at h <;> cases h
    next hr => exact .inl ((hostRead_instances hr).trans (State.tick_instances s))
  | write addr size v =>
    obtain ⟨i, off, u, u', -, -, hu, hw, hinst⟩ := hostStep_write_next h
    exact .inr ⟨i, off, size, v, u, u', hu, hw, hinst⟩
  | poll i =>
    rw [hostStep] at h
    split at h <;> cases h
    next hr => exact .inl ((hostRead_instances hr).trans (State.tick_instances s))

end HostWrite

/-! ## A pending command -/

/-- Two instances agree on a pending command: BUSY, the command latch (R32) and the model's delay (log 6). -/
structure Instance.SamePending (u v : Instance) : Prop where
  busy : v.status.busy = u.status.busy
  pcmd : v.pcmd = u.pcmd
  pfreq : v.pfreq = u.pfreq
  pgain : v.pgain = u.pgain
  delay : v.delay = u.delay

section Pending

variable {s t : State} {u u' : Instance} {v : Word}

theorem Instance.SamePending.rfl : u.SamePending u := ⟨Eq.refl _, Eq.refl _, Eq.refl _, Eq.refl _, Eq.refl _⟩

@[simp] theorem Status.record_busy (e : ErrorName) (st : Status) : (st.record e).busy = st.busy := by
  rw [Status.record]
  split <;> rfl

@[simp] theorem Status.write_busy (v : Word) (st : Status) : (st.write v).busy = st.busy := by
  rw [Status.write]
  split <;> rfl

/-- While a command is pending, a CMD write is dropped (R210). -/
theorem cmdWrite_samePending (step : Nat) (w : Word) (hb : u.status.busy = true) : u.SamePending (cmdWrite step w u) := by
  rw [cmdWrite, if_pos hb]
  split <;> exact ⟨Status.record_busy _ _, rfl, rfl, rfl, rfl⟩

/-- No host write changes a pending command: CMD drops the word, and the staging registers are not the latch. -/
theorem busWrite_samePending {nmax step off size : Nat} (hb : u.status.busy = true)
    (hw : busWrite nmax step off size v u = .ok u') : u.SamePending u' := by
  rw [busWrite] at hw
  split at hw
  · cases hw
  · next tg _ =>
    cases tg with
    | cmd => cases hw; exact cmdWrite_samePending step v hb
    | status => cases hw; exact ⟨Status.write_busy v u.status, rfl, rfl, rfl, rfl⟩
    | inBuf k => rw [writeTarget, if_pos hb] at hw; cases hw
    | outBuf c k => rw [writeTarget, if_pos hb] at hw; cases hw
    | _ => cases hw; exact ⟨rfl, rfl, rfl, rfl, rfl⟩

/-- A host transaction leaves every pending command as it was, one transaction nearer its engine step. -/
theorem hostStep_samePending {op : HostOp} {rest : List HostOp} {i : Nat} (h : hostStep op rest s = .next t)
    (hu : s.instances[i]? = some u) (hb : u.status.busy = true) :
    ∃ v, t.instances[i]? = some v ∧ u.tick.SamePending v := by
  obtain hinst | ⟨j, off, size, w, uj, u', huj, hw, hinst⟩ := hostStep_instances h <;> rw [hinst]
  · exact ⟨u.tick, getElem?_tick hu, .rfl⟩
  · by_cases hij : j = i
    · subst hij
      cases hu.symm.trans huj
      exact ⟨u', List.getElem?_set_self (lt_length_tick hu), busWrite_samePending hb hw⟩
    · exact ⟨u.tick, (List.getElem?_set_ne hij).trans (getElem?_tick hu), .rfl⟩

end Pending

/-! ## The obligations -/

/-- Settles O8: a refused word and a command both end with BUSY cleared. -/
theorem engineStepClearsBusy : Obligations.EngineStepClearsBusy := by
  intro s t h
  obtain ⟨-, e⟩ | ⟨-, e⟩ | ⟨i, -, e⟩ := engineStep_cases s <;> rw [e] at h
  · cases h; rfl
  · cases h; rfl
  · exact exec_clears_busy h

/-- Settles O9: with no instance ready, a pending command still has a transaction to wait for, and the step is one. -/
theorem pendingCommandComesNearer : Obligations.PendingCommandComesNearer := by
  intro s t i u hn hu hb ht
  have hwaits : ¬ (u.delay = 0 ∨ s.host = []) := fun hturn => by
    have hready := (nextEngine_none_iff s).mp hn u (List.mem_of_getElem? hu)
    rw [(ready_iff s u).mpr ⟨hb, hturn⟩] at hready
    cases hready
  obtain ⟨op, rest, hhost⟩ := List.exists_cons_of_ne_nil fun h => hwaits (.inr h)
  rw [step_of_host hn hhost] at ht
  obtain ⟨v, hv, hsame⟩ := hostStep_samePending ht hu hb
  have hdelay : v.delay + 1 = u.delay := by
    rw [hsame.delay, Instance.tick_delay]
    omega
  exact ⟨v, hv, hsame.busy.trans hb, hdelay, hsame.pcmd, hsame.pfreq, hsame.pgain⟩

/-- Settles O14: RESET gives every element of R44 a value that the state before it does not enter. -/
theorem resetForgetsThePast : Obligations.ResetForgetsThePast := by
  intro s₁ s₂ t₁ t₂ m hcfg he₁ he₂ h1 h16 hf₁ hf₂
  cases he₁.symm.trans (execReset_success h1 h16 hf₁)
  cases he₂.symm.trans (execReset_success h1 h16 hf₂)
  rw [State.complete_inst, State.complete_inst, hcfg]
  rfl

/-- Settles O19: the checks pass, and the frame of the block is put together from those of its three phases. -/
theorem processCompletes : Obligations.ProcessCompletes := by
  intro s n hinit h1 hn hb
  have hexec := exec_process_of_length hinit h1 hn
  rw [if_pos ((buffersWritten_iff_premise s n _).mpr hb)] at hexec
  obtain ⟨hin, -⟩ := hb
  refine ⟨rfl, fun k hk => ⟨_, Memory.word_eq_sample (hin k hk), pushPhase_succ ..⟩, _, hexec, ?_⟩
  rw [State.complete_inst]
  refine ⟨?params, ?status, rfl, rfl, rfl, rfl, rfl, processBlock_count .., processBlock_inputRing ..,
    processBlock_analytic .., processBlock_accum .., processBlock_outStage .., processBlock_outdata ..,
    fun c hc => ?current, fun k hk => ⟨?outdata, ?rawOut⟩, fun a ha => ?mem⟩
  case params => simp [SameButProcess]
  case status => rw [processBlock_status]; rfl
  case current => rw [processBlock, mixPhase_current_ge _ _ _ _ _ hc, modulatePhase_current, pushPhase_current]
  case outdata => rw [processBlock_outdata, pushPhase_outdata_ge _ _ _ _ _ hk]
  case rawOut => rw [processBlock_rawOut, modulatePhase_rawOut_ge _ _ _ _ _ hk, pushPhase_rawOut]
  case mem => rw [processBlock, mixPhase_mem_outside _ _ _ _ _ ha, modulatePhase_mem, pushPhase_mem]

/-- Settles O45: the two addresses name their buffer words, and a write is one of four bytes. -/
theorem bufferTransactions : Obligations.BufferTransactions := by
  intro nmax step c k v u hc hk hmax hwf
  have hin := target_inBuf hk hmax
  have hout := target_outBuf hc hk hmax
  refine ⟨fun hb => ⟨?raceIn, ?raceOut⟩, fun a ha hb => ⟨Memory.setWord u.mem a v, ?write, Memory.wf_setWord _ _ _ hwf,
    Memory.word_setWord _ _ _ hwf, ?readBack, fun b hb => Memory.get_setWord_of_ne _ _ _ _ hwf hb⟩, fun a ha hw => ?unwritten,
    fun w hw => ?readIn, fun w hw => ?readOut⟩
  case raceIn => rw [busWrite_of_target hin, writeTarget, if_pos hb]
  case raceOut => rw [busWrite_of_target hout, writeTarget, if_pos hb]
  case write =>
    have hidle := ne_true_of_eq_false hb
    obtain rfl | rfl := ha
    · rw [busWrite_of_target hin, writeTarget, if_neg hidle]
    · rw [busWrite_of_target hout, writeTarget, if_neg hidle]
  case readBack =>
    have hread := Memory.word_setWord u.mem a v hwf
    obtain rfl | rfl := ha
    · rw [busRead_of_target hin, readTarget_inBuf_of_word hread]
    · rw [busRead_of_target hout, readTarget_outBuf_of_word hread]
      exact congrArg Except.ok (readback_of_idle step v hb)
  case unwritten =>
    obtain rfl | rfl := ha
    · rw [busRead_of_target hin, readTarget, hw]
    · rw [busRead_of_target hout, readTarget, hw]
  case readIn => rw [busRead_of_target hin, readTarget_inBuf_of_word hw]
  case readOut => rw [busRead_of_target hout, readTarget_outBuf_of_word hw, readback, drawnWord]

/-- Settles O52: an engine step writes the served instance, and a host write puts its instance back in its place. -/
theorem instancesAreIndependent : Obligations.InstancesAreIndependent := by
  refine ⟨fun s t h => ?engine, fun s addr size v rest => ⟨fun t i u ht hi hu => ?others, ?served,
    fun hout => (hostStep_outside size v rest hout).2⟩⟩
  case engine =>
    obtain ⟨u, d, rfl⟩ := engineStep_writes h
    exact ⟨rfl, rfl, rfl, rfl, rfl⟩
  case others =>
    obtain ⟨j, off, uj, u', ho, rfl, -, -, hinst⟩ := hostStep_write_next ht
    have hij : j ≠ i := by omega
    rw [hinst, List.getElem?_set_ne hij]
    exact getElem?_tick hu
  case served =>
    rintro i off u ho rfl hu
    refine ⟨fun u' hw => ?_, fun f hf => hostStep_write_error rest ho hu hf⟩
    obtain ⟨t, ht, hinst, hframe⟩ := hostStep_write_ok rest ho hu hw
    have hi : t.instances[i]? = some u' := by rw [hinst, List.getElem?_set_self (lt_length_tick hu)]
    exact ⟨t, ht, hi, hinst, hframe⟩

/-- Settles O5: the engine serves the instance at hand if it is ready, else the first that is; else the host goes on. -/
theorem stepRunsDecodedCommand : Obligations.StepRunsDecodedCommand := by
  refine ⟨fun s i hbusy hturn hi => ?served, fun s => ?due, fun s s' hn => ?engine, fun s op rest => step_of_host⟩
  case served => exact (step_of_ready ((ready_iff s s.inst).mpr ⟨hbusy, hturn⟩)).trans (engineStep_of_cmd hi)
  case due => simp only [nextEngine_none_iff, ← ready_iff, Bool.not_eq_true]
  case engine =>
    have hstep := step_of_nextEngine hn
    obtain ⟨hinst, hcfg, hhost, hreads, hdraws, hready⟩ := nextEngine_spec hn
    obtain ⟨hbusy, hturn⟩ := (ready_iff s s'.inst).mp hready
    exact ⟨hstep, fun i hi => hstep.trans (engineStep_of_cmd hi), hbusy, hhost ▸ hturn, hinst, hcfg, hhost, hreads, hdraws⟩

/-- Settles O6: the accepted word waits for no host transaction, and its instance is the one served. -/
theorem fetchWordRunsNext : Obligations.FetchWordRunsNext := by
  intro s w i hi
  rw [withFetchWord_eq]
  have hready : (s.withInst (accept 0 w s.inst)).ready (accept 0 w s.inst) = true := rfl
  exact ⟨(step_of_ready hready).trans (engineStep_of_cmd hi), rfl, rfl, rfl⟩

/-- Settles O11: NOP completes with the instance as it is, and every other word of its opcode has a reserved bit set. -/
theorem nopDoesNothing : Obligations.NopDoesNothing := by
  refine fun s => ⟨rfl, fun h => engineStep_of_cmd (by rw [h]; decide), fun hopc hw => ?_⟩
  change opcField s.inst.pcmd = 0 at hopc
  exact engineStep_of_reservedBits ((decode_eq_reservedBits_iff _).mpr ⟨by omega, reservedBitSet_of_opcField_zero hopc hw⟩)

/-- Settles O13: the operand is checked first, then a failure is drawn if one may be. -/
theorem resetRefusals : Obligations.ResetRefusals := by
  refine fun s m => ⟨fun hm => ?operand, fun h1 h16 hmay hinit => ?drawn, fun hno => ?noDraw⟩
  case operand =>
    rw [exec, execReset, checkNch, if_pos hm]
    exact congrArg _ (raise_eq_refusedWith .badNch s)
  case drawn =>
    have hdraw : resetMayFail s = true := by rw [resetMayFail, hmay, hinit]; rfl
    have hfails : resetFails s = (freeBits ⟨s.draws, .initFail, 0, 0⟩).getLsbD 0 := by
      rw [resetFails, hdraw, Bool.true_and]
    rw [← hfails, exec]
    split
    · next hf =>
      refine ⟨_, ?_, raise_eq_refusedWith .initFailed s.drawn.setFatal⟩
      simp only [execReset, checkNch_eq_none h1 h16, hdraw, hf, if_true]
    · next hf =>
      exact ⟨_, execReset_success h1 h16 (eq_false_of_ne_true hf), complete_resetInstance_atReset ..⟩
  case noDraw =>
    have hdraw : resetMayFail s = false := by
      obtain h | h := hno <;> simp [resetMayFail, h]
    rw [resetFails, hdraw, Bool.false_and]

/-- Settles O15: the frequency's check is R213's, of a zero +0.0 is stored, and off looks at no frequency. -/
theorem setShiftCompletes : Obligations.SetShiftCompletes := by
  intro s hinit
  have hdone {dir : Dir} (hdir : dir = .up ∨ dir = .down) (hf : FreqOk s.inst.pfreq) :
      exec (.setShift dir) s = .next (doneWith (shiftInstance dir s.inst) s) :=
    exec_setShift_done ((requireInit_of_init hinit).trans (checkShift_of_freqOk hdir hf))
  refine ⟨exec_setShift_done (requireInit_of_init hinit), fun hf hz => ?zero, fun hf hz => ?other⟩
  case zero =>
    rw [hdone (.inl rfl) hf, hdone (.inr rfl) hf, shiftInstance, shiftInstance, storedFreq_of_zero hz]
    exact ⟨rfl, rfl⟩
  case other =>
    rw [hdone (.inl rfl) hf, hdone (.inr rfl) hf, shiftInstance, shiftInstance, storedFreq_of_not_zero hz]
    exact ⟨rfl, rfl⟩

/-- Settles O16: NOT_INIT comes first, then the direction, then the frequency. -/
theorem setShiftRefusals : Obligations.SetShiftRefusals := by
  refine fun s => ⟨fun hinit _ => exec_setShift_refused (e := .notInit) (requireInit_of_not_init hinit),
    exec_setShift_reserved, fun hinit hf => ?_⟩
  have hrefused {dir : Dir} (hdir : dir = .up ∨ dir = .down) : exec (.setShift dir) s = .next (refusedWith 6 s) :=
    exec_setShift_refused (e := .badFreq) ((requireInit_of_init hinit).trans (checkShift_of_not_freqOk hdir hf))
  exact ⟨hrefused (.inl rfl), hrefused (.inr rfl)⟩

/-- Settles O17: an active channel and a finite gain pass the checks, and one target is set. -/
theorem setGainCompletes : Obligations.SetGainCompletes := fun _ _ hinit hch hg =>
  exec_setGain_done ((requireInit_of_init hinit).trans (checkGain_of_gainOk hch hg))

/-- Settles O18: NOT_INIT comes first, then the channel, then the gain. -/
theorem setGainRefusals : Obligations.SetGainRefusals := fun s _ =>
  ⟨fun hinit => exec_setGain_refused (e := .notInit) (requireInit_of_not_init hinit),
    fun hinit hch => exec_setGain_refused (e := .badChannel)
      ((requireInit_of_init hinit).trans (checkGain_of_inactive s.inst.pgain hch)),
    fun hinit hch hg => exec_setGain_refused (e := .badGain)
      ((requireInit_of_init hinit).trans (checkGain_of_not_gainOk hch hg))⟩

/-- Settles O20: NOT_INIT comes first, then the length; the words the block reads are looked at last. -/
theorem processRefusals : Obligations.ProcessRefusals := fun s n =>
  ⟨fun hinit => exec_process_refused (e := .notInit) (requireInit_of_not_init hinit),
    fun hinit hn => exec_process_refused (e := .badLength) ((requireInit_of_init hinit).trans (checkLength_eq_some hn)),
    fun hinit h1 hn hb =>
      (exec_process_of_length hinit h1 hn).trans (if_neg ((buffersWritten_iff_premise s n _).not.mpr hb))⟩

/-- Settles O42: the offsets name their registers; those of the gains are computed from the channel. -/
theorem readbackReads : Obligations.ReadbackReads := by
  intro nmax step c v u hc
  have hcur := target_curGain nmax hc
  have htgt := target_tgtGain nmax hc
  refine ⟨rfl, rfl, rfl, rfl, rfl, rfl, rfl, rfl, rfl, rfl, busRead_of_target hcur, busRead_of_target htgt, ?_⟩
  simp only [List.forall_mem_cons]
  exact ⟨rfl, rfl, rfl, rfl, rfl, rfl, rfl, rfl, rfl, busWrite_of_target hcur, busWrite_of_target htgt, nofun⟩

/-- Settles O43: the offsets name the staging registers, whatever STATUS holds. -/
theorem stagingTransactions : Obligations.StagingTransactions := fun _ _ _ _ => ⟨rfl, rfl, rfl, rfl, rfl, rfl⟩

/-- Settles O44: bit 2 decides what a write does, and the fields of a read stand at their places. -/
theorem statusTransactions : Obligations.StatusTransactions := by
  intro nmax step v u
  have hwrite : busWrite nmax step 0x00C 4 v u = .ok { u with status := u.status.write v } := rfl
  refine ⟨fun hv => ?clear, fun hv => ?ignored, fun e hv => ?recorded, _, busRead_status nmax step u, u.status.word_fields⟩
  case clear =>
    rw [hwrite, Status.write, if_pos hv]
    rfl
  case ignored => rw [hwrite, Status.write, if_neg (ne_true_of_eq_false hv)]
  case recorded =>
    rw [Status.write, if_pos hv]
    rfl

/-- Settles O46: FATAL is looked at first, then BUSY, and a dropped word is recorded alone. -/
theorem cmdWriteAccepts : Obligations.CmdWriteAccepts := by
  intro nmax step w u
  have hcmd : busWrite nmax step 0x008 4 w u = .ok (cmdWrite step w u) := rfl
  refine ⟨fun hf => ?fatal, fun hf hb => ?busy, fun hf hb => ⟨freeDelay step, ?accepted⟩⟩
  case fatal =>
    rw [hcmd, cmdWrite, if_pos hf]
    rfl
  case busy =>
    rw [hcmd, cmdWrite, if_neg (ne_true_of_eq_false hf), if_pos hb]
    rfl
  case accepted =>
    rw [hcmd, cmdWrite, if_neg (ne_true_of_eq_false hf), if_neg (ne_true_of_eq_false hb)]
    rfl

end Sys2Proof.Machine
end

section
/-! PROOFS. The exceptions of spec/60_exceptions.md: what recording an error writes (R253); that no engine step clears a recorded
error (R255) and no step clears FATAL (R257); and that an idle machine keeps its state (R265).

Both clauses about clearing go through one relation on STATUS, `Status.Keeps`, which every command's end meets. -/

namespace Sys2Proof.Machine

open Sys2Proof Sys2Proof.Claims

/-! ## What an engine step keeps of STATUS -/

/-- STATUS `b` still holds what STATUS `a` recorded: an error with its code, ERR_MULTI and FATAL. -/
structure Status.Keeps (a b : Status) : Prop where
  err : a.err = true → b.err = true ∧ b.errCode = a.errCode
  errMulti : a.errMulti = true → b.errMulti = true
  fatal : a.fatal = true → b.fatal = true

namespace Status.Keeps

variable {a b : Status}

theorem idle (h : a.Keeps b) : a.Keeps b.idle := ⟨h.err, h.errMulti, h.fatal⟩

theorem refl (a : Status) : a.Keeps a := ⟨fun h => ⟨h, rfl⟩, id, id⟩

theorem setInit (a : Status) : a.Keeps { a with init := true } := ⟨fun h => ⟨h, rfl⟩, id, id⟩

/-- A second error leaves ERR and ERRCODE alone, and the first is recorded only where there was none (R253). -/
theorem record (a : Status) (e : ErrorName) : a.Keeps (a.record e) := by
  rw [Status.record]
  split
  · exact ⟨fun h => ⟨h, rfl⟩, fun _ => rfl, id⟩
  · next hnone => exact ⟨fun h => absurd h hnone, id, id⟩

/-- A failed RESET sets FATAL before it records its code (R257). -/
theorem failed (a : Status) (e : ErrorName) : a.Keeps (Status.record e { a with fatal := true }) :=
  have h := record { a with fatal := true } e
  ⟨h.err, h.errMulti, fun _ => h.fatal rfl⟩

end Status.Keeps

section EngineStep

variable {s t : State}

theorem State.raise_keeps (s : State) (e : ErrorName) : s.inst.status.Keeps (s.raise e).inst.status :=
  (Status.Keeps.record _ e).idle

theorem State.complete_keeps {u : Instance} (h : s.inst.status.Keeps u.status) :
    s.inst.status.Keeps (t.complete u).inst.status :=
  h.idle

/-- SET_SHIFT writes the modulator's parameters and no STATUS (R213). -/
theorem shiftInstance_status (dir : Dir) (u : Instance) : (shiftInstance dir u).status = u.status := by
  cases dir <;> rfl

theorem exec_keeps {i : Instr} (h : exec i s = .next t) : s.inst.status.Keeps t.inst.status := by
  have hself := Status.Keeps.refl s.inst.status
  cases i with
  | nop => cases h; exact State.complete_keeps hself
  | reset n =>
    obtain ⟨-, rfl⟩ | ⟨-, -, -, rfl⟩ | ⟨-, -, -, rfl⟩ := execReset_cases h
    · exact s.raise_keeps _
    · exact (Status.Keeps.failed s.inst.status _).idle
    · exact State.complete_keeps (.setInit _)
  | setShift dir =>
    obtain ⟨e, -, rfl⟩ | ⟨-, rfl⟩ := execSetShift_cases h
    · exact s.raise_keeps e
    · exact State.complete_keeps (by rw [shiftInstance_status]; exact hself)
  | setGain ch =>
    obtain ⟨e, -, rfl⟩ | ⟨-, rfl⟩ := execSetGain_cases h
    · exact s.raise_keeps e
    · exact State.complete_keeps hself
  | process n =>
    obtain ⟨e, -, rfl⟩ | ⟨-, -, rfl⟩ := execProcess_cases h
    · exact s.raise_keeps e
    · exact State.complete_keeps (by rw [processBlock_status]; exact hself)

theorem engineStep_keeps (h : engineStep s = .next t) : s.inst.status.Keeps t.inst.status := by
  obtain ⟨-, e⟩ | ⟨-, e⟩ | ⟨i, -, e⟩ := engineStep_cases s <;> rw [e] at h
  · cases h; exact s.raise_keeps _
  · cases h; exact s.raise_keeps _
  · exact exec_keeps h

theorem getElem?_instances_served (s : State) : s.instances[s.before.length]? = some s.inst := by
  simp [State.instances]

/-- An engine step puts the served instance back in its place. -/
theorem engineStep_instances (h : engineStep s = .next t) : t.instances = s.instances.set s.before.length t.inst := by
  obtain ⟨u, d, rfl⟩ := engineStep_writes h
  simp [State.instances]

end EngineStep

/-! ## FATAL under a host transaction -/

section Fatal

variable {s t : State} {u u' : Instance}

@[simp] theorem Status.record_fatal (e : ErrorName) (st : Status) : (st.record e).fatal = st.fatal := by
  rw [Status.record]
  split <;> rfl

@[simp] theorem Status.write_fatal (v : Word) (st : Status) : (st.write v).fatal = st.fatal := by
  rw [Status.write]
  split <;> rfl

theorem cmdWrite_of_fatal (step : Nat) (w : Word) (h : u.status.fatal = true) :
    cmdWrite step w u = { u with status := u.status.record .fatal } := by
  rw [cmdWrite, if_pos h]

theorem cmdWrite_of_busy (step : Nat) (w : Word) (hf : u.status.fatal = false) (hb : u.status.busy = true) :
    cmdWrite step w u = { u with status := u.status.record .busy } := by
  rw [cmdWrite, if_neg (ne_true_of_eq_false hf), if_pos hb]

/-- No host write clears FATAL: CMD drops the word, and the clearing write to STATUS reaches the error fields alone (R217). -/
theorem busWrite_fatal {nmax step off size : Nat} {v : Word} (hf : u.status.fatal = true)
    (hw : busWrite nmax step off size v u = .ok u') : u'.status.fatal = true := by
  rw [busWrite] at hw
  split at hw
  · cases hw
  · next tg _ =>
    cases tg with
    | cmd => cases hw; rw [cmdWrite_of_fatal step v hf, Status.record_fatal, hf]
    | status => cases hw; exact (Status.write_fatal v u.status).trans hf
    | inBuf | outBuf => rw [writeTarget] at hw; split at hw <;> cases hw; exact hf
    | _ => cases hw; exact hf

/-- Writing one instance clears no FATAL in a list, if it does not in the instance written. -/
theorem exists_fatal_of_set {l : List Instance} {i j : Nat} (hu : l[i]? = some u) (hf : u.status.fatal = true)
    (hw : l[j]? = some u → u'.status.fatal = true) : ∃ v, (l.set j u')[i]? = some v ∧ v.status.fatal = true := by
  by_cases hij : j = i
  · subst hij
    exact ⟨u', List.getElem?_set_self (List.getElem?_eq_some_iff.mp hu).1, hw hu⟩
  · exact ⟨u, (List.getElem?_set_ne hij).trans hu, hf⟩

theorem engineStep_fatal {i : Nat} (h : engineStep s = .next t) (hu : s.instances[i]? = some u)
    (hf : u.status.fatal = true) : ∃ v, t.instances[i]? = some v ∧ v.status.fatal = true := by
  rw [engineStep_instances h]
  refine exists_fatal_of_set hu hf fun hserved => ?_
  cases (getElem?_instances_served s).symm.trans hserved
  exact (engineStep_keeps h).fatal hf

theorem hostStep_fatal {op : HostOp} {rest : List HostOp} {i : Nat} (h : hostStep op rest s = .next t)
    (hu : s.instances[i]? = some u) (hf : u.status.fatal = true) : ∃ v, t.instances[i]? = some v ∧ v.status.fatal = true := by
  have hfTick : u.tick.status.fatal = true := hf
  obtain hinst | ⟨j, off, size, w, uj, u', huj, hw, hinst⟩ := hostStep_instances h <;> rw [hinst]
  · exact ⟨u.tick, getElem?_tick hu, hfTick⟩
  · refine exists_fatal_of_set (getElem?_tick hu) hfTick fun hwritten => ?_
    rw [← Option.some.inj (hwritten.symm.trans (getElem?_tick huj))] at hw
    exact busWrite_fatal hfTick hw

end Fatal

/-! ## The idle machine -/

/-- A run has ended with no engine step due (R292): no instance has a command pending. -/
theorem nextEngine_of_ended {s : State} (h : Ended s) : s.nextEngine = none := by
  obtain ⟨-, hidle⟩ := h
  refine (nextEngine_none_iff s).mpr fun u hu => ?_
  rw [State.ready, hidle u hu, Bool.false_and]

/-! ## The obligations -/

/-- Settles O50: a refusal records over the error that stands, and no command's completion touches the error fields. -/
theorem engineNeverClearsErrors : Obligations.EngineNeverClearsErrors := by
  intro s t h herr
  have hkeeps := engineStep_keeps h
  obtain ⟨herr', hcode⟩ := hkeeps.err herr
  exact ⟨herr', hcode, hkeeps.errMulti⟩

/-- Settles O51: neither the engine step of the served instance nor a host write clears FATAL in the one instance it writes. -/
theorem fatalStays : Obligations.FatalStays := by
  intro s t i u h hu hf
  obtain ⟨s', hn, e⟩ | ⟨op, rest, -, -, e⟩ | ⟨-, -, e⟩ := step_cases s <;> rw [e] at h
  · obtain ⟨hinst, -⟩ := nextEngine_spec hn
    exact engineStep_fatal h (hinst ▸ hu) hf
  · exact hostStep_fatal h hu hf
  · cases h; exact ⟨u, hu, hf⟩

/-- Settles O10: no engine step is due, and the host has no transaction left. -/
theorem idleKeepsState : Obligations.IdleKeepsState := by
  intro s h
  have ⟨hhost, _⟩ := h
  simp only [step, nextEngine_of_ended h, hhost]

/-- Settles O49: RECORD looks at ERR, and a CMD write records alone, FATAL before BUSY. -/
theorem recordKeepsFirstError : Obligations.RecordKeepsFirstError := by
  refine fun e s => ⟨raise_eq_refusedWith e s, fun h => ?first, fun h => ?second, fun w d => cmdWrite_of_fatal d w,
    fun w d => cmdWrite_of_busy d w⟩
  case first => rw [Status.record, if_neg (ne_true_of_eq_false h)]
  case second => rw [Status.record, if_pos h]

end Sys2Proof.Machine
end
